-- ==== Sys2Proof/Word.lean ====
section
/-! DEFINITION. The words and the enumerated types of the block (00_scope.md R7, R8, R10). -/

namespace Sys2Proof

/-- One transfer unit, 8 bits (R6 `BYTE_W`). -/
abbrev Byte := BitVec 8

/-- A device address, 7 bits (R6 `ADDR_W`, C9). -/
abbrev Addr := BitVec 7

/-- The command word, 12 bits: `OP` in 11:8, `ARG` in 7:0 (30_encoding.md R70). -/
abbrev CmdWord := BitVec 12

/-- The observable state of a line (R8). -/
inductive Level where
  | low
  | high
deriving DecidableEq, Repr, Inhabited

/-- What the master does to a line: `low` asserts it (0), `rel` releases it (1); there is no third
choice (10_state.md R21, R22). -/
inductive Drive where
  | low
  | rel
deriving DecidableEq, Repr, Inhabited

/-- The acknowledgment of a byte (R8). -/
inductive Ack where
  | ack
  | nack
deriving DecidableEq, Repr, Inhabited

/-- The direction of a transaction (R8). -/
inductive Dir where
  | write
  | read
deriving DecidableEq, Repr, Inhabited

/-- The result of a WRITE or READ (R8). -/
inductive Status where
  | success
  | failure
deriving DecidableEq, Repr, Inhabited

/-- The state machine's phase (10_state.md R24). The codes 5 to 7 are never taken (U26) and have no
constructor. -/
inductive Phase where
  | idle
  | start
  | address
  | data
  | stop
deriving DecidableEq, Repr, Inhabited

/-- One entry of `TRACE`: the record of one primitive performed (10_state.md R36, R10). -/
inductive Event where
  | sdaLow
  | sdaRel
  | sclLow
  | sclRel
  | delay
  | sdaSample (v : Level)
  | sclSample (v : Level)
deriving DecidableEq, Repr, Inhabited

end Sys2Proof
end

