-- ==== Sys2Proof/Config.lean ====
section
/-! DEFINITION. The free values: what the environment answers where State lists no answer of its own
(10_state.md R38, D14). Neither has a body, so nothing can be proved about the answers. -/

namespace Sys2Proof

/-- What the parties other than the master do to the data line when it is sampled after the given
history and State.sdaIn lists no answer: a free value (log 4). R38: it "may answer anything; the
answer may depend on the whole history". -/
opaque Config.envSda : List Event → Level

/-- The same for the clock line, asked by `SCL_SAMPLE` only (40_line_primitives.md R96, log 5). -/
opaque Config.envScl : List Event → Level

end Sys2Proof
end

