-- ==== Sys2Proof/Syntax.lean ====
section
/-! DEFINITION. The fourteen operations (00_scope.md R11, 30_encoding.md R71, R82): one constructor for each row of spec/opcode_table.json. -/

namespace Sys2Proof

/-- An operation of the block with its immediate operand (R72). `LEN` and `BUF` travel beside the word
and are state. The operand types hold exactly the values the encoding admits, so every term is a
well-formed instruction: the checks of WellFormed.lean are on words. -/
inductive Instr where
  /-- `INIT` (43_public_commands.md R150). -/
  | init
  /-- `WRITE addr` (R151). -/
  | write (addr : Addr)
  /-- `READ addr` (R152). -/
  | read (addr : Addr)
  /-- `BEGIN addr, dir` (42_framing.md R130). -/
  | beginTx (addr : Addr) (dir : Dir)
  /-- `END` (R131). -/
  | endTx
  /-- `BYTE_OUT byte` (41_byte_engine.md R111). -/
  | byteOut (byte : Byte)
  /-- `BYTE_IN last` or `BYTE_IN more` (R113). -/
  | byteIn (isLast : Bool)
  /-- `SDA_LOW` (40_line_primitives.md R91). -/
  | sdaLow
  /-- `SDA_REL` (R92). -/
  | sdaRel
  /-- `SDA_SAMPLE` (R93). -/
  | sdaSample
  /-- `DELAY` (R97). -/
  | delay
  /-- `SCL_LOW` (R94). -/
  | sclLow
  /-- `SCL_REL` (R95). -/
  | sclRel
  /-- `SCL_SAMPLE` (R96). -/
  | sclSample
deriving DecidableEq, Repr

end Sys2Proof
end

