-- ==== Sys2Proof/Decode.lean ====
section
/-! DEFINITION. The decoder of the 12-bit command word and the encoder after it (30_encoding.md R70 to R72, R80, R81), with the numeric encodings of 00_scope.md R8 and the opcode table as rows. -/

namespace Sys2Proof

/-- LOW = 0, HIGH = 1 (R8). -/
def Level.bit : Level → BitVec 1
  | .low => 0#1
  | .high => 1#1

/-- 0 = asserted low, 1 = released (10_state.md R21). -/
def Drive.bit : Drive → BitVec 1
  | .low => 0#1
  | .rel => 1#1

/-- ACK = 0, NACK = 1 (R8). -/
def Ack.bit : Ack → BitVec 1
  | .ack => 0#1
  | .nack => 1#1

/-- WRITE = 0, READ = 1 (R8). -/
def Dir.bit : Dir → BitVec 1
  | .write => 0#1
  | .read => 1#1

/-- SUCCESS = 1, FAILURE = 0 (R8, D6). -/
def Status.bit : Status → BitVec 1
  | .success => 1#1
  | .failure => 0#1

/-- The codes of R24. -/
def Phase.code : Phase → BitVec 3
  | .idle => 0#3
  | .start => 1#3
  | .address => 2#3
  | .data => 3#3
  | .stop => 4#3

/-- Why a word is no operation (R80). -/
inductive Reject where
  /-- `OP = 0x3` or `OP = 0xF`. -/
  | reservedOpcode
  /-- `WRITE` or `READ` with `ARG[7] = 1`. -/
  | addressTopBit
deriving DecidableEq, Repr

/-- `OP = CW[11:8]` (R70). -/
def opField (w : CmdWord) : BitVec 4 := w.extractLsb' 8 4

/-- `ARG = CW[7:0]` (R70). -/
def argField (w : CmdWord) : Byte := w.extractLsb' 0 8

/-- The address operand of `WRITE` and `READ`: `ARG[6:0]`, with `ARG[7]` required to be 0 (R72). -/
def addressOperand (w : CmdWord) : Except Reject Addr :=
  if (argField w).msb then .error .addressTopBit else .ok ((argField w).extractLsb' 0 7)

/-- `DIR = ARG[0]` of `BEGIN` (R72). -/
def dirOperand (w : CmdWord) : Dir := if (argField w).getLsbD 0 then .read else .write

/-- The operation a word names (R71), every word of the 12-bit space covered; ignored bits may hold
anything (R80, last row). -/
def decode (w : CmdWord) : Except Reject Instr :=
  match (opField w).toNat with
  | 0x0 => .ok .init
  | 0x1 => (addressOperand w).map .write
  | 0x2 => (addressOperand w).map .read
  | 0x4 => .ok (.beginTx ((argField w).extractLsb' 1 7) (dirOperand w))
  | 0x5 => .ok .endTx
  | 0x6 => .ok (.byteOut (argField w))
  | 0x7 => .ok (.byteIn ((argField w).getLsbD 0))
  | 0x8 => .ok .sdaLow
  | 0x9 => .ok .sdaRel
  | 0xA => .ok .sdaSample
  | 0xB => .ok .delay
  | 0xC => .ok .sclLow
  | 0xD => .ok .sclRel
  | 0xE => .ok .sclSample
  | _ => .error .reservedOpcode

/-- The operation of a word, or none where it is reserved. -/
def decode? (w : CmdWord) : Option Instr :=
  match decode w with
  | .ok i => some i
  | .error _ => none

/-- A word from its two fields (R70). -/
def mkWord (op : BitVec 4) (arg : Byte) : CmdWord := op ++ arg

/-- The word of an operation, its ignored bits 0 (R71, R72). -/
def encode : Instr → CmdWord
  | .init => mkWord 0x0 0
  | .write a => mkWord 0x1 (0#1 ++ a)
  | .read a => mkWord 0x2 (0#1 ++ a)
  | .beginTx a d => mkWord 0x4 (a ++ d.bit)
  | .endTx => mkWord 0x5 0
  | .byteOut b => mkWord 0x6 b
  | .byteIn l => mkWord 0x7 (0#7 ++ BitVec.ofBool l)
  | .sdaLow => mkWord 0x8 0
  | .sdaRel => mkWord 0x9 0
  | .sdaSample => mkWord 0xA 0
  | .delay => mkWord 0xB 0
  | .sclLow => mkWord 0xC 0
  | .sclRel => mkWord 0xD 0
  | .sclSample => mkWord 0xE 0

/-- Whether the host may issue the operation: the column "host" of R71 (D22). -/
def hostIssuable : Instr → Bool
  | .init => true
  | .write _ => true
  | .read _ => true
  | .beginTx _ _ => false
  | .endTx => false
  | .byteOut _ => false
  | .byteIn _ => false
  | .sdaLow => false
  | .sdaRel => false
  | .sdaSample => false
  | .delay => false
  | .sclLow => false
  | .sclRel => false
  | .sclSample => false

/-- The spec's mnemonics (R82). -/
def mnemonic : Instr → String
  | .init => "INIT"
  | .write _ => "WRITE"
  | .read _ => "READ"
  | .beginTx _ _ => "BEGIN"
  | .endTx => "END"
  | .byteOut _ => "BYTE_OUT"
  | .byteIn _ => "BYTE_IN"
  | .sdaLow => "SDA_LOW"
  | .sdaRel => "SDA_REL"
  | .sdaSample => "SDA_SAMPLE"
  | .delay => "DELAY"
  | .sclLow => "SCL_LOW"
  | .sclRel => "SCL_REL"
  | .sclSample => "SCL_SAMPLE"

/-- A row of spec/opcode_table.json: a word belongs to it when its bits under `mask` are `pattern`. -/
structure TableRow where
  name : String
  pattern : CmdWord
  mask : CmdWord
deriving DecidableEq, Repr

def TableRow.holds (r : TableRow) (w : CmdWord) : Bool := w &&& r.mask == r.pattern

/-- spec/opcode_table.json, row by row. -/
def opcodeTable : List TableRow :=
  [⟨"INIT", 0x000, 0xF00⟩, ⟨"WRITE", 0x100, 0xF80⟩, ⟨"READ", 0x200, 0xF80⟩,
   ⟨"BEGIN", 0x400, 0xF00⟩, ⟨"END", 0x500, 0xF00⟩, ⟨"BYTE_OUT", 0x600, 0xF00⟩,
   ⟨"BYTE_IN", 0x700, 0xF00⟩, ⟨"SDA_LOW", 0x800, 0xF00⟩, ⟨"SDA_REL", 0x900, 0xF00⟩,
   ⟨"SDA_SAMPLE", 0xA00, 0xF00⟩, ⟨"DELAY", 0xB00, 0xF00⟩, ⟨"SCL_LOW", 0xC00, 0xF00⟩,
   ⟨"SCL_REL", 0xD00, 0xF00⟩, ⟨"SCL_SAMPLE", 0xE00, 0xF00⟩]

/-- The rows a word belongs to. -/
def rowsOf (w : CmdWord) : List String :=
  (opcodeTable.filter (·.holds w)).map (·.name)

/-- The command word held in the low 12 bits of a number: a word of the table given in whole bytes
has nothing in the bits above (log 16). -/
def tableWord (nbits w : Nat) : CmdWord := BitVec.ofNat 12 (w % 2 ^ nbits)

/-- The operation the decoder reads from a word numbered as spec/opcode_table.json numbers it. -/
def decodeTableWord (nbits w : Nat) : Option Instr := decode? (tableWord nbits w)

end Sys2Proof
end

