-- ==== Sys2Proof/Machine/State.lean ====
section
/-! DEFINITION. The state of the machine (10_state.md R20 to R39), its reset, and the reasons a step can stop. -/

namespace Sys2Proof.Machine

/-- The transfer buffer `BUF` (20_memory.md R50): byte cells in one canonical form, indices strictly
rising and no cell holding what an unlisted index reads as (`Memory.wf` in Ops.lean). -/
abbrev Memory := List Host.Cell

/-- Who presents a command word. -/
inductive Presenter where
  /-- The host, blocked in the call until the command has run to its end (R155 "the source's blocking
  call", 60_exceptions.md R183). -/
  | call
  /-- The host, polling `BUSY` (R183): acceptance is one step, then each step is one primitive (R154). -/
  | poll
  /-- A micro-program of the block naming an operation of any level (R71: the numbers exist "so that a
  trace or a micro-program can name them"). DESIGN CHOICE, log 6. -/
  | micro
deriving DecidableEq, Repr

/-- One command presented at the interface: the word and, for `WRITE` and `READ`, the bytes of the
buffer, `LEN` being their number (R70, R155, D13). -/
structure Request where
  presenter : Presenter
  word : CmdWord
  bytes : List Byte
  /-- The host holds the word back until `BUSY = 0`, as R216 asks; without it the word is presented at
  once, also while the master is busy (R215). -/
  waits : Bool
deriving DecidableEq, Repr

/-- Which primitive of an `INIT` in progress comes next (R150, R34). Log 10. -/
inductive InitPos where
  | none
  | sdaRel
  | sclRel
deriving DecidableEq, Repr

/-- Everything the spec gives the machine, then the model's own fields. -/
@[ext]
structure State where
  /-- `SDA_O` (R21). -/
  sdaO : Drive
  /-- `SCL_O` (R22). -/
  sclO : Drive
  /-- `PHASE` (R24). -/
  phase : Phase
  /-- `IDX` (R29), a natural number because `LEN_W` is open (D13). -/
  idx : Nat
  /-- `BITCNT` (R27). -/
  bitcnt : BitVec 4
  /-- `USTEP` (R28). -/
  ustep : BitVec 3
  /-- `SHREG` (R25). -/
  shreg : Byte
  /-- `ACKL` (R30). -/
  ackl : Ack
  /-- `CW` (R31). -/
  cw : CmdWord
  /-- `LEN` (R32). -/
  len : Nat
  /-- `STATUS` (R33). -/
  status : Status
  /-- `BUSY` (R34). -/
  busy : Bool
  /-- `BUF` (R37, R50). -/
  buf : Memory
  /-- `TRACE` (R36), oldest event first. -/
  trace : List Event
  /-- Model: an `INIT` has completed (R212), log 9. -/
  inited : Bool
  /-- Model: the position inside an `INIT` in progress, log 10. -/
  initAt : InitPos
  /-- Model: the host's coming moves, the next one first, log 8. -/
  host : List Request
  /-- Model: the environment's coming answers on the data line (R38), log 4. -/
  sdaIn : List Level
  /-- Model: the environment's coming answers on the clock line (R96), log 5. -/
  sclIn : List Level
deriving DecidableEq, Repr

/-- The faults of the block: none, so the type has no constructor and nothing raises one. "In the model, the
machine's step never yields a fault outcome" (60_exceptions.md R180). -/
inductive Fault
deriving DecidableEq, Repr

/-- Why a presented word is given no meaning (30_encoding.md R80). Raised by the command interface
(Issue.lean); no meaning of an instruction refuses. All are SAFE: the model stops. -/
inductive Refusal where
  /-- Raised by nothing: every instruction has its meaning. The host's name for one that has none. Safe. -/
  | notModelled (mnemonic : String)
  /-- Raised by the interface for a reserved word (R80 rows 1 and 2). Safe. -/
  | reservedWord (w : CmdWord)
  /-- Raised by the interface for an internal operation presented by the host (R80 row 3, D22). Safe. -/
  | internalOperation (w : CmdWord)
  /-- Raised by the interface for a word presented while `BUSY = 1` (R80 row 4, R215). Safe. -/
  | busy
  /-- Raised by the interface for a host's WRITE or READ before the first INIT has completed (R212). Safe. -/
  | beforeInit
deriving DecidableEq, Repr

/-- The machine right after power-on (R39, R210). The spec gives `PHASE`, `BUSY`, `TRACE` and that no
command is pending; it calls every other register unspecified, and this state gives each of those the
value named in log 2 (zero) and log 3 (an empty buffer): DESIGN CHOICE, unsafe. -/
def State.reset : State where
  sdaO := .low
  sclO := .low
  phase := .idle
  idx := 0
  bitcnt := 0
  ustep := 0
  shreg := 0
  ackl := .ack
  cw := 0
  len := 0
  status := .failure
  busy := false
  buf := []
  trace := []
  inited := false
  initAt := .none
  host := []
  sdaIn := []
  sclIn := []

end Sys2Proof.Machine
end

