-- ==== Sys2Proof/Machine/Ops.lean ====
section
/-! DEFINITION. The named operations over the registers, the buffer, the lines and the environment. -/

namespace Sys2Proof.Machine

/-! ### The buffer (20_memory.md R50, R55) -/

/-- What an index of `BUF` that is not listed reads as: DESIGN CHOICE, log 3. -/
def Memory.unlisted : Byte := 0x00#8

/-- `MemRead(i, 1)` (00_scope.md R9). -/
def Memory.read : Memory → Nat → Byte
  | [], _ => Memory.unlisted
  | (b, v) :: m, a => if a = b then v else Memory.read m a

/-- A cell in front of a memory, left out when it holds what an unlisted index reads as. -/
def Memory.cons (a : Nat) (v : Byte) (m : Memory) : Memory :=
  if v = Memory.unlisted then m else (a, v) :: m

/-- `MemWrite(i, 1, v)` (R9), keeping the canonical form. -/
def Memory.write : Memory → Nat → Byte → Memory
  | [], a, v => Memory.cons a v []
  | (b, w) :: m, a, v =>
    if a < b then Memory.cons a v ((b, w) :: m)
    else if a = b then Memory.cons a v m
    else (b, w) :: Memory.write m a v

/-- The canonical form from index `lo` on: strictly rising, nothing listed that reads as unlisted. -/
def Memory.wfFrom : Nat → Memory → Bool
  | _, [] => true
  | lo, (a, v) :: m => decide (lo ≤ a) && !(v == Memory.unlisted) && Memory.wfFrom (a + 1) m

def Memory.wf (m : Memory) : Bool := Memory.wfFrom 0 m

/-- The buffer holding the given bytes from index `a` on. -/
def Memory.ofBytes : Nat → List Byte → Memory
  | _, [] => []
  | a, b :: bs => Memory.cons a b (Memory.ofBytes (a + 1) bs)

/-- The first `n` bytes of the buffer, as the host sees them. -/
def Memory.bytes (m : Memory) (n : Nat) : List Byte := (List.range n).map m.read

/-! ### Register updates -/

/-- `emit(e)` (R9, R36). -/
def State.emit (s : State) (e : Event) : State := { s with trace := s.trace ++ [e] }

def State.setSda (s : State) (d : Drive) : State := { s with sdaO := d }
def State.setScl (s : State) (d : Drive) : State := { s with sclO := d }
def State.setShreg (s : State) (b : Byte) : State := { s with shreg := b }
def State.setAckl (s : State) (a : Ack) : State := { s with ackl := a }
def State.setIdx (s : State) (n : Nat) : State := { s with idx := n }
def State.setPhase (s : State) (p : Phase) : State := { s with phase := p }
def State.setStatus (s : State) (st : Status) : State := { s with status := st }
def State.setBusy (s : State) (b : Bool) : State := { s with busy := b }
def State.setBuf (s : State) (m : Memory) : State := { s with buf := m }
def State.setInited (s : State) : State := { s with inited := true }
def State.setInitAt (s : State) (p : InitPos) : State := { s with initAt := p }
def State.setSdaIn (s : State) (vs : List Level) : State := { s with sdaIn := vs }
def State.setSclIn (s : State) (vs : List Level) : State := { s with sclIn := vs }

/-- The sequencer's position inside a byte operation or framing step (R26 to R28). -/
def State.setPos (s : State) (k : BitVec 4) (u : BitVec 3) : State := { s with bitcnt := k, ustep := u }

/-! ### The lines and the environment -/

/-- The level of a line (10_state.md R23), a wired AND: LOW if the master asserts it, else what the other
parties make it. -/
def lineLevel (d : Drive) (others : Level) : Level :=
  match d with
  | .low => .low
  | .rel => others

/-- `Env.sda()` (R38): the next answer on the data line, the free value once none is listed. Log 4. -/
def State.envSda (s : State) : Level :=
  match s.sdaIn with
  | v :: _ => v
  | [] => Config.envSda s.trace

/-- The same on the clock line, for `SCL_SAMPLE` only (R96, log 5). -/
def State.envScl (s : State) : Level :=
  match s.sclIn with
  | v :: _ => v
  | [] => Config.envScl s.trace

/-- `SDA_O <- 0; emit(SDA_LOW)` (40_line_primitives.md R91). -/
def sdaLow (s : State) : State := (s.setSda .low).emit .sdaLow

/-- `SDA_O <- 1; emit(SDA_REL)` (R92). -/
def sdaRel (s : State) : State := (s.setSda .rel).emit .sdaRel

/-- `SCL_O <- 0; emit(SCL_LOW)` (R94). -/
def sclLow (s : State) : State := (s.setScl .low).emit .sclLow

/-- `SCL_O <- 1; emit(SCL_REL)` (R95). -/
def sclRel (s : State) : State := (s.setScl .rel).emit .sclRel

/-- `emit(DELAY)` (R97): no time, an event (R229). -/
def delay (s : State) : State := s.emit .delay

/-- `PUT_SDA(b)` (R99): drive low for 0, release for 1. -/
def putSda (b : Bool) (s : State) : State := if b then sdaRel s else sdaLow s

/-- The level an `SDA_SAMPLE` returns (R93). -/
def sdaSampled (s : State) : Level := lineLevel s.sdaO s.envSda

/-- The state an `SDA_SAMPLE` leaves: one answer of the environment used up if the line was released (the
oracle is not asked while the master asserts it, R38), and the event. -/
def sdaSample (s : State) : State :=
  match s.sdaO with
  | .low => s.emit (.sdaSample (sdaSampled s))
  | .rel => (s.setSdaIn s.sdaIn.tail).emit (.sdaSample (sdaSampled s))

/-- The level an `SCL_SAMPLE` returns (R96). -/
def sclSampled (s : State) : Level := lineLevel s.sclO s.envScl

/-- The state an `SCL_SAMPLE` leaves. -/
def sclSample (s : State) : State :=
  match s.sclO with
  | .low => s.emit (.sclSample (sclSampled s))
  | .rel => (s.setSclIn s.sclIn.tail).emit (.sclSample (sclSampled s))

end Sys2Proof.Machine
end

