-- ==== Sys2Proof/Machine/Operands.lean ====
section
/-! DEFINITION. Operand assembly: the address-phase byte, `is_last`, the side operands, and the command a word in `CW` names (30_encoding.md R72, R73, R83). -/

namespace Sys2Proof.Machine

/-- `AB = ((ADDR << 1) | DIR)[7:0]` (R73, 42_framing.md R133). -/
def addressByte (a : Addr) (d : Dir) : Byte := (a.setWidth 8 <<< 1) ||| d.bit.setWidth 8

/-- `is_last` for byte `IDX` of a READ: `IDX = LEN - 1` (10_state.md R29), written without the
subtraction. -/
def State.isLast (s : State) : Bool := decide (s.idx + 1 = s.len)

/-- `MemRead(IDX, 1)` (20_memory.md R64). -/
def State.bufByte (s : State) : Byte := s.buf.read s.idx

/-- `MemWrite(IDX, 1, SHREG)` (R64). -/
def State.storeByte (s : State) : State := s.setBuf (s.buf.write s.idx s.shreg)

/-- The transfer a command word names: its direction, implied by the opcode, and its address (R31).
None for every other word. -/
def transferOf (w : CmdWord) : Option (Dir × Addr) :=
  match decode w with
  | .ok (.write a) => some (.write, a)
  | .ok (.read a) => some (.read, a)
  | _ => none

end Sys2Proof.Machine
end

