-- ==== Sys2Proof/Machine/Flags.lean ====
section
/-! DEFINITION. The flag and status computations and the arithmetic of the byte engine (41_byte_engine.md R111, R113, R117; 43_public_commands.md R157). -/

namespace Sys2Proof.Machine

/-- LOW is an acknowledgment, HIGH is none (R111, 10_state.md R30). -/
def ackOf : Level → Ack
  | .low => .ack
  | .high => .nack

/-- "shift to the next bit": `SHREG <- (SHREG << 1)[7:0]` (R25). -/
def shiftOut (b : Byte) : Byte := b <<< 1

/-- `SHREG <- ((SHREG << 1) | v)[7:0]` (R113). -/
def shiftIn (b : Byte) (v : Level) : Byte := (b <<< 1) ||| v.bit.setWidth 8

/-- The status of a WRITE (43_public_commands.md R151): SUCCESS iff `LEN > 0` and `acked = LEN`; so an
empty buffer gives FAILURE (D7, 90_conflicts.md C2). -/
def writeStatus (len acked : Nat) : Status :=
  if 0 < len ∧ acked = len then .success else .failure

/-- The status of a READ: the address-phase outcome (R152). -/
def readStatus : Ack → Status
  | .ack => .success
  | .nack => .failure

end Sys2Proof.Machine
end

