-- ==== Sys2Proof/Machine/Line.lean ====
section
/-! DEFINITION. The meanings of the seven line primitives, level L0 (40_line_primitives.md R90 to R97). -/

namespace Sys2Proof.Machine

/-- The three outcomes of an instruction or a step. -/
abbrev Result := Host.Outcome State Fault Refusal

/-- `SDA_LOW` (R91). -/
def execSdaLow (s : State) : Result := .next (sdaLow s)

/-- `SDA_REL` (R92). -/
def execSdaRel (s : State) : Result := .next (sdaRel s)

/-- `SDA_SAMPLE` (R93). The level it returns is in the event; what is done with it is the invoking
operation's business. -/
def execSdaSample (s : State) : Result := .next (sdaSample s)

/-- `SCL_LOW` (R94). -/
def execSclLow (s : State) : Result := .next (sclLow s)

/-- `SCL_REL` (R95). -/
def execSclRel (s : State) : Result := .next (sclRel s)

/-- `SCL_SAMPLE` (R96). No sequence of the block performs it; its effect is the spec's all the same. -/
def execSclSample (s : State) : Result := .next (sclSample s)

/-- `DELAY` (R97). -/
def execDelay (s : State) : Result := .next (delay s)

end Sys2Proof.Machine
end

