-- ==== Sys2Proof/Machine/ByteEngine.lean ====
section
/-! DEFINITION. The byte engine, level L1: `BYTE_OUT` and `BYTE_IN` (41_byte_engine.md R110 to R117), each run to its end. -/

namespace Sys2Proof.Machine

/-- One data cell of `BYTE_OUT` (R111): place bit 7, pulse the clock, shift. -/
def outCell (s : State) : State :=
  let s := delay (sclRel (putSda s.shreg.msb s))
  let s := sclLow s
  delay (s.setShreg (shiftOut s.shreg))

/-- The sample of the acknowledgment cell with its latch: `ACKL <- if v = LOW then ACK else NACK`. -/
def latchAck (s : State) : State := (sdaSample s).setAckl (ackOf (sdaSampled s))

/-- The acknowledgment cell of `BYTE_OUT` (R111). -/
def outAckCell (s : State) : State :=
  delay (sdaLow (sclLow (latchAck (delay (sclRel (sdaRel s))))))

/-- The first `n` cells, one after another. -/
def repeatCell (cell : State → State) : Nat → State → State
  | 0, s => s
  | n + 1, s => repeatCell cell n (cell s)

/-- `BYTE_OUT(byte)` (R111). The position ends where R154 leaves it, at 0, 0 (log 12). The result is
`ACKL`. -/
def byteOut (b : Byte) (s : State) : State :=
  (outAckCell (repeatCell outCell 8 (s.setShreg b))).setPos 0 0

/-- The sample of a data cell of `BYTE_IN` with its shift (R113). -/
def latchBit (s : State) : State := (sdaSample s).setShreg (shiftIn s.shreg (sdaSampled s))

/-- One data cell of `BYTE_IN` (R113). -/
def inCell (s : State) : State := sclLow (delay (latchBit (sclRel (delay s))))

/-- The acknowledgment cell of `BYTE_IN`, driven by the master: ACK (low) asks for more, NACK (released)
ends (R113, C8). -/
def inAckCell (last : Bool) (s : State) : State :=
  delay (sdaLow (sclLow (delay (sclRel (putSda last s)))))

/-- `BYTE_IN(is_last)` (R113); `SHREG` is cleared after the opening release (D16) and is the result. -/
def byteIn (last : Bool) (s : State) : State :=
  (inAckCell last (repeatCell inCell 8 ((sdaRel s).setShreg 0))).setPos 0 0

/-- `BYTE_OUT byte` (R111). -/
def execByteOut (b : Byte) (s : State) : Result := .next (byteOut b s)

/-- `BYTE_IN last` (R113). -/
def execByteIn (last : Bool) (s : State) : Result := .next (byteIn last s)

end Sys2Proof.Machine
end

