-- ==== Sys2Proof/Machine/Framing.lean ====
section
/-! DEFINITION. Transaction framing, level L2: `BEGIN` and `END` (42_framing.md R130 to R133), each run to its end. -/

namespace Sys2Proof.Machine

/-- `START_COND` (30_encoding.md R83): the first four primitives of `BEGIN`, with the holds of D4. -/
def startCond (s : State) : State := delay (sclLow (delay (sdaLow s)))

/-- `STOP_COND` (R83): all of `END`'s primitives; no hold follows (D5). -/
def stopCond (s : State) : State := sdaRel (delay (sclRel s))

/-- `BEGIN(address, direction)` (R130). The result is `ACKL`. It does not check the lines (R213), and
`PHASE` is the transfer's, not its own (log 13). -/
def beginTx (a : Addr) (d : Dir) (s : State) : State := byteOut (addressByte a d) (startCond s)

/-- `END()` (R131). -/
def endTx (s : State) : State := (stopCond s).setPos 0 0

/-- `BEGIN addr, dir` (R130). -/
def execBegin (a : Addr) (d : Dir) (s : State) : Result := .next (beginTx a d s)

/-- `END` (R131). -/
def execEnd (s : State) : Result := .next (endTx s)

end Sys2Proof.Machine
end

