-- ==== Sys2Proof/Machine/Commands.lean ====
section
/-! DEFINITION. The public commands, level L3: `INIT`, `WRITE` and `READ` (43_public_commands.md R150 to R152, R157), each run to its end: the big-step form R154 allows. -/

namespace Sys2Proof.Machine

/-- The end of an `INIT`: `BUSY` falls, and an `INIT` has completed (R155, R212, log 9). -/
def finishInit (s : State) : State := (s.setInitAt .none).setInited.setBusy false

/-- `INIT` (R150): both lines released, the data line first (D8). -/
def init (s : State) : State := finishInit (sclRel (sdaRel s))

/-- The end of a WRITE or READ, after the last primitive of `END`: `STATUS` is written, `PHASE` is IDLE and
`BUSY` falls (R154). -/
def finishTransfer (st : Status) (s : State) : State :=
  ((s.setStatus st).setPhase .idle).setBusy false

/-- The `while IDX < LEN` loop of R151 with `n` bytes left: the bytes sent and acknowledged, `acked` of
them before it, and the state after it. It ends at the first NACK. -/
def writeLoop : Nat → Nat → State → Nat × State
  | 0, acked, s => (acked, s)
  | n + 1, acked, s =>
    let s := byteOut s.bufByte s
    match s.ackl with
    | .nack => (acked, s)
    | .ack => writeLoop n (acked + 1) (s.setIdx (s.idx + 1))

/-- The data part of a WRITE (R151): none unless the address was acknowledged. -/
def writeData (s : State) : Nat × State :=
  match s.ackl with
  | .nack => (0, s)
  | .ack => writeLoop s.len 0 (s.setIdx 0)

/-- `WRITE(address, buffer)` (R151). -/
def writeTransfer (a : Addr) (s : State) : State :=
  let r := writeData (beginTx a .write s)
  finishTransfer (writeStatus s.len r.1) (endTx r.2)

/-- One turn of the loop of R152: a byte received, stored and counted. -/
def readByte (s : State) : State :=
  let s := (byteIn s.isLast s).storeByte
  s.setIdx (s.idx + 1)

/-- The data part of a READ (R152): none unless the address was acknowledged, else all `LEN` bytes. -/
def readData (s : State) : State :=
  match s.ackl with
  | .nack => s
  | .ack => repeatCell readByte s.len (s.setIdx 0)

/-- `READ(address, buffer)` (R152). -/
def readTransfer (a : Addr) (s : State) : State :=
  let s := beginTx a .read s
  finishTransfer (readStatus s.ackl) (endTx (readData s))

/-- `INIT` (R150). -/
def execInit (s : State) : Result := .next (init s)

/-- `WRITE addr` (R151). "The sequences themselves remain defined, primitive by primitive, from any driver
state" (70_reset_and_hazards.md R212): what R212 refuses, it refuses at the interface (Issue.lean). -/
def execWrite (a : Addr) (s : State) : Result := .next (writeTransfer a s)

/-- `READ addr` (R152). -/
def execRead (a : Addr) (s : State) : Result := .next (readTransfer a s)

end Sys2Proof.Machine
end

