-- ==== Sys2Proof/Machine/Dispatch.lean ====
section
/-! DEFINITION. One arm per operation of the opcode table. -/

namespace Sys2Proof.Machine

def exec (i : Instr) (s : State) : Host.Outcome State Fault Refusal :=
  match i with
  | .init => Sys2Proof.Machine.execInit s
  | .write a => Sys2Proof.Machine.execWrite a s
  | .read a => Sys2Proof.Machine.execRead a s
  | .beginTx a d => Sys2Proof.Machine.execBegin a d s
  | .endTx => Sys2Proof.Machine.execEnd s
  | .byteOut b => Sys2Proof.Machine.execByteOut b s
  | .byteIn l => Sys2Proof.Machine.execByteIn l s
  | .sdaLow => Sys2Proof.Machine.execSdaLow s
  | .sdaRel => Sys2Proof.Machine.execSdaRel s
  | .sdaSample => Sys2Proof.Machine.execSdaSample s
  | .delay => Sys2Proof.Machine.execDelay s
  | .sclLow => Sys2Proof.Machine.execSclLow s
  | .sclRel => Sys2Proof.Machine.execSclRel s
  | .sclSample => Sys2Proof.Machine.execSclSample s

end Sys2Proof.Machine
end

