-- ==== Sys2Proof/Machine/Sequencer.lean ====
section
/-! DEFINITION. The small-step form (43_public_commands.md R153, R154): one primitive of the command in progress, its other action, and the next position. -/

namespace Sys2Proof.Machine

/-- What follows the primitive at a position: another position of the same operation, or its end. -/
inductive NextPos where
  | more (k : BitVec 4) (u : BitVec 3)
  | done
deriving DecidableEq, Repr

/-- The primitive of `BYTE_OUT` at `(BITCNT, USTEP)` with its other action (41_byte_engine.md R112).
`byte` is read at the first position only. -/
def outPrimitive (byte : Byte) (k : BitVec 4) (u : BitVec 3) (s : State) : Option State :=
  if k.toNat ≤ 7 then
    match u.toNat with
    | 0 =>
      let s := if k.toNat = 0 then s.setShreg byte else s
      some (putSda s.shreg.msb s)
    | 1 => some (sclRel s)
    | 2 => some (delay s)
    | 3 => some ((sclLow s).setShreg (shiftOut s.shreg))
    | 4 => some (delay s)
    | _ => none
  else if k.toNat = 8 then
    match u.toNat with
    | 0 => some (sdaRel s)
    | 1 => some (sclRel s)
    | 2 => some (delay s)
    | 3 => some (latchAck s)
    | 4 => some (sclLow s)
    | 5 => some (sdaLow s)
    | 6 => some (delay s)
    | _ => none
  else none

/-- The position after `(BITCNT, USTEP)` in `BYTE_OUT`: five primitives in a data cell, seven in the
acknowledgment cell (R112). -/
def outNext (k : BitVec 4) (u : BitVec 3) : NextPos :=
  if k.toNat ≤ 7 then (if u.toNat < 4 then .more k (u + 1) else .more (k + 1) 0)
  else if u.toNat < 6 then .more k (u + 1) else .done

/-- The marker of the opening release of `BYTE_IN` (R27, R114, C12). -/
def openingMark : BitVec 4 := 15#4

/-- The primitive of `BYTE_IN` at `(BITCNT, USTEP)` with its other action (R114). -/
def inPrimitive (last : Bool) (k : BitVec 4) (u : BitVec 3) (s : State) : Option State :=
  if k = openingMark then
    match u.toNat with
    | 0 => some ((sdaRel s).setShreg 0)
    | _ => none
  else if k.toNat ≤ 7 then
    match u.toNat with
    | 0 => some (delay s)
    | 1 => some (sclRel s)
    | 2 => some (latchBit s)
    | 3 => some (delay s)
    | 4 => some (sclLow s)
    | _ => none
  else if k.toNat = 8 then
    match u.toNat with
    | 0 => some (putSda last s)
    | 1 => some (sclRel s)
    | 2 => some (delay s)
    | 3 => some (sclLow s)
    | 4 => some (sdaLow s)
    | 5 => some (delay s)
    | _ => none
  else none

/-- The position after `(BITCNT, USTEP)` in `BYTE_IN` (R114). -/
def inNext (k : BitVec 4) (u : BitVec 3) : NextPos :=
  if k = openingMark then .more 0 0
  else if k.toNat ≤ 7 then (if u.toNat < 4 then .more k (u + 1) else .more (k + 1) 0)
  else if u.toNat < 5 then .more k (u + 1) else .done

/-- The first four primitives of `BEGIN`, the START phase (42_framing.md R130). -/
def startPrimitive (u : BitVec 3) (s : State) : Option State :=
  match u.toNat with
  | 0 => some (sdaLow s)
  | 1 => some (delay s)
  | 2 => some (sclLow s)
  | 3 => some (delay s)
  | _ => none

/-- The three primitives of `END`, the STOP phase (R131). -/
def stopPrimitive (u : BitVec 3) (s : State) : Option State :=
  match u.toNat with
  | 0 => some (sclRel s)
  | 1 => some (delay s)
  | 2 => some (sdaRel s)
  | _ => none

/-- To the first position of a phase (R154). -/
def enterPhase (p : Phase) (s : State) : State := (s.setPhase p).setPos 0 0

/-- To STOP. This is the one abort of the block, in the place other machines take a trap (60_exceptions.md
R185): nothing is saved, no mode changes, no vector is taken. -/
def enterStop (s : State) : State := enterPhase .stop s

/-- To a byte of the DATA phase: a `BYTE_IN` opens at the marker (R154). -/
def enterData (d : Dir) (s : State) : State :=
  match d with
  | .write => enterPhase .data s
  | .read => (s.setPhase .data).setPos openingMark 0

/-- After the address byte (R153): DATA with `IDX = 0` if it was acknowledged and a byte is asked for,
else STOP. -/
def afterAddress (d : Dir) (s : State) : State :=
  match s.ackl with
  | .nack => enterStop s
  | .ack =>
    let s := s.setIdx 0
    if 0 < s.len then enterData d s else enterStop s

/-- After a byte that was transferred: the next byte, or STOP when the buffer is consumed (R153). -/
def nextByte (d : Dir) (s : State) : State :=
  let s := s.setIdx (s.idx + 1)
  if s.idx < s.len then enterData d s else enterStop s

/-- After a data byte (R153): a WRITE aborts on a NACK, a READ stores the byte (20_memory.md R64). -/
def afterData (d : Dir) (s : State) : State :=
  match d with
  | .write =>
    match s.ackl with
    | .nack => enterStop s
    | .ack => nextByte .write s
  | .read => nextByte .read s.storeByte

/-- The status from the registers at the end of STOP: `ACKL` is the last byte's acknowledgment in a WRITE
and the address's in a READ (R157). -/
def statusOf (d : Dir) (s : State) : Status :=
  match d with
  | .write => if 0 < s.len then readStatus s.ackl else .failure
  | .read => readStatus s.ackl

/-- After the last primitive of STOP (R154). -/
def afterStop (d : Dir) (s : State) : State :=
  finishTransfer (statusOf d s) (s.setPos 0 0)

/-- After a primitive: to the next position of its operation, or to what follows the operation. -/
def advance (next : NextPos) (after : State → State) (s : State) : State :=
  match next with
  | .more k u => s.setPos k u
  | .done => after s

/-- One primitive of a byte operation or framing step from `s`. Where the tables of R112, R114, R130, R131 give
none the master is stuck: the step performs nothing. No run reaches such a position (U26). DESIGN CHOICE, log 11. -/
def primitiveStep (done : Option State) (next : NextPos) (after : State → State) (s : State) : State :=
  match done with
  | none => s
  | some u => advance next after u

/-- The position after a primitive of a framing step of `n` primitives. -/
def framingNext (n : Nat) (k : BitVec 4) (u : BitVec 3) : NextPos :=
  if u.toNat + 1 < n then .more k (u + 1) else .done

/-- One primitive of a transfer (R154). In the DATA phase with `IDX` outside `0 .. LEN - 1` (R50) there is none:
stuck (log 11). -/
def transferStep (d : Dir) (a : Addr) (s : State) : State :=
  match s.phase with
  | .idle => s
  | .start =>
    primitiveStep (startPrimitive s.ustep s) (framingNext 4 s.bitcnt s.ustep) (enterPhase .address) s
  | .address =>
    primitiveStep (outPrimitive (addressByte a d) s.bitcnt s.ustep s) (outNext s.bitcnt s.ustep)
      (afterAddress d) s
  | .data =>
    if s.idx < s.len then
      match d with
      | .write =>
        primitiveStep (outPrimitive s.bufByte s.bitcnt s.ustep s) (outNext s.bitcnt s.ustep) (afterData .write) s
      | .read =>
        primitiveStep (inPrimitive s.isLast s.bitcnt s.ustep s) (inNext s.bitcnt s.ustep) (afterData .read) s
    else s
  | .stop =>
    primitiveStep (stopPrimitive s.ustep s) (framingNext 3 s.bitcnt s.ustep) (afterStop d) s

/-- One step of the busy master: the next primitive of an `INIT` in progress, or of the transfer `CW`
names (R154, R155). It is total: no step of the master waits on anything, faults or refuses (R154, R180). Busy
with nothing in progress, or in a transfer `CW` does not name, it is stuck (log 11). -/
def sequencerStep (s : State) : State :=
  match s.initAt with
  | .sdaRel => (sdaRel s).setInitAt .sclRel
  | .sclRel => finishInit (sclRel s)
  | .none =>
    match transferOf s.cw with
    | none => s
    | some (d, a) => transferStep d a s

end Sys2Proof.Machine
end

