-- ==== Sys2Proof/Machine/Issue.lean ====
section
/-! DEFINITION. The command interface: which presented word is accepted, and the act of acceptance (30_encoding.md R80; 43_public_commands.md R155; 70_reset_and_hazards.md R212, R215). -/

namespace Sys2Proof.Machine

/-- Whether the operation needs a completed `INIT` before it when the host issues it (R212, D11). -/
def needsInit : Instr → Bool
  | .write _ => true
  | .read _ => true
  | _ => false

/-- The operation a word presented while `BUSY = 0` is accepted as (R80, R155). A micro-program may name
an operation of any level (log 6); the host may issue the public ones, and WRITE and READ only after an
INIT has completed. -/
def screenWord (p : Presenter) (w : CmdWord) (inited : Bool) : Except Refusal Instr :=
  match decode w with
  | .error _ => .error (.reservedWord w)
  | .ok i =>
    match p with
    | .micro => .ok i
    | .call | .poll =>
      if hostIssuable i then
        if needsInit i && !inited then .error .beforeInit else .ok i
      else .error (.internalOperation w)

/-- The registers written by presenting a command: `CW`, and `LEN` and `BUF` for WRITE and READ (R155,
log 15). -/
def present (r : Request) (i : Instr) (s : State) : State :=
  let s := { s with cw := r.word }
  match i with
  | .write _ | .read _ => { s with len := r.bytes.length, buf := Memory.ofBytes 0 r.bytes }
  | _ => s

/-- The act of acceptance (R155): `BUSY <- 1` and, for WRITE and READ, `PHASE <- START`, `USTEP <- 0`; an
INIT leaves `PHASE` IDLE and starts at its first primitive. -/
def accept (i : Instr) (s : State) : State :=
  match i with
  | .init => (s.setInitAt .sdaRel).setBusy true
  | .write _ | .read _ => { s.setBusy true with phase := .start, ustep := 0 }
  | _ => s

end Sys2Proof.Machine
end

