-- ==== Sys2Proof/Machine/Step.lean ====
section
/-! DEFINITION. One step of the machine, and where it fetches its next instruction. -/

namespace Sys2Proof.Machine

/-- A command taken from the host's list while `BUSY = 0`: refused, run to its end, or, when the host
polls, accepted (R155). -/
def issue (r : Request) (s : State) : Result :=
  match screenWord r.presenter r.word s.inited with
  | .error e => .refused e
  | .ok i =>
    match r.presenter with
    | .poll => .next (accept i (present r i s))
    | _ => exec i (present r i s)

/-- One step. A busy master performs one primitive (R154), whatever the host has still to issue: a host
that keeps to R216 waits, and a word presented all the same is refused (R215). An idle master takes the
host's next command, and with none it does nothing (60_exceptions.md R193). -/
def step (s : State) : Host.Outcome State Fault Refusal :=
  match s.host with
  | [] => .next (if s.busy then sequencerStep s else s)
  | r :: rest =>
    if s.busy then
      if r.waits then .next (sequencerStep s) else .refused .busy
    else issue r { s with host := rest }

/-- The state with an instruction of the opcode table put where the next step takes one from: the head of
the list of moves, presented by a micro-program, with no command in progress. The buffer's `LEN` bytes are
presented with it, so that a WRITE or READ runs on the `LEN` and the bytes the state holds. The bits of the word
above its twelfth do not exist. Log 16. -/
def State.withFetchWord (s : State) (nbits w : Nat) : State :=
  { s with
    host := ⟨.micro, tableWord nbits w, s.buf.bytes s.len, false⟩ :: s.host
    busy := false
    phase := .idle
    initAt := .none }

end Sys2Proof.Machine
end

