-- ==== Sys2Proof/Machine/Trace.lean ====
section
/-! DEFINITION. Reading a trace (00_scope.md R10; 30_encoding.md R74 to R79, R84; 41_byte_engine.md R112, R114; 70_reset_and_hazards.md R224, R228): the terms claims use. The master never reads its trace. -/

namespace Sys2Proof.Machine

/-- The token of an event (R10); `SCL_SAMPLE` has none there and is written `S0`, `S1`. -/
def token : Event → String
  | .sdaLow => "d"
  | .sdaRel => "D"
  | .sclLow => "c"
  | .sclRel => "C"
  | .delay => "."
  | .sdaSample .low => "s0"
  | .sdaSample .high => "s1"
  | .sclSample .low => "S0"
  | .sclSample .high => "S1"

/-- A trace in the tokens of R10. -/
def tokens (t : List Event) : String := t.foldl (fun acc e => acc ++ token e) ""

/-- The wire symbols (30_encoding.md section 4, R84). -/
inductive WireSym where
  | start
  | stop
  | bit (v : Level)
deriving DecidableEq, Repr

/-- The reader's variables in R84. -/
structure SymReader where
  sda : Drive
  scl : Drive
  isOpen : Bool
  v : Level
  out : List WireSym
deriving DecidableEq, Repr

/-- The level the master drives: LOW if asserted, HIGH if released. -/
def drivenLevel : Drive → Level
  | .low => .low
  | .rel => .high

/-- The body of the loop of R84. Its case list has no row for `SCL_SAMPLE`, which no sequence of the block emits
(R96); a micro-program can have one performed (log 6), and the reader passes over it: DESIGN CHOICE, log 21. -/
def SymReader.read (r : SymReader) : Event → SymReader
  | .sdaLow =>
    let r := if r.scl = .rel ∧ r.sda = .rel then { r with out := r.out ++ [.start], isOpen := false } else r
    { r with sda := .low }
  | .sdaRel =>
    let r := if r.scl = .rel ∧ r.sda = .low then { r with out := r.out ++ [.stop], isOpen := false } else r
    { r with sda := .rel }
  | .sclRel =>
    let r := if r.scl = .low then { r with isOpen := true, v := drivenLevel r.sda } else r
    { r with scl := .rel }
  | .sdaSample x => if r.isOpen ∧ r.sda = .rel then { r with v := x } else r
  | .sclLow =>
    let r := if r.scl = .rel ∧ r.isOpen then { r with out := r.out ++ [.bit r.v], isOpen := false } else r
    { r with scl := .low }
  | .delay => r
  | .sclSample _ => r

/-- `Sym(T)` (R84), for a trace that starts from the idle line state. -/
def sym (t : List Event) : List WireSym := (t.foldl SymReader.read ⟨.rel, .rel, false, .high, []⟩).out

def isStop (y : WireSym) : Bool := y == .stop

def isStart (y : WireSym) : Bool := y == .start

/-- The bits of a symbol list, in order. -/
def isBit : WireSym → Bool
  | .bit _ => true
  | _ => false

/-- The clock pulses of a trace that starts from the idle line state (R228, D21): the high phases the
master opens and closes, which are the bits `Sym` reads. -/
def pulses (t : List Event) : Nat := (sym t).countP isBit

/-- The `DELAY`s of a trace (R224). -/
def delays (t : List Event) : Nat := t.count .delay

/-- The levels sampled on the data line, in order (10_state.md R36). -/
def samples (t : List Event) : List Level :=
  t.filterMap fun e =>
    match e with
    | .sdaSample v => some v
    | _ => none

/-! ### What an operation appends to the trace -/

/-- `PUT_SDA(b)`'s event (40_line_primitives.md R99). -/
def putEvent (b : Bool) : Event := if b then .sdaRel else .sdaLow

/-- The five events of a bit the master sends (R76). -/
def outCellEvents (b : Bool) : List Event := [putEvent b, .sclRel, .delay, .sclLow, .delay]

/-- The events of `BYTE_OUT(b)` up to the sample of its acknowledgment cell (R112). -/
def outHeadEvents (b : Byte) : List Event :=
  outCellEvents (b.getLsbD 7) ++ outCellEvents (b.getLsbD 6) ++ outCellEvents (b.getLsbD 5) ++
  outCellEvents (b.getLsbD 4) ++ outCellEvents (b.getLsbD 3) ++ outCellEvents (b.getLsbD 2) ++
  outCellEvents (b.getLsbD 1) ++ outCellEvents (b.getLsbD 0) ++ [.sdaRel, .sclRel, .delay]

/-- The token string of R112: `BYTE_OUT(b)` with sampled level `v`. -/
def outEvents (b : Byte) (v : Level) : List Event :=
  outHeadEvents b ++ [.sdaSample v, .sclLow, .sdaLow, .delay]

/-- The five events of a bit the master receives (R76). -/
def inCellEvents (v : Level) : List Event := [.delay, .sclRel, .sdaSample v, .delay, .sclLow]

/-- The token string of R114: `BYTE_IN(last)` with sampled levels `vs`. -/
def inEvents (last : Bool) (vs : List Level) : List Event :=
  [.sdaRel] ++ vs.flatMap inCellEvents ++ [putEvent last, .sclRel, .delay, .sclLow, .sdaLow, .delay]

/-- The token strings of R74 and R75. -/
def startEvents : List Event := [.sdaLow, .delay, .sclLow, .delay]

def stopEvents : List Event := [.sclRel, .delay, .sdaRel]

/-- The level that carries a bit (R8). -/
def levelOf (b : Bool) : Level := if b then .high else .low

/-- The eight levels that carry a byte, most significant bit first (20_memory.md R53). -/
def byteLevels (b : Byte) : List Level :=
  [levelOf (b.getLsbD 7), levelOf (b.getLsbD 6), levelOf (b.getLsbD 5), levelOf (b.getLsbD 4),
   levelOf (b.getLsbD 3), levelOf (b.getLsbD 2), levelOf (b.getLsbD 1), levelOf (b.getLsbD 0)]

/-- One byte frame on the wire: eight bits and the acknowledgment (30_encoding.md R78). -/
def frameSyms (b : Byte) (ninth : Level) : List WireSym := (byteLevels b ++ [ninth]).map .bit

end Sys2Proof.Machine
end

