-- ==== Sys2Proof/WellFormed.lean ====
section
/-! DEFINITION. What makes a command word well formed, read off the table of 30_encoding.md R80, and which words the host may present (R71, D22). -/

namespace Sys2Proof

/-- The opcodes of R71 are all but 0x3 and 0xF. -/
def opcodeAssigned (w : CmdWord) : Bool :=
  !(w.extractLsb' 8 4 == 0x3#4) && !(w.extractLsb' 8 4 == 0xF#4)

/-- `WRITE` and `READ` need `ARG[7] = 0` (R72, C9). -/
def addressInvariant (w : CmdWord) : Bool :=
  !((w.extractLsb' 8 4 == 0x1#4 || w.extractLsb' 8 4 == 0x2#4) && w.getLsbD 7)

/-- A word that R80 does not call reserved. -/
def wordWellFormed (w : CmdWord) : Bool :=
  opcodeAssigned w && addressInvariant w

/-- A well-formed word of the public operation surface: opcode 0x0, 0x1 or 0x2 (R71, R80). -/
def hostWordWellFormed (w : CmdWord) : Bool :=
  wordWellFormed w && (w.extractLsb' 8 4).toNat ≤ 2

end Sys2Proof
end

