-- ==== Sys2Proof/Safety.lean ====
section
/-! DEFINITION. What counts as a power-on state and as a legal state, in the terms claims use. -/

namespace Sys2Proof.Machine

/-- The idle line state: both lines released (00_scope.md R13). -/
def State.IdleLines (s : State) : Prop := s.sdaO = .rel ∧ s.sclO = .rel

/-- Both lines asserted: where `BEGIN` and every byte operation leave them (41_byte_engine.md R116). -/
def State.HeldLines (s : State) : Prop := s.sdaO = .low ∧ s.sclO = .low

/-- Every state power-on may leave (10_state.md R39, 70_reset_and_hazards.md R210): `PHASE = IDLE`,
`BUSY = 0`, an empty trace, no command pending; everything the spec calls unspecified is free here, the
line drivers included. `State.reset` is one of them. -/
structure State.PowerOn (s : State) : Prop where
  phase : s.phase = .idle
  busy : s.busy = false
  trace : s.trace = []
  host : s.host = []
  inited : s.inited = false
  initAt : s.initAt = .none
  buf : s.buf.wf = true

/-- The drivers at position `(k, u)` of a `BYTE_OUT` (R112, R116): the clock is released from the second to
the last primitive of a high phase, the data line is released for the acknowledgment. -/
def OutLines (k u : Nat) (sda scl : Drive) : Prop :=
  (k ≤ 7 ∧ u ≤ 4 ∧ scl = (if u = 2 ∨ u = 3 then .rel else .low) ∧ (k = 0 → u = 0 → sda = .low)) ∨
  (k = 8 ∧ u ≤ 6 ∧ scl = (if u = 2 ∨ u = 3 ∨ u = 4 then .rel else .low) ∧
    (1 ≤ u → u ≤ 5 → sda = .rel) ∧ (u = 6 → sda = .low))

/-- The drivers at position `(k, u)` of a `BYTE_IN` (R114, R116); in the acknowledgment cell the data line is
where the master's ACK or NACK put it. -/
def InLines (last : Bool) (k u : Nat) (sda scl : Drive) : Prop :=
  (k = 15 ∧ u = 0 ∧ sda = .low ∧ scl = .low) ∨
  (k ≤ 7 ∧ u ≤ 4 ∧ sda = .rel ∧ scl = (if u = 2 ∨ u = 3 ∨ u = 4 then .rel else .low)) ∨
  (k = 8 ∧ u ≤ 5 ∧ scl = (if u = 2 ∨ u = 3 then .rel else .low) ∧ (u = 0 → sda = .rel) ∧
    (1 ≤ u → u ≤ 4 → sda = (if last then .rel else .low)) ∧ (u = 5 → sda = .low))

/-- The drivers in the START phase (42_framing.md R130). -/
def StartLines (u : Nat) (sda scl : Drive) : Prop :=
  (u = 0 ∧ sda = .rel ∧ scl = .rel) ∨ ((u = 1 ∨ u = 2) ∧ sda = .low ∧ scl = .rel) ∨
  (u = 3 ∧ sda = .low ∧ scl = .low)

/-- The drivers in the STOP phase (R131). -/
def StopLines (u : Nat) (sda scl : Drive) : Prop :=
  (u = 0 ∧ sda = .low ∧ scl = .low) ∨ ((u = 1 ∨ u = 2) ∧ sda = .low ∧ scl = .rel)

/-- The position is one of the tables, `IDX` is inside the buffer, and the drivers are where the sequence
up to that position puts them. -/
def State.LegalPosition (s : State) (d : Dir) : Prop :=
  match s.phase with
  | .idle => True
  | .start => StartLines s.ustep.toNat s.sdaO s.sclO
  | .address => OutLines s.bitcnt.toNat s.ustep.toNat s.sdaO s.sclO
  | .data =>
    s.idx < s.len ∧
    match d with
    | .write => OutLines s.bitcnt.toNat s.ustep.toNat s.sdaO s.sclO
    | .read => InLines s.isLast s.bitcnt.toNat s.ustep.toNat s.sdaO s.sclO
  | .stop => StopLines s.ustep.toNat s.sdaO s.sclO

/-- The last primitive of a data byte: "the operation returns ... after this step" (R112, R114). -/
def State.AtByteEnd (s : State) (d : Dir) : Prop :=
  s.bitcnt = 8#4 ∧ s.ustep = (match d with
    | .write => 6#3
    | .read => 5#3)

/-- What holds between any two steps of the block under a host: the buffer is canonical; `BUSY` is 1
exactly while a transfer or an `INIT` is in progress (R34); a transfer is one `CW` names, was issued after
an `INIT`, and stands at a legal position; an idle block that has been initialised has its lines released
(43_public_commands.md R158). The coming moves are the host's, none a micro-program's (log 6). -/
structure State.Inv (s : State) : Prop where
  buf : s.buf.wf = true
  busy : s.busy = true ↔ s.phase ≠ .idle ∨ s.initAt ≠ .none
  initIdle : s.initAt ≠ .none → s.phase = .idle
  initReleased : s.initAt = .sclRel → s.sdaO = .rel
  transfer : s.phase ≠ .idle →
    s.inited = true ∧ ∃ d a, transferOf s.cw = some (d, a) ∧ s.LegalPosition d
  idle : s.busy = false → s.inited = true → s.IdleLines
  moves : ∀ r ∈ s.host, r.presenter ≠ .micro

/-- The levels sampled, `asked`, are the answers the environment had listed, `given`, as far as both go;
past the end of `given` a sampled level is free (log 4). -/
def Answered (asked given : List Level) : Prop := asked.take given.length = given.take asked.length

/-- The acknowledgments a WRITE of `n` bytes may sample in its DATA phase: all of them ACK, or ACKs and then
the NACK that ends it (R151). -/
def WriteAcks (n : Nat) (vs : List Level) : Prop :=
  vs = List.replicate n .low ∨ ∃ j, j < n ∧ vs = List.replicate j .low ++ [.high]

/-- The events of the DATA phase of a WRITE: byte `i` of the buffer with the acknowledgment sampled. -/
def writeDataEvents (buf : Memory) (vs : List Level) : List Event :=
  vs.zipIdx.flatMap fun p => outEvents (buf.read p.2) p.1

/-- The events of the DATA phase of a READ of `n` bytes: the master's NACK on the last one only (R152). -/
def readDataEvents (n : Nat) (bytes : List Byte) : List Event :=
  bytes.zipIdx.flatMap fun p => inEvents (decide (p.2 + 1 = n)) (byteLevels p.1)

/-- The drivers after a list of events, from the drivers before it. -/
def driversAfter (x : Drive × Drive) (t : List Event) : Drive × Drive :=
  t.foldl (fun x e =>
    match e with
    | .sdaLow => (.low, x.2)
    | .sdaRel => (.rel, x.2)
    | .sclLow => (x.1, .low)
    | .sclRel => (x.1, .rel)
    | _ => x) x

end Sys2Proof.Machine
end

