-- ==== Sys2Proof/Certificates/Slice0/Obligations.lean ====
section
/-! DEFINITION. The statements for the provers. Each docstring names the rules of spec/ it formalises; a clause that rests on the model's own choice names the log entry. -/

open Sys2Proof Sys2Proof.Machine

/-! ### Reset and boot -/

/-- 10_state.md R39, 70_reset_and_hazards.md R210: after power-on `PHASE = IDLE`, `BUSY = 0`, `TRACE` is empty,
no command is pending; and `State.reset`, whose other registers are the values of log 2 and 3 (the model's
choice), is one such state. -/
def Obligations.ResetIsAPowerOnState : Prop := State.reset.PowerOn

/-- Every power-on state meets the invariant, whatever the registers the spec leaves unspecified hold; so
does `State.reset`. -/
def Obligations.PowerOnStatesMeetTheInvariant : Prop :=
  State.reset.Inv ∧ ∀ s : State, s.PowerOn → s.Inv

/-- R212, R39: from every power-on state, in a blocking call, the host's WRITE or READ as the first command is
refused; `INIT` as the first command runs and leaves the idle line state and `PHASE = IDLE`; and then a
WRITE or READ is accepted and completes. (The list of moves is the model's rendering of the host, log 8.) -/
def Obligations.FirstCommandMustBeInit : Prop :=
  ∀ (s : State) (a : Addr) (bs : List Byte) (q : Bool) (rest : List Request), s.PowerOn →
    step { s with host := ⟨.call, encode (.write a), bs, q⟩ :: rest } = .refused .beforeInit ∧
    step { s with host := ⟨.call, encode (.read a), bs, q⟩ :: rest } = .refused .beforeInit ∧
    ∃ t, step { s with host := ⟨.call, encode .init, bs, q⟩ :: rest } = .next t ∧
      t.IdleLines ∧ t.phase = .idle ∧ t.busy = false ∧ t.host = rest ∧
      (∃ u, step { t with host := [⟨.call, encode (.write a), bs, q⟩] } = .next u ∧ u.IdleLines) ∧
      (∃ u, step { t with host := [⟨.call, encode (.read a), bs, q⟩] } = .next u ∧ u.IdleLines)

/-! ### Encoding -/

/-- 30_encoding.md R71, R72: decoding an encoded instruction gives it back, with every operand at every
value the encoding admits. -/
def Obligations.DecodeOfEncodeIsTheInstruction : Prop := ∀ i : Instr, decode (encode i) = .ok i

/-- R80, R72: the decoder answers exactly on the words that are not reserved, and two words with one meaning
differ in ignored bits only: `ARG` of the operations without operand and `ARG[7:1]` of `BYTE_IN`. -/
def Obligations.DecodeRefusesExactlyReservedWords : Prop :=
  (∀ w : CmdWord, (∃ i, decode w = .ok i) ↔ wordWellFormed w = true) ∧
  (∀ (w : CmdWord) (i : Instr), decode w = .ok i →
    (w &&& 0xF00#12) = (encode i &&& 0xF00#12) ∧
    (((∃ a, i = .write a ∨ i = .read a) ∨ (∃ a d, i = .beginTx a d) ∨ (∃ b, i = .byteOut b)) →
      w = encode i) ∧
    (∀ l, i = .byteIn l → (w &&& 0xF01#12) = (encode i &&& 0xF01#12)))

/-- spec/opcode_table.json, R71: a word's decoding names the one table row whose fixed bits the word has, no
word has two rows, and a word with no row is refused. -/
def Obligations.DecodeAgreesWithTheOpcodeTable : Prop :=
  ∀ w : CmdWord, rowsOf w = (match decode w with
    | .ok i => [mnemonic i]
    | .error _ => [])

/-- Words written out bit by bit from R71 and R72 (vectors V70 to V92 of 95_test_vectors.md). -/
def Obligations.SampleWordsDecode : Prop :=
  decode 0b000000000000#12 = .ok .init ∧
  decode 0b000101010000#12 = .ok (.write 0x50#7) ∧
  decode 0b001001010000#12 = .ok (.read 0x50#7) ∧
  decode 0b010010100001#12 = .ok (.beginTx 0x50#7 .read) ∧
  decode 0b010100000000#12 = .ok .endTx ∧
  decode 0b011010100101#12 = .ok (.byteOut 0xA5#8) ∧
  decode 0b011111111110#12 = .ok (.byteIn false) ∧
  decode 0b100000000000#12 = .ok .sdaLow ∧
  decode 0b101000000000#12 = .ok .sdaSample ∧
  decode 0b111000000000#12 = .ok .sclSample ∧
  decode 0b000111010000#12 = .error .addressTopBit ∧
  decode 0b001100000000#12 = .error .reservedOpcode

/-- 42_framing.md R133 (and 30_encoding.md R73): the address byte is the address shifted left by one with the
direction in bit 0; no bit is lost and the OR never collides; it is even for WRITE and odd for READ; its two
parts are recovered by a shift and a mask; the map is a bijection onto all 256 bytes; 0x50 gives 0xA0 and
0xA1. -/
def Obligations.AddressByteIsABijection : Prop :=
  (∀ (a : Addr) (d : Dir),
    addressByte a d = ((a.setWidth 8 <<< 1) ||| d.bit.setWidth 8) ∧
    (a.setWidth 8 <<< 1) >>> 1 = (a.setWidth 8 : Byte) ∧
    ((a.setWidth 8 <<< 1) &&& d.bit.setWidth 8) = (0 : Byte) ∧
    ((addressByte a d).toNat % 2 = 0 ↔ d = .write) ∧
    ((addressByte a d).toNat % 2 = 1 ↔ d = .read) ∧
    addressByte a d >>> 1 = a.setWidth 8 ∧
    (addressByte a d &&& 1#8) = d.bit.setWidth 8) ∧
  (∀ (a a' : Addr) (d d' : Dir), addressByte a d = addressByte a' d' → a = a' ∧ d = d') ∧
  (∀ b : Byte, ∃ (a : Addr) (d : Dir), addressByte a d = b) ∧
  addressByte 0x50#7 .write = 0xA0#8 ∧ addressByte 0x50#7 .read = 0xA1#8

/-- R73: the first byte of every transaction is the address shifted left by one with the direction in bit 0; after
the start condition the master puts the address's bit 6 on the wire first and the direction bit eighth. -/
def Obligations.FirstByteOnTheWireIsTheAddressByte : Prop :=
  (∀ (a : Addr) (d : Dir),
    addressByte a d = ((a.setWidth 8 <<< 1) ||| d.bit.setWidth 8) ∧
    (addressByte a d).extractLsb' 1 7 = a ∧
    ((addressByte a d).getLsbD 0 = true ↔ d = .read) ∧
    ∀ (i : Instr) (s : State), (d = .write ∧ i = .write a) ∨ (d = .read ∧ i = .read a) →
      ∃ t es more, exec i s = .next t ∧ t.trace = s.trace ++ es ∧
        sym es = .start :: ([a.getLsbD 6, a.getLsbD 5, a.getLsbD 4, a.getLsbD 3, a.getLsbD 2, a.getLsbD 1,
          a.getLsbD 0, decide (d = .read)].map fun b => WireSym.bit (levelOf b)) ++ more) ∧
  addressByte 0x50#7 .write = 0xA0#8 ∧ addressByte 0x50#7 .read = 0xA1#8 ∧
  addressByte 0x00#7 .write = 0x00#8 ∧ addressByte 0x7F#7 .read = 0xFF#8 ∧
  addressByte 0x76#7 .read = 0xED#8 ∧ addressByte 0x3E#7 .write = 0x7C#8

/-- R72: `BEGIN`'s `ARG` equals the address-phase byte. -/
def Obligations.BeginArgumentIsTheAddressByte : Prop :=
  ∀ (a : Addr) (d : Dir), argField (encode (.beginTx a d)) = addressByte a d

/-! ### The buffer -/

/-- 20_memory.md R50, 00_scope.md R9: a byte written is read back, every other index reads as before, and the
canonical form is kept, by a write and by a buffer the host presents, which reads as its bytes. -/
def Obligations.BufferReadsWhatWasWritten : Prop :=
  (∀ (m : Memory) (a : Nat) (v : Byte), m.wf = true →
    (m.write a v).wf = true ∧ ∀ x, (m.write a v).read x = if x = a then v else m.read x) ∧
  (∀ bs : List Byte, (Memory.ofBytes 0 bs).wf = true ∧ (Memory.ofBytes 0 bs).bytes bs.length = bs)

/-- Two canonical buffers that read alike everywhere are the same data (the model's form, log 3). -/
def Obligations.CanonicalBuffersAreEqualWhenTheyReadAlike : Prop :=
  ∀ m m' : Memory, m.wf = true → m'.wf = true → (∀ x, m.read x = m'.read x) → m = m'

/-! ### Line primitives (level L0) -/

/-- 40_line_primitives.md R91, R92, R23: `SDA_LOW` and `SDA_REL` write `SDA_O` and append their event, whether
or not the line changes, and change nothing else; a line asserted is LOW whatever the others do, a line
released is what they make it. -/
def Obligations.DataLinePrimitivesDriveSda : Prop :=
  (∀ s : State,
    exec .sdaLow s = .next { s with sdaO := .low, trace := s.trace ++ [.sdaLow] } ∧
    exec .sdaRel s = .next { s with sdaO := .rel, trace := s.trace ++ [.sdaRel] }) ∧
  ∀ others : Level, lineLevel .low others = .low ∧ lineLevel .rel others = others

/-- R94, R95: `SCL_LOW` and `SCL_REL`, with whatever bits in `ARG`, write `SCL_O`, append their event and change
nothing else, whether or not the line was already so; the master does not check the line, and while it releases
it the line is what the others make it. -/
def Obligations.ClockLinePrimitivesDriveScl : Prop :=
  (∀ s : State,
    exec .sclLow s = .next { s with sclO := .low, trace := s.trace ++ [.sclLow] } ∧
    exec .sclRel s = .next { s with sclO := .rel, trace := s.trace ++ [.sclRel] }) ∧
  (∀ arg : Byte, decode (0xC#4 ++ arg) = .ok .sclLow ∧ decode (0xD#4 ++ arg) = .ok .sclRel) ∧
  ∀ others : Level, lineLevel .low others = .low ∧ lineLevel .rel others = others

/-- R97: `DELAY` appends its event and nothing else. -/
def Obligations.DelayIsOnlyAnEvent : Prop :=
  ∀ s : State, exec .delay s = .next { s with trace := s.trace ++ [.delay] }

/-- R93, R38: `SDA_SAMPLE` reads LOW while the master asserts the line and then asks nobody; with the line
released it reads the environment's next answer (any level where none is listed, log 4); it records the
level and changes no register. -/
def Obligations.SdaSampleReadsTheWiredAnd : Prop :=
  ∀ s : State,
    (s.sdaO = .low → exec .sdaSample s = .next { s with trace := s.trace ++ [.sdaSample .low] }) ∧
    (s.sdaO = .rel → ∃ v, Answered [v] s.sdaIn ∧
      exec .sdaSample s =
        .next { s with sdaIn := s.sdaIn.drop 1, trace := s.trace ++ [.sdaSample v] })

/-- R96: the same for `SCL_SAMPLE` and the clock line, whose answers are the model's own field (log 5). -/
def Obligations.SclSampleReadsTheWiredAnd : Prop :=
  ∀ s : State,
    (s.sclO = .low → exec .sclSample s = .next { s with trace := s.trace ++ [.sclSample .low] }) ∧
    (s.sclO = .rel → ∃ v, Answered [v] s.sclIn ∧
      exec .sclSample s =
        .next { s with sclIn := s.sclIn.drop 1, trace := s.trace ++ [.sclSample v] })

/-! ### The byte engine (level L1) -/

/-- 41_byte_engine.md R111: `BYTE_OUT` (opcode 0x6, `ARG` the byte), from every state and for every byte,
completes; it appends the 47 events of the rule for the byte and the level `v` sampled in the acknowledgment
cell, ends with both lines asserted, `SHREG = 0x00`, `ACKL` = ACK iff `v` is LOW, and changes nothing else but
`BITCNT` and `USTEP`. -/
def Obligations.ByteOutSendsTheByteAndLatchesTheAck : Prop :=
  ∀ (b : Byte) (s : State), decode (0x6#4 ++ b) = .ok (.byteOut b) ∧
    ∃ (v : Level) (k : BitVec 4) (u : BitVec 3), Answered [v] s.sdaIn ∧
    exec (.byteOut b) s = .next { s with
      sdaO := .low
      sclO := .low
      bitcnt := k
      ustep := u
      shreg := 0x00#8
      ackl := (match v with
        | .low => .ack
        | .high => .nack)
      sdaIn := s.sdaIn.drop 1
      trace := s.trace ++ outEvents b v }

/-- R113 (C8): `BYTE_IN` (opcode 0x7, `ARG[0]` the operand), from every state and for both operands, completes;
it samples eight levels, the first of which is bit 7 of the result left in `SHREG`; it appends the 47 events of
the rule, with the master's ACK (asserted) iff the byte is not the last; it ends with both lines asserted; `ACKL`
and everything else but `BITCNT` and `USTEP` are unchanged. -/
def Obligations.ByteInReceivesTheByteAndDrivesTheAck : Prop :=
  (∀ arg : Byte, decode (0x7#4 ++ arg) = .ok (.byteIn (arg.getLsbD 0))) ∧
  ∀ (last : Bool) (s : State), ∃ (r : Byte) (k : BitVec 4) (u : BitVec 3), Answered (byteLevels r) s.sdaIn ∧
    exec (.byteIn last) s = .next { s with
      sdaO := .low
      sclO := .low
      bitcnt := k
      ustep := u
      shreg := r
      sdaIn := s.sdaIn.drop 8
      trace := s.trace ++ (.sdaRel :: (byteLevels r).flatMap inCellEvents ++
        [if last then .sdaRel else .sdaLow, .sclRel, .delay, .sclLow, .sdaLow, .delay]) }

/-- 41_byte_engine.md R117 (a) to (d): after `k` shifts bit 7 is `b[7-k]`; after eight the register is 0; after
eight shifts in, bit `7-k` is the k-th level whatever the register held; and `BYTE_IN` fed a byte's levels
returns that byte. -/
def Obligations.ShiftRegisterCarriesTheByte : Prop :=
  (∀ (b : Byte) (k : Nat), k ≤ 7 → (shiftOut^[k] b).msb = b.getLsbD (7 - k)) ∧
  (∀ b : Byte, shiftOut^[8] b = 0#8) ∧
  (∀ (b : Byte) (vs : List Level) (k : Nat) (hk : k < vs.length), vs.length = 8 →
    levelOf ((vs.foldl shiftIn b).getLsbD (7 - k)) = vs[k]) ∧
  (∀ (b : Byte) (last : Bool) (s : State) (rest : List Level), s.sdaIn = byteLevels b ++ rest →
    ∃ t, exec (.byteIn last) s = .next t ∧ t.shreg = b ∧ t.sdaIn = rest)

/-- R116, R132 (a): inside a byte operation entered with the clock asserted the master changes the data line
only while the clock is asserted, so the operation makes no start or stop condition; it ends with both lines
asserted, by `SCL_LOW`, `SDA_LOW`, `DELAY`. -/
def Obligations.ByteOperationsMoveDataOnlyWhileClockIsLow : Prop :=
  ∀ (i : Instr) (s : State), ((∃ b, i = .byteOut b) ∨ (∃ l, i = .byteIn l)) → s.sclO = .low →
    ∃ t es, exec i s = .next t ∧ t.HeldLines ∧
      t.trace = s.trace ++ es ++ [.sclLow, .sdaLow, .delay] ∧
      ∀ pre e post, es ++ [.sclLow, .sdaLow, .delay] = pre ++ e :: post →
        (driversAfter (s.sdaO, s.sclO) (pre ++ [e])).1 ≠ (driversAfter (s.sdaO, s.sclO) pre).1 →
        (driversAfter (s.sdaO, s.sclO) pre).2 = .low

/-- 30_encoding.md R78, 41_byte_engine.md R110: a byte operation is 47 events, 18 of them `DELAY`, 9 `SCL_REL`
and 9 `SCL_LOW`, whatever is on the wire. -/
def Obligations.ByteOperationsAreFortySevenEvents : Prop :=
  ∀ (i : Instr) (s : State), ((∃ b, i = .byteOut b) ∨ (∃ l, i = .byteIn l)) →
    ∃ t es, exec i s = .next t ∧ t.trace = s.trace ++ es ∧ es.length = 47 ∧
      es.count .delay = 18 ∧ es.count .sclRel = 9 ∧ es.count .sclLow = 9

/-! ### Framing (level L2) -/

/-- 42_framing.md R130: `BEGIN`, from every state, completes: the start condition with its two holds, then
`BYTE_OUT` of the address byte, whose acknowledgment is in `ACKL`; it neither checks nor establishes the lines
it starts from. (`PHASE` is not its own: the model's reading, log 13. `BITCNT`, `USTEP`: log 12.) -/
def Obligations.BeginSendsStartAndAddressByte : Prop :=
  ∀ (a : Addr) (d : Dir) (s : State), ∃ v, Answered [v] s.sdaIn ∧
    exec (.beginTx a d) s = .next { s with
      sdaO := .low
      sclO := .low
      bitcnt := 0
      ustep := 0
      shreg := 0x00#8
      ackl := (match v with
        | .low => .ack
        | .high => .nack)
      sdaIn := s.sdaIn.drop 1
      trace := s.trace ++ ([.sdaLow, .delay, .sclLow, .delay] ++ outEvents (a ++ d.bit) v) }

/-- R131: `END`, from every state, completes: clock released, one hold, data line released, no hold after; both
lines end released. (`BITCNT`, `USTEP`: log 12.) -/
def Obligations.EndEmitsTheStopCondition : Prop :=
  ∀ s : State, exec .endTx s = .next { s with
    sdaO := .rel
    sclO := .rel
    bitcnt := 0
    ustep := 0
    trace := s.trace ++ [.sclRel, .delay, .sdaRel] }

/-- 30_encoding.md R74, R75, R84 (D24): from the idle line state `BEGIN`'s trace reads as one START and one byte
frame, and `END`'s, from the lines held low, as one STOP with no further bit. -/
def Obligations.FramingReadsAsStartAndStop : Prop :=
  (∀ (a : Addr) (d : Dir) (s : State), ∃ t es v, exec (.beginTx a d) s = .next t ∧
    t.trace = s.trace ++ es ∧ sym es = .start :: frameSyms (a ++ d.bit) v) ∧
  (∀ (s t : State) (r : SymReader), r.sda = .low → r.scl = .low → exec .endTx s = .next t →
    ∃ es, t.trace = s.trace ++ es ∧ (es.foldl SymReader.read r).out = r.out ++ [.stop])

/-! ### Public commands (level L3) -/

/-- 43_public_commands.md R150: `INIT`, from every state, completes: both lines released, the data line first,
two events, no `DELAY`; `PHASE`, `STATUS`, `ACKL`, `SHREG`, `BUF` and every other register unchanged. (`inited`
and `initAt` are the model's own fields, log 9 and 10.) -/
def Obligations.InitReleasesBothLines : Prop :=
  ∀ s : State, exec .init s = .next { s with
    sdaO := .rel
    sclO := .rel
    busy := false
    inited := true
    initAt := .none
    trace := s.trace ++ [.sdaRel, .sclRel] }

/-- R151 and its table, 60_exceptions.md R185, for every state, address and behaviour of the environment: a
WRITE completes, having sent the address byte and, if that was acknowledged, the buffer's bytes in order up to
the first one not acknowledged, then the stop condition, once; SUCCESS iff the buffer is not empty and every
byte was acknowledged; lines released, `PHASE = IDLE`, `BUSY = 0`; `ACKL` is the last byte's acknowledgment;
`SHREG` is 0x00 and `IDX` the number of data bytes acknowledged, or unchanged when the address was not; `BUF`,
`LEN`, `CW`, the clock line's answers and the model's own fields unchanged. (`BITCNT` and `USTEP` at 0, `IDX`
unchanged: the model's reading of registers R26 gives no meaning once idle, log 12 and 13.) -/
def Obligations.WriteSendsBytesUntilTheFirstNack : Prop :=
  ∀ (a : Addr) (s : State), ∃ (v : Level) (vs : List Level) (t : State),
    exec (.write a) s = .next t ∧
    Answered (v :: vs) s.sdaIn ∧ t.sdaIn = s.sdaIn.drop (1 + vs.length) ∧
    (v = .high → vs = []) ∧ (v = .low → WriteAcks s.len vs) ∧
    t.trace = s.trace ++ ([.sdaLow, .delay, .sclLow, .delay] ++ outEvents (a ++ 0#1) v ++
      writeDataEvents s.buf vs ++ [.sclRel, .delay, .sdaRel]) ∧
    (t.status = .success ↔ v = .low ∧ 0 < s.len ∧ vs = List.replicate s.len .low) ∧
    (t.ackl = .ack ↔ (v :: vs).getLast (by simp) = .low) ∧
    t.IdleLines ∧ t.phase = .idle ∧ t.busy = false ∧ t.shreg = 0x00#8 ∧
    (v = .high → t.idx = s.idx) ∧ (v = .low → t.idx = vs.count .low) ∧ t.bitcnt = 0 ∧ t.ustep = 0 ∧
    t.cw = s.cw ∧ t.len = s.len ∧ t.buf = s.buf ∧ (∀ x, t.buf.read x = s.buf.read x) ∧
    t.inited = s.inited ∧ t.initAt = s.initAt ∧ t.host = s.host ∧ t.sclIn = s.sclIn

/-- R152 and its table, for every state with a canonical buffer, every address and behaviour of the
environment: a READ completes, having sent the address byte; if that was not acknowledged the buffer is left
unmodified and the status is FAILURE; else all `LEN` bytes are received and stored in order, the master's NACK
on the last one only, and the status is SUCCESS whatever the data; then the stop condition, once. Bytes outside
`0 .. LEN - 1` read as before; `ACKL` is the address's acknowledgment; `SHREG` is the last byte received, 0x00 when
none was; `IDX` is `LEN`, or unchanged when the address was not acknowledged; `LEN`, `CW`, the clock line's answers
and the model's own fields unchanged. (`BITCNT` and `USTEP` at 0, `IDX` unchanged: the model's reading of registers
R26 gives no meaning once idle, log 12 and 13.) -/
def Obligations.ReadFillsTheBufferInOrder : Prop :=
  ∀ (a : Addr) (s : State), s.buf.wf = true → ∃ (v : Level) (bs : List Byte) (t : State),
    exec (.read a) s = .next t ∧
    Answered (v :: bs.flatMap byteLevels) s.sdaIn ∧ t.sdaIn = s.sdaIn.drop (1 + 8 * bs.length) ∧
    (v = .high → bs = [] ∧ t.buf = s.buf) ∧ (v = .low → bs.length = s.len) ∧
    t.trace = s.trace ++ ([.sdaLow, .delay, .sclLow, .delay] ++ outEvents (a ++ 1#1) v ++
      readDataEvents s.len bs ++ [.sclRel, .delay, .sdaRel]) ∧
    (∀ x, t.buf.read x = bs.getD x (s.buf.read x)) ∧ (∀ x, s.len ≤ x → t.buf.read x = s.buf.read x) ∧
    t.buf.wf = true ∧
    (t.status = .success ↔ v = .low) ∧ (t.ackl = .ack ↔ v = .low) ∧
    t.IdleLines ∧ t.phase = .idle ∧ t.busy = false ∧ t.shreg = bs.getLast?.getD 0x00#8 ∧
    (v = .high → t.idx = s.idx) ∧ (v = .low → t.idx = s.len) ∧ t.bitcnt = 0 ∧ t.ustep = 0 ∧
    t.cw = s.cw ∧ t.len = s.len ∧
    t.inited = s.inited ∧ t.initAt = s.initAt ∧ t.host = s.host ∧ t.sclIn = s.sclIn

/-- 43_public_commands.md R157, row by row, with the acknowledgments the environment lists: 54 events are a
transaction with no data byte, and each data byte adds 47, so that a WRITE whose byte `j` is not acknowledged sends
`j + 1` data bytes. The row of the empty WRITE is the spec's own decision D7 (90_conflicts.md C2, log 14). -/
def Obligations.StatusFollowsThePolicyTable : Prop :=
  ∀ (a : Addr) (s : State) (rest : List Level),
    (s.sdaIn = .high :: rest → ∃ t es, exec (.write a) s = .next t ∧ t.status = .failure ∧
      t.trace = s.trace ++ es ∧ es.length = 54) ∧
    (s.len = 0 → s.sdaIn = .low :: rest → ∃ t es, exec (.write a) s = .next t ∧ t.status = .failure ∧
      t.trace = s.trace ++ es ∧ es.length = 54) ∧
    (1 ≤ s.len → s.sdaIn = .low :: (List.replicate s.len .low ++ rest) →
      ∃ t es, exec (.write a) s = .next t ∧ t.status = .success ∧
        t.trace = s.trace ++ es ∧ es.length = 54 + 47 * s.len) ∧
    (∀ j, j < s.len → s.sdaIn = .low :: (List.replicate j .low ++ .high :: rest) →
      ∃ t es, exec (.write a) s = .next t ∧ t.status = .failure ∧
        t.trace = s.trace ++ es ∧ es.length = 54 + 47 * (j + 1)) ∧
    (s.sdaIn = .high :: rest → ∃ t es, exec (.read a) s = .next t ∧ t.status = .failure ∧ t.buf = s.buf ∧
      t.trace = s.trace ++ es ∧ es.length = 54) ∧
    (s.len = 0 → s.sdaIn = .low :: rest → ∃ t es, exec (.read a) s = .next t ∧ t.status = .success ∧
      t.buf = s.buf ∧ t.trace = s.trace ++ es ∧ es.length = 54) ∧
    (1 ≤ s.len → s.sdaIn = .low :: rest → ∃ t es, exec (.read a) s = .next t ∧ t.status = .success ∧
      t.trace = s.trace ++ es ∧ es.length = 54 + 47 * s.len) ∧
    (∃ t, exec .init s = .next t ∧ t.status = s.status)

/-- R151 corner cases (a), (b), (f), 60_exceptions.md R184: with `j < LEN` data bytes acknowledged and byte `j`
not, the WRITE sends bytes 0 to `j` in full and no later byte, and gives FAILURE, `j = LEN - 1` included. -/
def Obligations.WriteAbortsAtTheFirstNack : Prop :=
  ∀ (a : Addr) (s : State) (rest : List Level) (j : Nat), j < s.len →
    s.sdaIn = .low :: (List.replicate j .low ++ .high :: rest) →
    ∃ t, exec (.write a) s = .next t ∧ t.status = .failure ∧ t.sdaIn = rest ∧
      t.trace = s.trace ++ (startEvents ++ outEvents (addressByte a .write) .low ++
        (List.range j).flatMap (fun i => outEvents (s.buf.read i) .low) ++
        outEvents (s.buf.read j) .high ++ stopEvents)

/-- 43_public_commands.md R156, 70_reset_and_hazards.md R224, R228, A2: an INIT is 2 events; a WRITE or READ that
moves `m` bytes after the address byte is `54 + 47m` events with `21 + 18m` `DELAY`s and `9(m + 1)` clock pulses. The
`m` is read off the levels sampled: none when the address is not acknowledged; in a WRITE one for each
acknowledgment sampled after the address's, up to the first NACK; in a READ all `LEN`, eight samples each. -/
def Obligations.EventDelayAndPulseCounts : Prop :=
  (∀ s, ∃ t es, exec .init s = .next t ∧ t.trace = s.trace ++ es ∧ es.length = 2 ∧ delays es = 0) ∧
  ∀ (a : Addr) (s : State),
    (∃ (t : State) (es : List Event) (v : Level) (vs : List Level),
      exec (.write a) s = .next t ∧ t.trace = s.trace ++ es ∧ samples es = v :: vs ∧
      (v = .high → vs = []) ∧ (v = .low → WriteAcks s.len vs) ∧
      es.length = 54 + 47 * vs.length ∧ delays es = 21 + 18 * vs.length ∧ pulses es = 9 * (vs.length + 1)) ∧
    (∃ (t : State) (es : List Event) (v : Level) (vs : List Level) (m : Nat),
      exec (.read a) s = .next t ∧ t.trace = s.trace ++ es ∧ samples es = v :: vs ∧ vs.length = 8 * m ∧
      (v = .high → m = 0) ∧ (v = .low → m = s.len) ∧
      es.length = 54 + 47 * m ∧ delays es = 21 + 18 * m ∧ pulses es = 9 * (m + 1))

/-- 30_encoding.md R79, R84, A3: the trace of a WRITE reads as START, the address frame, one frame for each data
byte sent, STOP: exactly one START and one STOP, the STOP last. -/
def Obligations.WriteTraceReadsAsOneFrame : Prop :=
  ∀ (a : Addr) (s : State), ∃ (v : Level) (vs : List Level) (t : State) (es : List Event),
    exec (.write a) s = .next t ∧ t.trace = s.trace ++ es ∧ vs.length ≤ s.len ∧
    sym es = [.start] ++ frameSyms (addressByte a .write) v ++
      vs.zipIdx.flatMap (fun p => frameSyms (s.buf.read p.2) p.1) ++ [.stop] ∧
    (sym es).countP isStart = 1 ∧ (sym es).countP isStop = 1

/-- The same for a READ: each data frame holds the byte stored and ends with the master's own bit, LOW (ACK) but
for the last byte, which gets HIGH (NACK) (30_encoding.md R77, R79, R84). -/
def Obligations.ReadTraceReadsAsOneFrame : Prop :=
  ∀ (a : Addr) (s : State), ∃ (v : Level) (bs : List Byte) (t : State) (es : List Event),
    exec (.read a) s = .next t ∧ t.trace = s.trace ++ es ∧ bs.length ≤ s.len ∧
    (s.buf.wf = true → ∀ (x : Nat) (hx : x < bs.length), t.buf.read x = bs[x]) ∧
    sym es = [.start] ++ frameSyms (addressByte a .read) v ++
      bs.zipIdx.flatMap (fun p => frameSyms p.1 (if p.2 + 1 = s.len then .high else .low)) ++ [.stop] ∧
    (sym es).countP isStart = 1 ∧ (sym es).countP isStop = 1

/-- 95_test_vectors.md A7, P4: a READ answered with the bytes a WRITE put on the wire, by a slave that
acknowledges and echoes, leaves the buffer that was written. The bytes are read off the WRITE's own trace, not
off the buffer. The empty buffer is no exception. -/
def Obligations.RoundTripThroughAnEchoingSlave : Prop :=
  ∀ (a : Addr) (s : State) (rest : List Level),
    s.sdaIn = .low :: (List.replicate s.len .low ++ rest) →
    ∃ (t : State) (bs : List Byte), exec (.write a) s = .next t ∧ bs.length = s.len ∧
      t.trace = s.trace ++ (startEvents ++ outEvents (addressByte a .write) .low ++
        bs.flatMap (fun b => outEvents b .low) ++ stopEvents) ∧
      ∀ (m : Memory) (rest' : List Level), m.wf = true →
        ∃ u, exec (.read a) { t with buf := m, sdaIn := .low :: (bs.flatMap byteLevels ++ rest') } = .next u ∧
          u.status = .success ∧ u.buf.bytes s.len = s.buf.bytes s.len

/-- 70_reset_and_hazards.md R220: with the data line stuck low a WRITE of a non-empty buffer returns SUCCESS and a
READ returns SUCCESS with all bytes 0x00; with it stuck high both return FAILURE. -/
def Obligations.StuckDataLineIsNotDetected : Prop :=
  ∀ (a : Addr) (s : State) (n : Nat), s.buf.wf = true → 1 + 8 * s.len ≤ n →
    (s.sdaIn = List.replicate n .low →
      (1 ≤ s.len → ∃ t, exec (.write a) s = .next t ∧ t.status = .success) ∧
      ∃ t, exec (.read a) s = .next t ∧ t.status = .success ∧ ∀ x, x < s.len → t.buf.read x = 0x00#8) ∧
    (s.sdaIn = List.replicate n .high →
      (∃ t, exec (.write a) s = .next t ∧ t.status = .failure) ∧
      ∃ t, exec (.read a) s = .next t ∧ t.status = .failure ∧ t.buf = s.buf)

/-- 43_public_commands.md R158: `BEGIN` takes the lines from released to asserted, each byte operation from asserted
to asserted, `END` from asserted to released, so WRITE and READ start and end in the idle line state; `INIT` ends
there from anything. -/
def Obligations.CommandsEndInTheIdleLineState : Prop :=
  ∀ s : State,
    (∃ t, exec .init s = .next t ∧ t.IdleLines) ∧
    (s.IdleLines → ∀ a d, ∃ t, exec (.beginTx a d) s = .next t ∧ t.HeldLines) ∧
    (s.HeldLines → (∀ b, ∃ t, exec (.byteOut b) s = .next t ∧ t.HeldLines) ∧
      (∀ l, ∃ t, exec (.byteIn l) s = .next t ∧ t.HeldLines) ∧
      ∃ t, exec .endTx s = .next t ∧ t.IdleLines) ∧
    (s.IdleLines → ∀ a, (∃ t, exec (.write a) s = .next t ∧ t.IdleLines) ∧
      ∃ t, exec (.read a) s = .next t ∧ t.IdleLines)

/-! ### The step -/

/-- 43_public_commands.md R155, R62: an idle master takes the host's next move; the word of a move that the
interface admits as `i` is run as `exec i`, on the state with the word in `CW` and, for WRITE and READ, the bytes
in `BUF` and their number in `LEN`; in a polled move the step is the act of acceptance instead: `BUSY = 1` and, for
WRITE and READ, `PHASE = START`, `USTEP = 0`. (The list of moves and its presenters: log 6, 7, 8, 15.) -/
def Obligations.StepRunsTheDecodedInstruction : Prop :=
  ∀ (s : State) (r : Request) (rest : List Request) (i : Instr),
    s.host = r :: rest → s.busy = false → screenWord r.presenter r.word s.inited = .ok i →
    decode r.word = .ok i ∧
    (r.presenter ≠ .poll →
      (hostIssuable i = false ∨ i = .init →
        step s = exec i { s with host := rest, cw := r.word }) ∧
      (∀ a, i = .write a ∨ i = .read a →
        step s = exec i { s with
          host := rest, cw := r.word, len := r.bytes.length, buf := Memory.ofBytes 0 r.bytes })) ∧
    (r.presenter = .poll →
      (i = .init → step s = .next { s with host := rest, cw := r.word, busy := true, initAt := .sdaRel }) ∧
      (∀ a, i = .write a ∨ i = .read a →
        step s = .next { s with
          host := rest, cw := r.word, len := r.bytes.length, buf := Memory.ofBytes 0 r.bytes,
          busy := true, phase := .start, ustep := 0 }))

/-- 30_encoding.md R80, 70_reset_and_hazards.md R212, R215: a step is refused exactly when a word is presented while
the master is busy, or is reserved, or is an internal operation presented by the host, or is a WRITE or READ the
host presents before an INIT has completed; and the refusal says which. What "exactly" adds to those rules is the
model's choice: that a micro-program's internal word, or its WRITE or READ before INIT, is not refused (log 6), and
that a word its host holds back until `BUSY = 0` is not (log 8). -/
def Obligations.StepRefusesExactlyWhatTheInterfaceRefuses : Prop :=
  ∀ (s : State) (e : Refusal), step s = .refused e ↔
    ∃ r rest, s.host = r :: rest ∧
      ((s.busy = true ∧ r.waits = false ∧ e = .busy) ∨
       (s.busy = false ∧ wordWellFormed r.word = false ∧ e = .reservedWord r.word) ∨
       (s.busy = false ∧ r.presenter ≠ .micro ∧ wordWellFormed r.word = true ∧
         hostWordWellFormed r.word = false ∧ e = .internalOperation r.word) ∨
       (s.busy = false ∧ r.presenter ≠ .micro ∧ hostWordWellFormed r.word = true ∧
         opField r.word ≠ 0#4 ∧ s.inited = false ∧ e = .beforeInit))

/-- 60_exceptions.md R180, 43_public_commands.md R154: every instruction completes from every state; a step from any
state is a next state or the refusal of a presented word, never a fault; and a step of a busy master whose host keeps
to R216 answers a next state. (In a state no run reaches that may be the state unchanged: the model's choice, log 11.
From a legal state the step performs a primitive: `BusyStepPerformsOnePrimitive`.) -/
def Obligations.NothingFaults : Prop :=
  (∀ (i : Instr) (s : State), ∃ t, exec i s = .next t) ∧
  (∀ s : State, (∃ t, step s = .next t) ∨ ∃ e r rest, step s = .refused e ∧ s.host = r :: rest) ∧
  (∀ s : State, s.busy = true → (∀ r rest, s.host = r :: rest → r.waits = true) → ∃ t, step s = .next t)

/-- Every step of a host-driven block keeps the invariant: `BUSY` tells whether a command is in progress (R34), the
position stays in the tables with the drivers where the sequence puts them (R116, R130 to R132), an idle
initialised block has its lines released (R158), the buffer stays canonical. -/
def Obligations.EveryStepKeepsTheInvariant : Prop :=
  ∀ s t : State, s.Inv → step s = .next t → t.Inv

/-- 43_public_commands.md R154, 10_state.md R36: a step of a busy master performs exactly one primitive: from every
legal state, under a host that keeps to R216, there is a next state and it has exactly one event more. (In a state
no run reaches the master may be stuck, log 11: the premise rules those out.) -/
def Obligations.BusyStepPerformsOnePrimitive : Prop :=
  ∀ s : State, s.Inv → s.busy = true → (∀ r rest, s.host = r :: rest → r.waits = true) →
    ∃ t e, step s = .next t ∧ t.trace = s.trace ++ [e]

/-- 43_public_commands.md R154: "the two give the same `TRACE`, `STATUS` and `BUF`": a public command accepted and then
stepped one primitive at a time ends, after as many steps as it has events, in the very state its one-step meaning
gives. (That `BITCNT`, `USTEP`, `PHASE` and `IDX` agree too, and that `STATUS` comes from `ACKL` and `LEN`, rests on the
model's reading, log 12, 13 and 20.) -/
def Obligations.SmallStepsAddUpToTheCommand : Prop :=
  ∀ (i : Instr) (s : State), hostIssuable i = true → decode s.cw = .ok i → s.host = [] →
    s.busy = false → s.initAt = .none →
    ∃ t, exec i s = .next t ∧
      Sys2Proof.core.run (t.trace.length - s.trace.length) (accept i s) = .next t

/-- The same at the command interface (60_exceptions.md R183, log 7): a host that polls sees the command end in the
state a host that calls gets back. -/
def Obligations.PollingAndCallingGiveTheSameResult : Prop :=
  ∀ (s t : State) (w : CmdWord) (bs : List Byte) (q : Bool),
    s.busy = false → s.initAt = .none →
    step { s with host := [⟨.call, w, bs, q⟩] } = .next t →
    Sys2Proof.core.run (1 + (t.trace.length - s.trace.length)) { s with host := [⟨.poll, w, bs, q⟩] } = .next t

/-- 43_public_commands.md R156, 70_reset_and_hazards.md R226: from every legal state a busy master becomes idle within
`54 + 47 * LEN` steps, whatever the environment answers. -/
def Obligations.EveryCommandTerminates : Prop :=
  ∀ s : State, s.Inv → s.busy = true → s.host = [] →
    ∃ (n : Nat) (t : State), n ≤ 54 + 47 * s.len ∧
      Sys2Proof.core.run n s = .next t ∧ t.busy = false ∧ t.phase = .idle ∧ t.IdleLines

/-- 42_framing.md R132 (a): the master changes the data line while it has released the clock in exactly these places:
the first primitive of `BEGIN` (to low), the last of `END` (to high), and an `INIT` (to high). -/
def Obligations.DataMovesWhileClockReleasedOnlyAtStartAndStop : Prop :=
  ∀ s t : State, s.Inv → s.busy = true → step s = .next t → s.sclO = .rel → t.sdaO ≠ s.sdaO →
    (s.phase = .start ∧ s.ustep = 0#3 ∧ t.sdaO = .low) ∨
    (s.phase = .stop ∧ s.ustep = 2#3 ∧ t.sdaO = .rel) ∨
    (s.initAt = .sdaRel ∧ t.sdaO = .rel)

/-- 43_public_commands.md R158, last sentence: `SCL_LOW` is never performed on a clock line already asserted, and
`SDA_LOW` on a data line already asserted only to close an acknowledgment cell after the master's own ACK or to
place a 0 bit. -/
def Obligations.NoLineIsAssertedTwiceButWhereSaid : Prop :=
  ∀ s t : State, s.Inv → s.busy = true → step s = .next t →
    (t.trace = s.trace ++ [.sclLow] → s.sclO = .rel) ∧
    (t.trace = s.trace ++ [.sdaLow] → s.sdaO = .low →
      (s.phase = .data ∧ (∃ a, transferOf s.cw = some (.read, a)) ∧ s.bitcnt = 8#4 ∧ s.ustep = 4#3 ∧
        s.isLast = false) ∨
      ((s.phase = .address ∨ s.phase = .data) ∧ s.ustep = 0#3 ∧ s.bitcnt.toNat ≤ 7))

/-- 10_state.md R20, R33, 70_reset_and_hazards.md R216, R217: while a command is in progress a step leaves `CW`, `LEN`,
the host's moves and the clock's answers unchanged; `STATUS` is written only by the step that ends the command; and
`BUF` changes only at the index `IDX` in a step of a READ's DATA phase. -/
def Obligations.BusyStepsLeaveTheHostsRegistersAlone : Prop :=
  ∀ s t : State, s.Inv → s.busy = true → step s = .next t →
    t.cw = s.cw ∧ t.len = s.len ∧ t.host = s.host ∧ t.sclIn = s.sclIn ∧
    (t.busy = true → t.status = s.status) ∧
    (∀ x, t.buf.read x ≠ s.buf.read x →
      x = s.idx ∧ x < s.len ∧ s.phase = .data ∧ ∃ a, transferOf s.cw = some (.read, a))

/-- 43_public_commands.md R153: the phases follow one another as the state machine says. In the DATA phase `IDX` and
the phase stay until the last primitive of the byte; there a byte of a WRITE that was not acknowledged leads to STOP,
and else the byte leads to STOP when the buffer is consumed and to the first position of byte `IDX + 1` when it is
not. -/
def Obligations.PhasesFollowTheStateMachine : Prop :=
  ∀ s t : State, s.Inv → s.busy = true → step s = .next t →
    (t.phase ≠ s.phase →
      (s.phase = .start ∧ t.phase = .address) ∨
      (s.phase = .address ∧ t.phase = .data ∧ t.ackl = .ack ∧ 0 < s.len ∧ t.idx = 0) ∨
      (s.phase = .address ∧ t.phase = .stop ∧ (t.ackl = .nack ∨ s.len = 0)) ∨
      (s.phase = .data ∧ t.phase = .stop ∧
        (s.idx + 1 = s.len ∨ (t.ackl = .nack ∧ ∃ a, transferOf s.cw = some (.write, a)))) ∨
      (s.phase = .stop ∧ t.phase = .idle ∧ t.busy = false)) ∧
    ∀ d a, s.phase = .data → transferOf s.cw = some (d, a) →
      (¬ s.AtByteEnd d → t.phase = .data ∧ t.idx = s.idx) ∧
      (s.AtByteEnd d → d = .write → t.ackl = .nack → t.phase = .stop ∧ t.idx = s.idx) ∧
      (s.AtByteEnd d → (d = .read ∨ t.ackl = .ack) → s.idx + 1 = s.len → t.phase = .stop) ∧
      (s.AtByteEnd d → (d = .read ∨ t.ackl = .ack) → s.idx + 1 < s.len →
        t.phase = .data ∧ t.idx = s.idx + 1 ∧ t.ustep = 0#3 ∧ t.bitcnt = (match d with
          | .write => 0#4
          | .read => 15#4))

/-- 60_exceptions.md R193: an idle master with no command changes nothing. -/
def Obligations.IdleMasterDoesNothing : Prop :=
  ∀ s : State, s.busy = false → s.host = [] → step s = .next s

/-- How a program comes to run from reset (log 16): a table word put where the next step takes one from is decoded and
run by the very next step, from every state, on a state with that word in `CW`, no command in progress, the buffer's
`LEN` bytes and every other register, the trace, the host's moves and both lines' answers as the state holds them.
That an internal operation runs so, and a WRITE or READ before an INIT, is the model's choice (log 6). -/
def Obligations.FetchedTableWordRuns : Prop :=
  ∀ (s : State) (nbits w : Nat) (i : Instr), decodeTableWord nbits w = some i →
    ∃ u t, step (s.withFetchWord nbits w) = exec i u ∧ exec i u = .next t ∧
      u.cw = tableWord nbits w ∧ u.busy = false ∧ u.phase = .idle ∧ u.initAt = .none ∧
      u.len = s.len ∧ (∀ x, x < s.len → u.buf.read x = s.buf.read x) ∧
      u.sdaO = s.sdaO ∧ u.sclO = s.sclO ∧ u.idx = s.idx ∧ u.bitcnt = s.bitcnt ∧ u.ustep = s.ustep ∧
      u.shreg = s.shreg ∧ u.ackl = s.ackl ∧ u.status = s.status ∧ u.trace = s.trace ∧
      u.inited = s.inited ∧ u.host = s.host ∧ u.sdaIn = s.sdaIn ∧ u.sclIn = s.sclIn
end

