-- ==== Sys2Proof/Laws/State.lean ====
section
/-! SUPPORT. One lemma per field and register update of Ops.lean, so that no later proof unfolds an update. -/

namespace Sys2Proof.Machine

@[simp] theorem State.emit_sdaO (s : State) (e : Event) : (s.emit e).sdaO = s.sdaO := rfl
@[simp] theorem State.emit_sclO (s : State) (e : Event) : (s.emit e).sclO = s.sclO := rfl
@[simp] theorem State.emit_phase (s : State) (e : Event) : (s.emit e).phase = s.phase := rfl
@[simp] theorem State.emit_idx (s : State) (e : Event) : (s.emit e).idx = s.idx := rfl
@[simp] theorem State.emit_bitcnt (s : State) (e : Event) : (s.emit e).bitcnt = s.bitcnt := rfl
@[simp] theorem State.emit_ustep (s : State) (e : Event) : (s.emit e).ustep = s.ustep := rfl
@[simp] theorem State.emit_shreg (s : State) (e : Event) : (s.emit e).shreg = s.shreg := rfl
@[simp] theorem State.emit_ackl (s : State) (e : Event) : (s.emit e).ackl = s.ackl := rfl
@[simp] theorem State.emit_cw (s : State) (e : Event) : (s.emit e).cw = s.cw := rfl
@[simp] theorem State.emit_len (s : State) (e : Event) : (s.emit e).len = s.len := rfl
@[simp] theorem State.emit_status (s : State) (e : Event) : (s.emit e).status = s.status := rfl
@[simp] theorem State.emit_busy (s : State) (e : Event) : (s.emit e).busy = s.busy := rfl
@[simp] theorem State.emit_buf (s : State) (e : Event) : (s.emit e).buf = s.buf := rfl
@[simp] theorem State.emit_trace (s : State) (e : Event) : (s.emit e).trace = s.trace ++ [e] := rfl
@[simp] theorem State.emit_inited (s : State) (e : Event) : (s.emit e).inited = s.inited := rfl
@[simp] theorem State.emit_initAt (s : State) (e : Event) : (s.emit e).initAt = s.initAt := rfl
@[simp] theorem State.emit_host (s : State) (e : Event) : (s.emit e).host = s.host := rfl
@[simp] theorem State.emit_sdaIn (s : State) (e : Event) : (s.emit e).sdaIn = s.sdaIn := rfl
@[simp] theorem State.emit_sclIn (s : State) (e : Event) : (s.emit e).sclIn = s.sclIn := rfl

@[simp] theorem State.setSda_sdaO (s : State) (d : Drive) : (s.setSda d).sdaO = d := rfl
@[simp] theorem State.setSda_sclO (s : State) (d : Drive) : (s.setSda d).sclO = s.sclO := rfl
@[simp] theorem State.setSda_phase (s : State) (d : Drive) : (s.setSda d).phase = s.phase := rfl
@[simp] theorem State.setSda_idx (s : State) (d : Drive) : (s.setSda d).idx = s.idx := rfl
@[simp] theorem State.setSda_bitcnt (s : State) (d : Drive) : (s.setSda d).bitcnt = s.bitcnt := rfl
@[simp] theorem State.setSda_ustep (s : State) (d : Drive) : (s.setSda d).ustep = s.ustep := rfl
@[simp] theorem State.setSda_shreg (s : State) (d : Drive) : (s.setSda d).shreg = s.shreg := rfl
@[simp] theorem State.setSda_ackl (s : State) (d : Drive) : (s.setSda d).ackl = s.ackl := rfl
@[simp] theorem State.setSda_cw (s : State) (d : Drive) : (s.setSda d).cw = s.cw := rfl
@[simp] theorem State.setSda_len (s : State) (d : Drive) : (s.setSda d).len = s.len := rfl
@[simp] theorem State.setSda_status (s : State) (d : Drive) : (s.setSda d).status = s.status := rfl
@[simp] theorem State.setSda_busy (s : State) (d : Drive) : (s.setSda d).busy = s.busy := rfl
@[simp] theorem State.setSda_buf (s : State) (d : Drive) : (s.setSda d).buf = s.buf := rfl
@[simp] theorem State.setSda_trace (s : State) (d : Drive) : (s.setSda d).trace = s.trace := rfl
@[simp] theorem State.setSda_inited (s : State) (d : Drive) : (s.setSda d).inited = s.inited := rfl
@[simp] theorem State.setSda_initAt (s : State) (d : Drive) : (s.setSda d).initAt = s.initAt := rfl
@[simp] theorem State.setSda_host (s : State) (d : Drive) : (s.setSda d).host = s.host := rfl
@[simp] theorem State.setSda_sdaIn (s : State) (d : Drive) : (s.setSda d).sdaIn = s.sdaIn := rfl
@[simp] theorem State.setSda_sclIn (s : State) (d : Drive) : (s.setSda d).sclIn = s.sclIn := rfl

@[simp] theorem State.setScl_sdaO (s : State) (d : Drive) : (s.setScl d).sdaO = s.sdaO := rfl
@[simp] theorem State.setScl_sclO (s : State) (d : Drive) : (s.setScl d).sclO = d := rfl
@[simp] theorem State.setScl_phase (s : State) (d : Drive) : (s.setScl d).phase = s.phase := rfl
@[simp] theorem State.setScl_idx (s : State) (d : Drive) : (s.setScl d).idx = s.idx := rfl
@[simp] theorem State.setScl_bitcnt (s : State) (d : Drive) : (s.setScl d).bitcnt = s.bitcnt := rfl
@[simp] theorem State.setScl_ustep (s : State) (d : Drive) : (s.setScl d).ustep = s.ustep := rfl
@[simp] theorem State.setScl_shreg (s : State) (d : Drive) : (s.setScl d).shreg = s.shreg := rfl
@[simp] theorem State.setScl_ackl (s : State) (d : Drive) : (s.setScl d).ackl = s.ackl := rfl
@[simp] theorem State.setScl_cw (s : State) (d : Drive) : (s.setScl d).cw = s.cw := rfl
@[simp] theorem State.setScl_len (s : State) (d : Drive) : (s.setScl d).len = s.len := rfl
@[simp] theorem State.setScl_status (s : State) (d : Drive) : (s.setScl d).status = s.status := rfl
@[simp] theorem State.setScl_busy (s : State) (d : Drive) : (s.setScl d).busy = s.busy := rfl
@[simp] theorem State.setScl_buf (s : State) (d : Drive) : (s.setScl d).buf = s.buf := rfl
@[simp] theorem State.setScl_trace (s : State) (d : Drive) : (s.setScl d).trace = s.trace := rfl
@[simp] theorem State.setScl_inited (s : State) (d : Drive) : (s.setScl d).inited = s.inited := rfl
@[simp] theorem State.setScl_initAt (s : State) (d : Drive) : (s.setScl d).initAt = s.initAt := rfl
@[simp] theorem State.setScl_host (s : State) (d : Drive) : (s.setScl d).host = s.host := rfl
@[simp] theorem State.setScl_sdaIn (s : State) (d : Drive) : (s.setScl d).sdaIn = s.sdaIn := rfl
@[simp] theorem State.setScl_sclIn (s : State) (d : Drive) : (s.setScl d).sclIn = s.sclIn := rfl

@[simp] theorem State.setShreg_sdaO (s : State) (b : Byte) : (s.setShreg b).sdaO = s.sdaO := rfl
@[simp] theorem State.setShreg_sclO (s : State) (b : Byte) : (s.setShreg b).sclO = s.sclO := rfl
@[simp] theorem State.setShreg_phase (s : State) (b : Byte) : (s.setShreg b).phase = s.phase := rfl
@[simp] theorem State.setShreg_idx (s : State) (b : Byte) : (s.setShreg b).idx = s.idx := rfl
@[simp] theorem State.setShreg_bitcnt (s : State) (b : Byte) : (s.setShreg b).bitcnt = s.bitcnt := rfl
@[simp] theorem State.setShreg_ustep (s : State) (b : Byte) : (s.setShreg b).ustep = s.ustep := rfl
@[simp] theorem State.setShreg_shreg (s : State) (b : Byte) : (s.setShreg b).shreg = b := rfl
@[simp] theorem State.setShreg_ackl (s : State) (b : Byte) : (s.setShreg b).ackl = s.ackl := rfl
@[simp] theorem State.setShreg_cw (s : State) (b : Byte) : (s.setShreg b).cw = s.cw := rfl
@[simp] theorem State.setShreg_len (s : State) (b : Byte) : (s.setShreg b).len = s.len := rfl
@[simp] theorem State.setShreg_status (s : State) (b : Byte) : (s.setShreg b).status = s.status := rfl
@[simp] theorem State.setShreg_busy (s : State) (b : Byte) : (s.setShreg b).busy = s.busy := rfl
@[simp] theorem State.setShreg_buf (s : State) (b : Byte) : (s.setShreg b).buf = s.buf := rfl
@[simp] theorem State.setShreg_trace (s : State) (b : Byte) : (s.setShreg b).trace = s.trace := rfl
@[simp] theorem State.setShreg_inited (s : State) (b : Byte) : (s.setShreg b).inited = s.inited := rfl
@[simp] theorem State.setShreg_initAt (s : State) (b : Byte) : (s.setShreg b).initAt = s.initAt := rfl
@[simp] theorem State.setShreg_host (s : State) (b : Byte) : (s.setShreg b).host = s.host := rfl
@[simp] theorem State.setShreg_sdaIn (s : State) (b : Byte) : (s.setShreg b).sdaIn = s.sdaIn := rfl
@[simp] theorem State.setShreg_sclIn (s : State) (b : Byte) : (s.setShreg b).sclIn = s.sclIn := rfl

@[simp] theorem State.setAckl_sdaO (s : State) (a : Ack) : (s.setAckl a).sdaO = s.sdaO := rfl
@[simp] theorem State.setAckl_sclO (s : State) (a : Ack) : (s.setAckl a).sclO = s.sclO := rfl
@[simp] theorem State.setAckl_phase (s : State) (a : Ack) : (s.setAckl a).phase = s.phase := rfl
@[simp] theorem State.setAckl_idx (s : State) (a : Ack) : (s.setAckl a).idx = s.idx := rfl
@[simp] theorem State.setAckl_bitcnt (s : State) (a : Ack) : (s.setAckl a).bitcnt = s.bitcnt := rfl
@[simp] theorem State.setAckl_ustep (s : State) (a : Ack) : (s.setAckl a).ustep = s.ustep := rfl
@[simp] theorem State.setAckl_shreg (s : State) (a : Ack) : (s.setAckl a).shreg = s.shreg := rfl
@[simp] theorem State.setAckl_ackl (s : State) (a : Ack) : (s.setAckl a).ackl = a := rfl
@[simp] theorem State.setAckl_cw (s : State) (a : Ack) : (s.setAckl a).cw = s.cw := rfl
@[simp] theorem State.setAckl_len (s : State) (a : Ack) : (s.setAckl a).len = s.len := rfl
@[simp] theorem State.setAckl_status (s : State) (a : Ack) : (s.setAckl a).status = s.status := rfl
@[simp] theorem State.setAckl_busy (s : State) (a : Ack) : (s.setAckl a).busy = s.busy := rfl
@[simp] theorem State.setAckl_buf (s : State) (a : Ack) : (s.setAckl a).buf = s.buf := rfl
@[simp] theorem State.setAckl_trace (s : State) (a : Ack) : (s.setAckl a).trace = s.trace := rfl
@[simp] theorem State.setAckl_inited (s : State) (a : Ack) : (s.setAckl a).inited = s.inited := rfl
@[simp] theorem State.setAckl_initAt (s : State) (a : Ack) : (s.setAckl a).initAt = s.initAt := rfl
@[simp] theorem State.setAckl_host (s : State) (a : Ack) : (s.setAckl a).host = s.host := rfl
@[simp] theorem State.setAckl_sdaIn (s : State) (a : Ack) : (s.setAckl a).sdaIn = s.sdaIn := rfl
@[simp] theorem State.setAckl_sclIn (s : State) (a : Ack) : (s.setAckl a).sclIn = s.sclIn := rfl

@[simp] theorem State.setIdx_sdaO (s : State) (n : Nat) : (s.setIdx n).sdaO = s.sdaO := rfl
@[simp] theorem State.setIdx_sclO (s : State) (n : Nat) : (s.setIdx n).sclO = s.sclO := rfl
@[simp] theorem State.setIdx_phase (s : State) (n : Nat) : (s.setIdx n).phase = s.phase := rfl
@[simp] theorem State.setIdx_idx (s : State) (n : Nat) : (s.setIdx n).idx = n := rfl
@[simp] theorem State.setIdx_bitcnt (s : State) (n : Nat) : (s.setIdx n).bitcnt = s.bitcnt := rfl
@[simp] theorem State.setIdx_ustep (s : State) (n : Nat) : (s.setIdx n).ustep = s.ustep := rfl
@[simp] theorem State.setIdx_shreg (s : State) (n : Nat) : (s.setIdx n).shreg = s.shreg := rfl
@[simp] theorem State.setIdx_ackl (s : State) (n : Nat) : (s.setIdx n).ackl = s.ackl := rfl
@[simp] theorem State.setIdx_cw (s : State) (n : Nat) : (s.setIdx n).cw = s.cw := rfl
@[simp] theorem State.setIdx_len (s : State) (n : Nat) : (s.setIdx n).len = s.len := rfl
@[simp] theorem State.setIdx_status (s : State) (n : Nat) : (s.setIdx n).status = s.status := rfl
@[simp] theorem State.setIdx_busy (s : State) (n : Nat) : (s.setIdx n).busy = s.busy := rfl
@[simp] theorem State.setIdx_buf (s : State) (n : Nat) : (s.setIdx n).buf = s.buf := rfl
@[simp] theorem State.setIdx_trace (s : State) (n : Nat) : (s.setIdx n).trace = s.trace := rfl
@[simp] theorem State.setIdx_inited (s : State) (n : Nat) : (s.setIdx n).inited = s.inited := rfl
@[simp] theorem State.setIdx_initAt (s : State) (n : Nat) : (s.setIdx n).initAt = s.initAt := rfl
@[simp] theorem State.setIdx_host (s : State) (n : Nat) : (s.setIdx n).host = s.host := rfl
@[simp] theorem State.setIdx_sdaIn (s : State) (n : Nat) : (s.setIdx n).sdaIn = s.sdaIn := rfl
@[simp] theorem State.setIdx_sclIn (s : State) (n : Nat) : (s.setIdx n).sclIn = s.sclIn := rfl

@[simp] theorem State.setPhase_sdaO (s : State) (p : Phase) : (s.setPhase p).sdaO = s.sdaO := rfl
@[simp] theorem State.setPhase_sclO (s : State) (p : Phase) : (s.setPhase p).sclO = s.sclO := rfl
@[simp] theorem State.setPhase_phase (s : State) (p : Phase) : (s.setPhase p).phase = p := rfl
@[simp] theorem State.setPhase_idx (s : State) (p : Phase) : (s.setPhase p).idx = s.idx := rfl
@[simp] theorem State.setPhase_bitcnt (s : State) (p : Phase) : (s.setPhase p).bitcnt = s.bitcnt := rfl
@[simp] theorem State.setPhase_ustep (s : State) (p : Phase) : (s.setPhase p).ustep = s.ustep := rfl
@[simp] theorem State.setPhase_shreg (s : State) (p : Phase) : (s.setPhase p).shreg = s.shreg := rfl
@[simp] theorem State.setPhase_ackl (s : State) (p : Phase) : (s.setPhase p).ackl = s.ackl := rfl
@[simp] theorem State.setPhase_cw (s : State) (p : Phase) : (s.setPhase p).cw = s.cw := rfl
@[simp] theorem State.setPhase_len (s : State) (p : Phase) : (s.setPhase p).len = s.len := rfl
@[simp] theorem State.setPhase_status (s : State) (p : Phase) : (s.setPhase p).status = s.status := rfl
@[simp] theorem State.setPhase_busy (s : State) (p : Phase) : (s.setPhase p).busy = s.busy := rfl
@[simp] theorem State.setPhase_buf (s : State) (p : Phase) : (s.setPhase p).buf = s.buf := rfl
@[simp] theorem State.setPhase_trace (s : State) (p : Phase) : (s.setPhase p).trace = s.trace := rfl
@[simp] theorem State.setPhase_inited (s : State) (p : Phase) : (s.setPhase p).inited = s.inited := rfl
@[simp] theorem State.setPhase_initAt (s : State) (p : Phase) : (s.setPhase p).initAt = s.initAt := rfl
@[simp] theorem State.setPhase_host (s : State) (p : Phase) : (s.setPhase p).host = s.host := rfl
@[simp] theorem State.setPhase_sdaIn (s : State) (p : Phase) : (s.setPhase p).sdaIn = s.sdaIn := rfl
@[simp] theorem State.setPhase_sclIn (s : State) (p : Phase) : (s.setPhase p).sclIn = s.sclIn := rfl

@[simp] theorem State.setStatus_sdaO (s : State) (st : Status) : (s.setStatus st).sdaO = s.sdaO := rfl
@[simp] theorem State.setStatus_sclO (s : State) (st : Status) : (s.setStatus st).sclO = s.sclO := rfl
@[simp] theorem State.setStatus_phase (s : State) (st : Status) : (s.setStatus st).phase = s.phase := rfl
@[simp] theorem State.setStatus_idx (s : State) (st : Status) : (s.setStatus st).idx = s.idx := rfl
@[simp] theorem State.setStatus_bitcnt (s : State) (st : Status) : (s.setStatus st).bitcnt = s.bitcnt := rfl
@[simp] theorem State.setStatus_ustep (s : State) (st : Status) : (s.setStatus st).ustep = s.ustep := rfl
@[simp] theorem State.setStatus_shreg (s : State) (st : Status) : (s.setStatus st).shreg = s.shreg := rfl
@[simp] theorem State.setStatus_ackl (s : State) (st : Status) : (s.setStatus st).ackl = s.ackl := rfl
@[simp] theorem State.setStatus_cw (s : State) (st : Status) : (s.setStatus st).cw = s.cw := rfl
@[simp] theorem State.setStatus_len (s : State) (st : Status) : (s.setStatus st).len = s.len := rfl
@[simp] theorem State.setStatus_status (s : State) (st : Status) : (s.setStatus st).status = st := rfl
@[simp] theorem State.setStatus_busy (s : State) (st : Status) : (s.setStatus st).busy = s.busy := rfl
@[simp] theorem State.setStatus_buf (s : State) (st : Status) : (s.setStatus st).buf = s.buf := rfl
@[simp] theorem State.setStatus_trace (s : State) (st : Status) : (s.setStatus st).trace = s.trace := rfl
@[simp] theorem State.setStatus_inited (s : State) (st : Status) : (s.setStatus st).inited = s.inited := rfl
@[simp] theorem State.setStatus_initAt (s : State) (st : Status) : (s.setStatus st).initAt = s.initAt := rfl
@[simp] theorem State.setStatus_host (s : State) (st : Status) : (s.setStatus st).host = s.host := rfl
@[simp] theorem State.setStatus_sdaIn (s : State) (st : Status) : (s.setStatus st).sdaIn = s.sdaIn := rfl
@[simp] theorem State.setStatus_sclIn (s : State) (st : Status) : (s.setStatus st).sclIn = s.sclIn := rfl

@[simp] theorem State.setBusy_sdaO (s : State) (b : Bool) : (s.setBusy b).sdaO = s.sdaO := rfl
@[simp] theorem State.setBusy_sclO (s : State) (b : Bool) : (s.setBusy b).sclO = s.sclO := rfl
@[simp] theorem State.setBusy_phase (s : State) (b : Bool) : (s.setBusy b).phase = s.phase := rfl
@[simp] theorem State.setBusy_idx (s : State) (b : Bool) : (s.setBusy b).idx = s.idx := rfl
@[simp] theorem State.setBusy_bitcnt (s : State) (b : Bool) : (s.setBusy b).bitcnt = s.bitcnt := rfl
@[simp] theorem State.setBusy_ustep (s : State) (b : Bool) : (s.setBusy b).ustep = s.ustep := rfl
@[simp] theorem State.setBusy_shreg (s : State) (b : Bool) : (s.setBusy b).shreg = s.shreg := rfl
@[simp] theorem State.setBusy_ackl (s : State) (b : Bool) : (s.setBusy b).ackl = s.ackl := rfl
@[simp] theorem State.setBusy_cw (s : State) (b : Bool) : (s.setBusy b).cw = s.cw := rfl
@[simp] theorem State.setBusy_len (s : State) (b : Bool) : (s.setBusy b).len = s.len := rfl
@[simp] theorem State.setBusy_status (s : State) (b : Bool) : (s.setBusy b).status = s.status := rfl
@[simp] theorem State.setBusy_busy (s : State) (b : Bool) : (s.setBusy b).busy = b := rfl
@[simp] theorem State.setBusy_buf (s : State) (b : Bool) : (s.setBusy b).buf = s.buf := rfl
@[simp] theorem State.setBusy_trace (s : State) (b : Bool) : (s.setBusy b).trace = s.trace := rfl
@[simp] theorem State.setBusy_inited (s : State) (b : Bool) : (s.setBusy b).inited = s.inited := rfl
@[simp] theorem State.setBusy_initAt (s : State) (b : Bool) : (s.setBusy b).initAt = s.initAt := rfl
@[simp] theorem State.setBusy_host (s : State) (b : Bool) : (s.setBusy b).host = s.host := rfl
@[simp] theorem State.setBusy_sdaIn (s : State) (b : Bool) : (s.setBusy b).sdaIn = s.sdaIn := rfl
@[simp] theorem State.setBusy_sclIn (s : State) (b : Bool) : (s.setBusy b).sclIn = s.sclIn := rfl

@[simp] theorem State.setBuf_sdaO (s : State) (m : Memory) : (s.setBuf m).sdaO = s.sdaO := rfl
@[simp] theorem State.setBuf_sclO (s : State) (m : Memory) : (s.setBuf m).sclO = s.sclO := rfl
@[simp] theorem State.setBuf_phase (s : State) (m : Memory) : (s.setBuf m).phase = s.phase := rfl
@[simp] theorem State.setBuf_idx (s : State) (m : Memory) : (s.setBuf m).idx = s.idx := rfl
@[simp] theorem State.setBuf_bitcnt (s : State) (m : Memory) : (s.setBuf m).bitcnt = s.bitcnt := rfl
@[simp] theorem State.setBuf_ustep (s : State) (m : Memory) : (s.setBuf m).ustep = s.ustep := rfl
@[simp] theorem State.setBuf_shreg (s : State) (m : Memory) : (s.setBuf m).shreg = s.shreg := rfl
@[simp] theorem State.setBuf_ackl (s : State) (m : Memory) : (s.setBuf m).ackl = s.ackl := rfl
@[simp] theorem State.setBuf_cw (s : State) (m : Memory) : (s.setBuf m).cw = s.cw := rfl
@[simp] theorem State.setBuf_len (s : State) (m : Memory) : (s.setBuf m).len = s.len := rfl
@[simp] theorem State.setBuf_status (s : State) (m : Memory) : (s.setBuf m).status = s.status := rfl
@[simp] theorem State.setBuf_busy (s : State) (m : Memory) : (s.setBuf m).busy = s.busy := rfl
@[simp] theorem State.setBuf_buf (s : State) (m : Memory) : (s.setBuf m).buf = m := rfl
@[simp] theorem State.setBuf_trace (s : State) (m : Memory) : (s.setBuf m).trace = s.trace := rfl
@[simp] theorem State.setBuf_inited (s : State) (m : Memory) : (s.setBuf m).inited = s.inited := rfl
@[simp] theorem State.setBuf_initAt (s : State) (m : Memory) : (s.setBuf m).initAt = s.initAt := rfl
@[simp] theorem State.setBuf_host (s : State) (m : Memory) : (s.setBuf m).host = s.host := rfl
@[simp] theorem State.setBuf_sdaIn (s : State) (m : Memory) : (s.setBuf m).sdaIn = s.sdaIn := rfl
@[simp] theorem State.setBuf_sclIn (s : State) (m : Memory) : (s.setBuf m).sclIn = s.sclIn := rfl

@[simp] theorem State.setInited_sdaO (s : State) : s.setInited.sdaO = s.sdaO := rfl
@[simp] theorem State.setInited_sclO (s : State) : s.setInited.sclO = s.sclO := rfl
@[simp] theorem State.setInited_phase (s : State) : s.setInited.phase = s.phase := rfl
@[simp] theorem State.setInited_idx (s : State) : s.setInited.idx = s.idx := rfl
@[simp] theorem State.setInited_bitcnt (s : State) : s.setInited.bitcnt = s.bitcnt := rfl
@[simp] theorem State.setInited_ustep (s : State) : s.setInited.ustep = s.ustep := rfl
@[simp] theorem State.setInited_shreg (s : State) : s.setInited.shreg = s.shreg := rfl
@[simp] theorem State.setInited_ackl (s : State) : s.setInited.ackl = s.ackl := rfl
@[simp] theorem State.setInited_cw (s : State) : s.setInited.cw = s.cw := rfl
@[simp] theorem State.setInited_len (s : State) : s.setInited.len = s.len := rfl
@[simp] theorem State.setInited_status (s : State) : s.setInited.status = s.status := rfl
@[simp] theorem State.setInited_busy (s : State) : s.setInited.busy = s.busy := rfl
@[simp] theorem State.setInited_buf (s : State) : s.setInited.buf = s.buf := rfl
@[simp] theorem State.setInited_trace (s : State) : s.setInited.trace = s.trace := rfl
@[simp] theorem State.setInited_inited (s : State) : s.setInited.inited = true := rfl
@[simp] theorem State.setInited_initAt (s : State) : s.setInited.initAt = s.initAt := rfl
@[simp] theorem State.setInited_host (s : State) : s.setInited.host = s.host := rfl
@[simp] theorem State.setInited_sdaIn (s : State) : s.setInited.sdaIn = s.sdaIn := rfl
@[simp] theorem State.setInited_sclIn (s : State) : s.setInited.sclIn = s.sclIn := rfl

@[simp] theorem State.setInitAt_sdaO (s : State) (p : InitPos) : (s.setInitAt p).sdaO = s.sdaO := rfl
@[simp] theorem State.setInitAt_sclO (s : State) (p : InitPos) : (s.setInitAt p).sclO = s.sclO := rfl
@[simp] theorem State.setInitAt_phase (s : State) (p : InitPos) : (s.setInitAt p).phase = s.phase := rfl
@[simp] theorem State.setInitAt_idx (s : State) (p : InitPos) : (s.setInitAt p).idx = s.idx := rfl
@[simp] theorem State.setInitAt_bitcnt (s : State) (p : InitPos) : (s.setInitAt p).bitcnt = s.bitcnt := rfl
@[simp] theorem State.setInitAt_ustep (s : State) (p : InitPos) : (s.setInitAt p).ustep = s.ustep := rfl
@[simp] theorem State.setInitAt_shreg (s : State) (p : InitPos) : (s.setInitAt p).shreg = s.shreg := rfl
@[simp] theorem State.setInitAt_ackl (s : State) (p : InitPos) : (s.setInitAt p).ackl = s.ackl := rfl
@[simp] theorem State.setInitAt_cw (s : State) (p : InitPos) : (s.setInitAt p).cw = s.cw := rfl
@[simp] theorem State.setInitAt_len (s : State) (p : InitPos) : (s.setInitAt p).len = s.len := rfl
@[simp] theorem State.setInitAt_status (s : State) (p : InitPos) : (s.setInitAt p).status = s.status := rfl
@[simp] theorem State.setInitAt_busy (s : State) (p : InitPos) : (s.setInitAt p).busy = s.busy := rfl
@[simp] theorem State.setInitAt_buf (s : State) (p : InitPos) : (s.setInitAt p).buf = s.buf := rfl
@[simp] theorem State.setInitAt_trace (s : State) (p : InitPos) : (s.setInitAt p).trace = s.trace := rfl
@[simp] theorem State.setInitAt_inited (s : State) (p : InitPos) : (s.setInitAt p).inited = s.inited := rfl
@[simp] theorem State.setInitAt_initAt (s : State) (p : InitPos) : (s.setInitAt p).initAt = p := rfl
@[simp] theorem State.setInitAt_host (s : State) (p : InitPos) : (s.setInitAt p).host = s.host := rfl
@[simp] theorem State.setInitAt_sdaIn (s : State) (p : InitPos) : (s.setInitAt p).sdaIn = s.sdaIn := rfl
@[simp] theorem State.setInitAt_sclIn (s : State) (p : InitPos) : (s.setInitAt p).sclIn = s.sclIn := rfl

@[simp] theorem State.setSdaIn_sdaO (s : State) (vs : List Level) : (s.setSdaIn vs).sdaO = s.sdaO := rfl
@[simp] theorem State.setSdaIn_sclO (s : State) (vs : List Level) : (s.setSdaIn vs).sclO = s.sclO := rfl
@[simp] theorem State.setSdaIn_phase (s : State) (vs : List Level) : (s.setSdaIn vs).phase = s.phase := rfl
@[simp] theorem State.setSdaIn_idx (s : State) (vs : List Level) : (s.setSdaIn vs).idx = s.idx := rfl
@[simp] theorem State.setSdaIn_bitcnt (s : State) (vs : List Level) : (s.setSdaIn vs).bitcnt = s.bitcnt := rfl
@[simp] theorem State.setSdaIn_ustep (s : State) (vs : List Level) : (s.setSdaIn vs).ustep = s.ustep := rfl
@[simp] theorem State.setSdaIn_shreg (s : State) (vs : List Level) : (s.setSdaIn vs).shreg = s.shreg := rfl
@[simp] theorem State.setSdaIn_ackl (s : State) (vs : List Level) : (s.setSdaIn vs).ackl = s.ackl := rfl
@[simp] theorem State.setSdaIn_cw (s : State) (vs : List Level) : (s.setSdaIn vs).cw = s.cw := rfl
@[simp] theorem State.setSdaIn_len (s : State) (vs : List Level) : (s.setSdaIn vs).len = s.len := rfl
@[simp] theorem State.setSdaIn_status (s : State) (vs : List Level) : (s.setSdaIn vs).status = s.status := rfl
@[simp] theorem State.setSdaIn_busy (s : State) (vs : List Level) : (s.setSdaIn vs).busy = s.busy := rfl
@[simp] theorem State.setSdaIn_buf (s : State) (vs : List Level) : (s.setSdaIn vs).buf = s.buf := rfl
@[simp] theorem State.setSdaIn_trace (s : State) (vs : List Level) : (s.setSdaIn vs).trace = s.trace := rfl
@[simp] theorem State.setSdaIn_inited (s : State) (vs : List Level) : (s.setSdaIn vs).inited = s.inited := rfl
@[simp] theorem State.setSdaIn_initAt (s : State) (vs : List Level) : (s.setSdaIn vs).initAt = s.initAt := rfl
@[simp] theorem State.setSdaIn_host (s : State) (vs : List Level) : (s.setSdaIn vs).host = s.host := rfl
@[simp] theorem State.setSdaIn_sdaIn (s : State) (vs : List Level) : (s.setSdaIn vs).sdaIn = vs := rfl
@[simp] theorem State.setSdaIn_sclIn (s : State) (vs : List Level) : (s.setSdaIn vs).sclIn = s.sclIn := rfl

@[simp] theorem State.setSclIn_sdaO (s : State) (vs : List Level) : (s.setSclIn vs).sdaO = s.sdaO := rfl
@[simp] theorem State.setSclIn_sclO (s : State) (vs : List Level) : (s.setSclIn vs).sclO = s.sclO := rfl
@[simp] theorem State.setSclIn_phase (s : State) (vs : List Level) : (s.setSclIn vs).phase = s.phase := rfl
@[simp] theorem State.setSclIn_idx (s : State) (vs : List Level) : (s.setSclIn vs).idx = s.idx := rfl
@[simp] theorem State.setSclIn_bitcnt (s : State) (vs : List Level) : (s.setSclIn vs).bitcnt = s.bitcnt := rfl
@[simp] theorem State.setSclIn_ustep (s : State) (vs : List Level) : (s.setSclIn vs).ustep = s.ustep := rfl
@[simp] theorem State.setSclIn_shreg (s : State) (vs : List Level) : (s.setSclIn vs).shreg = s.shreg := rfl
@[simp] theorem State.setSclIn_ackl (s : State) (vs : List Level) : (s.setSclIn vs).ackl = s.ackl := rfl
@[simp] theorem State.setSclIn_cw (s : State) (vs : List Level) : (s.setSclIn vs).cw = s.cw := rfl
@[simp] theorem State.setSclIn_len (s : State) (vs : List Level) : (s.setSclIn vs).len = s.len := rfl
@[simp] theorem State.setSclIn_status (s : State) (vs : List Level) : (s.setSclIn vs).status = s.status := rfl
@[simp] theorem State.setSclIn_busy (s : State) (vs : List Level) : (s.setSclIn vs).busy = s.busy := rfl
@[simp] theorem State.setSclIn_buf (s : State) (vs : List Level) : (s.setSclIn vs).buf = s.buf := rfl
@[simp] theorem State.setSclIn_trace (s : State) (vs : List Level) : (s.setSclIn vs).trace = s.trace := rfl
@[simp] theorem State.setSclIn_inited (s : State) (vs : List Level) : (s.setSclIn vs).inited = s.inited := rfl
@[simp] theorem State.setSclIn_initAt (s : State) (vs : List Level) : (s.setSclIn vs).initAt = s.initAt := rfl
@[simp] theorem State.setSclIn_host (s : State) (vs : List Level) : (s.setSclIn vs).host = s.host := rfl
@[simp] theorem State.setSclIn_sdaIn (s : State) (vs : List Level) : (s.setSclIn vs).sdaIn = s.sdaIn := rfl
@[simp] theorem State.setSclIn_sclIn (s : State) (vs : List Level) : (s.setSclIn vs).sclIn = vs := rfl

@[simp] theorem State.setPos_sdaO (s : State) (k : BitVec 4) (u : BitVec 3) : (s.setPos k u).sdaO = s.sdaO := rfl
@[simp] theorem State.setPos_sclO (s : State) (k : BitVec 4) (u : BitVec 3) : (s.setPos k u).sclO = s.sclO := rfl
@[simp] theorem State.setPos_phase (s : State) (k : BitVec 4) (u : BitVec 3) : (s.setPos k u).phase = s.phase := rfl
@[simp] theorem State.setPos_idx (s : State) (k : BitVec 4) (u : BitVec 3) : (s.setPos k u).idx = s.idx := rfl
@[simp] theorem State.setPos_bitcnt (s : State) (k : BitVec 4) (u : BitVec 3) : (s.setPos k u).bitcnt = k := rfl
@[simp] theorem State.setPos_ustep (s : State) (k : BitVec 4) (u : BitVec 3) : (s.setPos k u).ustep = u := rfl
@[simp] theorem State.setPos_shreg (s : State) (k : BitVec 4) (u : BitVec 3) : (s.setPos k u).shreg = s.shreg := rfl
@[simp] theorem State.setPos_ackl (s : State) (k : BitVec 4) (u : BitVec 3) : (s.setPos k u).ackl = s.ackl := rfl
@[simp] theorem State.setPos_cw (s : State) (k : BitVec 4) (u : BitVec 3) : (s.setPos k u).cw = s.cw := rfl
@[simp] theorem State.setPos_len (s : State) (k : BitVec 4) (u : BitVec 3) : (s.setPos k u).len = s.len := rfl
@[simp] theorem State.setPos_status (s : State) (k : BitVec 4) (u : BitVec 3) : (s.setPos k u).status = s.status := rfl
@[simp] theorem State.setPos_busy (s : State) (k : BitVec 4) (u : BitVec 3) : (s.setPos k u).busy = s.busy := rfl
@[simp] theorem State.setPos_buf (s : State) (k : BitVec 4) (u : BitVec 3) : (s.setPos k u).buf = s.buf := rfl
@[simp] theorem State.setPos_trace (s : State) (k : BitVec 4) (u : BitVec 3) : (s.setPos k u).trace = s.trace := rfl
@[simp] theorem State.setPos_inited (s : State) (k : BitVec 4) (u : BitVec 3) : (s.setPos k u).inited = s.inited := rfl
@[simp] theorem State.setPos_initAt (s : State) (k : BitVec 4) (u : BitVec 3) : (s.setPos k u).initAt = s.initAt := rfl
@[simp] theorem State.setPos_host (s : State) (k : BitVec 4) (u : BitVec 3) : (s.setPos k u).host = s.host := rfl
@[simp] theorem State.setPos_sdaIn (s : State) (k : BitVec 4) (u : BitVec 3) : (s.setPos k u).sdaIn = s.sdaIn := rfl
@[simp] theorem State.setPos_sclIn (s : State) (k : BitVec 4) (u : BitVec 3) : (s.setPos k u).sclIn = s.sclIn := rfl

end Sys2Proof.Machine
end

