-- ==== Sys2Proof/Laws/ByteEngine.lean ====
section
/-! SUPPORT. What the line primitives and the byte engine do, said once: callers cite these and unfold nothing. -/

namespace Sys2Proof.Machine

theorem sdaLow_eq (s : State) : sdaLow s = { s with sdaO := .low, trace := s.trace ++ [.sdaLow] } := rfl
theorem sdaRel_eq (s : State) : sdaRel s = { s with sdaO := .rel, trace := s.trace ++ [.sdaRel] } := rfl
theorem sclLow_eq (s : State) : sclLow s = { s with sclO := .low, trace := s.trace ++ [.sclLow] } := rfl
theorem sclRel_eq (s : State) : sclRel s = { s with sclO := .rel, trace := s.trace ++ [.sclRel] } := rfl
theorem delay_eq (s : State) : delay s = { s with trace := s.trace ++ [.delay] } := rfl

/-- The driver value of a bit (R99). -/
def putDrive (b : Bool) : Drive := if b then .rel else .low

theorem putSda_eq (b : Bool) (s : State) :
    putSda b s = { s with sdaO := putDrive b, trace := s.trace ++ [putEvent b] } := by
  cases b <;> rfl

/-- A sample of the released data line uses one answer up and records it. -/
theorem sdaSample_released {s : State} (h : s.sdaO = .rel) :
    sdaSample s = { s with sdaIn := s.sdaIn.tail, trace := s.trace ++ [.sdaSample s.envSda] } := by
  simp [sdaSample, sdaSampled, lineLevel, h, State.emit, State.setSdaIn]

/-- A sample of the data line the master asserts reads LOW and asks nobody (R93, D15). -/
theorem sdaSample_asserted {s : State} (h : s.sdaO = .low) :
    sdaSample s = { s with trace := s.trace ++ [.sdaSample .low] } := by
  simp [sdaSample, sdaSampled, lineLevel, h, State.emit]

theorem sdaSampled_released {s : State} (h : s.sdaO = .rel) : sdaSampled s = s.envSda := by
  simp [sdaSampled, lineLevel, h]

/-- The environment's answer depends on the listed answers, and past their end on the history. -/
def answerSda (vs : List Level) (t : List Event) : Level :=
  match vs with
  | v :: _ => v
  | [] => Config.envSda t

theorem State.envSda_eq (s : State) : s.envSda = answerSda s.sdaIn s.trace := rfl

@[simp] theorem answerSda_cons (v : Level) (vs : List Level) (t : List Event) :
    answerSda (v :: vs) t = v := rfl

theorem outCell_eq (s : State) :
    outCell s = { s with
      sdaO := putDrive s.shreg.msb
      sclO := .low
      shreg := s.shreg <<< 1
      trace := s.trace ++ outCellEvents s.shreg.msb } := by
  simp [outCell, putSda_eq, sclRel_eq, sclLow_eq, delay_eq, State.setShreg, shiftOut, outCellEvents]

/-- The level sampled in the acknowledgment cell of `BYTE_OUT(b)` started from `s`. -/
def outAnswer (b : Byte) (s : State) : Level := answerSda s.sdaIn (s.trace ++ outHeadEvents b)

/-- `BYTE_OUT` (R111, R112): everything it does. -/
theorem byteOut_eq (b : Byte) (s : State) :
    byteOut b s = { s with
      sdaO := .low
      sclO := .low
      bitcnt := 0
      ustep := 0
      shreg := 0
      ackl := ackOf (outAnswer b s)
      trace := s.trace ++ outEvents b (outAnswer b s)
      sdaIn := s.sdaIn.tail } := by
  have h7 : b.msb = b.getLsbD 7 := rfl
  have h6 : (b <<< 1).msb = b.getLsbD 6 := by revert b; decide
  have h5 : (b <<< 1 <<< 1).msb = b.getLsbD 5 := by revert b; decide
  have h4 : (b <<< 1 <<< 1 <<< 1).msb = b.getLsbD 4 := by revert b; decide
  have h3 : (b <<< 1 <<< 1 <<< 1 <<< 1).msb = b.getLsbD 3 := by revert b; decide
  have h2 : (b <<< 1 <<< 1 <<< 1 <<< 1 <<< 1).msb = b.getLsbD 2 := by revert b; decide
  have h1 : (b <<< 1 <<< 1 <<< 1 <<< 1 <<< 1 <<< 1).msb = b.getLsbD 1 := by revert b; decide
  have h0 : (b <<< 1 <<< 1 <<< 1 <<< 1 <<< 1 <<< 1 <<< 1).msb = b.getLsbD 0 := by revert b; decide
  have hz : b <<< 1 <<< 1 <<< 1 <<< 1 <<< 1 <<< 1 <<< 1 <<< 1 = 0 := by revert b; decide
  simp only [byteOut, repeatCell, outCell_eq, State.setShreg, outAckCell, latchAck, sdaRel_eq, sclRel_eq,
    delay_eq, sclLow_eq, sdaLow_eq, State.setAckl, State.setPos]
  rw [sdaSampled_released rfl, sdaSample_released rfl]
  simp only [State.envSda_eq, h7, h6, h5, h4, h3, h2, h1, h0, hz, outAnswer, outEvents, outHeadEvents,
    List.append_assoc, List.cons_append, List.nil_append]

theorem latchBit_released {s : State} (h : s.sdaO = .rel) :
    latchBit s = { s with
      shreg := shiftIn s.shreg s.envSda
      sdaIn := s.sdaIn.tail
      trace := s.trace ++ [.sdaSample s.envSda] } := by
  simp [latchBit, sdaSample_released h, sdaSampled_released h, State.setShreg]

/-- The level sampled by a data cell of `BYTE_IN` started from `s`. -/
def inAnswer (s : State) : Level := answerSda s.sdaIn (s.trace ++ [.delay, .sclRel])

theorem inCell_eq {s : State} (h : s.sdaO = .rel) :
    inCell s = { s with
      sclO := .low
      shreg := shiftIn s.shreg (inAnswer s)
      sdaIn := s.sdaIn.tail
      trace := s.trace ++ inCellEvents (inAnswer s) } := by
  rw [inCell, latchBit_released (s := sclRel (delay s)) h]
  simp [delay_eq, sclRel_eq, sclLow_eq, State.envSda_eq, inAnswer, inCellEvents]

/-- The levels `n` data cells of `BYTE_IN` sample, the first first. -/
def inAnswers : Nat → State → List Level
  | 0, _ => []
  | n + 1, s => inAnswer s :: inAnswers n (inCell s)

@[simp] theorem inAnswers_length (n : Nat) (s : State) : (inAnswers n s).length = n := by
  induction n generalizing s with
  | zero => rfl
  | succ n ih => simp [inAnswers, ih]

/-- `n` data cells of `BYTE_IN`, one after another. -/
theorem repeat_inCell_eq (n : Nat) {s : State} (h : s.sdaO = .rel) :
    repeatCell inCell (n + 1) s = { s with
      sclO := .low
      shreg := (inAnswers (n + 1) s).foldl shiftIn s.shreg
      sdaIn := s.sdaIn.drop (n + 1)
      trace := s.trace ++ (inAnswers (n + 1) s).flatMap inCellEvents } := by
  induction n generalizing s with
  | zero => simp [repeatCell, inCell_eq h, inAnswers]
  | succ n ih =>
    have hc := inCell_eq h
    have hr : (inCell s).sdaO = .rel := by rw [hc]; exact h
    rw [repeatCell, ih hr]
    have e : inAnswers (n + 1 + 1) s = inAnswer s :: inAnswers (n + 1) (inCell s) := rfl
    rw [e]
    generalize inAnswers (n + 1) (inCell s) = vs
    rw [hc]
    simp [Nat.add_comm]

/-- While answers are listed, the levels sampled are the answers. -/
theorem inAnswers_listed (vs rest : List Level) {s : State} (h : s.sdaO = .rel) (hs : s.sdaIn = vs ++ rest) :
    inAnswers vs.length s = vs := by
  induction vs generalizing s with
  | nil => rfl
  | cons v vs ih =>
    have hr : (inCell s).sdaO = .rel := by rw [inCell_eq h]; exact h
    simp only [List.length_cons, inAnswers]
    rw [ih hr (by rw [inCell_eq h]; simp [hs])]
    simp [inAnswer, hs]

/-- The eight levels `BYTE_IN` samples, started from `s`. -/
def byteAnswers (s : State) : List Level := inAnswers 8 ((sdaRel s).setShreg 0)

@[simp] theorem byteAnswers_length (s : State) : (byteAnswers s).length = 8 := inAnswers_length 8 _

/-- The byte eight sampled levels make (R113): the first is bit 7. -/
def byteOf (vs : List Level) : Byte := vs.foldl shiftIn 0

/-- `BYTE_IN` (R113, R114): everything it does. `ACKL` is not among it. -/
theorem byteIn_eq (last : Bool) (s : State) :
    byteIn last s = { s with
      sdaO := .low
      sclO := .low
      bitcnt := 0
      ustep := 0
      shreg := byteOf (byteAnswers s)
      trace := s.trace ++ inEvents last (byteAnswers s)
      sdaIn := s.sdaIn.drop 8 } := by
  have h : ((sdaRel s).setShreg 0).sdaO = .rel := rfl
  have e := repeat_inCell_eq 7 h
  rw [byteIn, e]
  simp only [byteAnswers, byteOf, inEvents]
  generalize inAnswers (7 + 1) ((sdaRel s).setShreg 0) = vs
  simp [inAckCell, putSda_eq, sclRel_eq, delay_eq, sclLow_eq, sdaLow_eq, sdaRel_eq, State.setPos, State.setShreg]

/-- The eight levels of a byte, read back, are the byte (R117 d). -/
theorem byteOf_byteLevels (b : Byte) : byteOf (byteLevels b) = b := by
  revert b; decide

/-- `BYTE_IN` that is answered with a byte's levels returns the byte (R117 d). -/
theorem byteAnswers_listed (b : Byte) (rest : List Level) {s : State} (hs : s.sdaIn = byteLevels b ++ rest) :
    byteAnswers s = byteLevels b :=
  inAnswers_listed (byteLevels b) rest rfl hs

end Sys2Proof.Machine
end

