-- ==== Sys2Proof/Laws/Memory.lean ====
section
/-! SUPPORT. The laws of the buffer: read after write, and that every operation keeps the canonical form. -/

namespace Sys2Proof.Machine

@[simp] theorem Memory.read_nil (a : Nat) : Memory.read [] a = Memory.unlisted := rfl

theorem Memory.read_cons_cell (b : Nat) (w : Byte) (m : Memory) (a : Nat) :
    Memory.read ((b, w) :: m) a = if a = b then w else m.read a := rfl

/-- Below the first index it may list, a canonical memory lists nothing. -/
theorem Memory.read_below {lo : Nat} {m : Memory} (h : m.wfFrom lo = true) {a : Nat} (ha : a < lo) :
    m.read a = Memory.unlisted := by
  induction m generalizing lo with
  | nil => rfl
  | cons c m ih =>
    obtain ⟨b, w⟩ := c
    simp only [Memory.wfFrom, Bool.and_eq_true, decide_eq_true_eq] at h
    obtain ⟨⟨hb, -⟩, hm⟩ := h
    rw [Memory.read_cons_cell, if_neg (by omega)]
    exact ih hm (by omega)

theorem Memory.wfFrom_mono {lo lo' : Nat} {m : Memory} (h : m.wfFrom lo = true) (hl : lo' ≤ lo) :
    m.wfFrom lo' = true := by
  cases m with
  | nil => rfl
  | cons c m =>
    obtain ⟨b, w⟩ := c
    simp only [Memory.wfFrom, Bool.and_eq_true, decide_eq_true_eq] at h ⊢
    exact ⟨⟨hl.trans h.1.1, h.1.2⟩, h.2⟩

theorem Memory.read_cons {a : Nat} {v : Byte} {m : Memory} (h : m.wfFrom (a + 1) = true) (x : Nat) :
    (Memory.cons a v m).read x = if x = a then v else m.read x := by
  unfold Memory.cons
  split
  · next hv =>
    split
    · next hx => rw [Memory.read_below h (by omega), hv]
    · rfl
  · exact Memory.read_cons_cell a v m x

theorem Memory.wfFrom_cons {lo a : Nat} {v : Byte} {m : Memory} (ha : lo ≤ a) (h : m.wfFrom (a + 1) = true) :
    (Memory.cons a v m).wfFrom lo = true := by
  unfold Memory.cons
  split
  · exact Memory.wfFrom_mono h (by omega)
  · next hv => simp [Memory.wfFrom, ha, hv, h]

/-- A write keeps the canonical form. -/
theorem Memory.wfFrom_write {lo a : Nat} {m : Memory} (h : m.wfFrom lo = true) (ha : lo ≤ a) (v : Byte) :
    (m.write a v).wfFrom lo = true := by
  induction m generalizing lo with
  | nil => exact Memory.wfFrom_cons ha rfl
  | cons c m ih =>
    obtain ⟨b, w⟩ := c
    have h' := h
    simp only [Memory.wfFrom, Bool.and_eq_true, decide_eq_true_eq] at h
    obtain ⟨⟨hb, hw⟩, hm⟩ := h
    unfold Memory.write
    split
    · refine Memory.wfFrom_cons ha ?_
      simp only [Memory.wfFrom, Bool.and_eq_true, decide_eq_true_eq]
      exact ⟨⟨by omega, hw⟩, hm⟩
    · split
      · next hab => exact Memory.wfFrom_cons ha (hab ▸ hm)
      · simp only [Memory.wfFrom, Bool.and_eq_true, decide_eq_true_eq]
        exact ⟨⟨hb, hw⟩, ih hm (by omega)⟩

/-- A read after a write: the byte written at its index, every other index as before. -/
theorem Memory.read_write {lo : Nat} {m : Memory} (h : m.wfFrom lo = true) (a : Nat) (v : Byte) (x : Nat) :
    (m.write a v).read x = if x = a then v else m.read x := by
  induction m generalizing lo with
  | nil => exact Memory.read_cons rfl x
  | cons c m ih =>
    obtain ⟨b, w⟩ := c
    simp only [Memory.wfFrom, Bool.and_eq_true, decide_eq_true_eq] at h
    obtain ⟨⟨hb, hw⟩, hm⟩ := h
    unfold Memory.write
    split
    · next hab =>
      refine Memory.read_cons ?_ x
      simp only [Memory.wfFrom, Bool.and_eq_true, decide_eq_true_eq]
      exact ⟨⟨by omega, hw⟩, hm⟩
    · split
      · next hab =>
        subst hab
        rw [Memory.read_cons hm, Memory.read_cons_cell]
        split <;> rfl
      · next hab =>
        rw [Memory.read_cons_cell, ih hm, Memory.read_cons_cell]
        by_cases hx : x = b
        · rw [if_pos hx, if_pos hx, if_neg (by omega)]
        · rw [if_neg hx, if_neg hx]

/-- A buffer made of bytes is canonical. -/
theorem Memory.wfFrom_ofBytes (a : Nat) (bs : List Byte) : (Memory.ofBytes a bs).wfFrom a = true := by
  induction bs generalizing a with
  | nil => rfl
  | cons b bs ih => exact Memory.wfFrom_cons le_rfl (ih (a + 1))

/-- A buffer made of bytes reads as those bytes, and as unlisted elsewhere. -/
theorem Memory.read_ofBytes (a : Nat) (bs : List Byte) (x : Nat) :
    (Memory.ofBytes a bs).read x = if a ≤ x then bs.getD (x - a) Memory.unlisted else Memory.unlisted := by
  induction bs generalizing a with
  | nil => simp [Memory.ofBytes]
  | cons b bs ih =>
    unfold Memory.ofBytes
    rw [Memory.read_cons (Memory.wfFrom_ofBytes (a + 1) bs), ih]
    by_cases hx : x = a
    · subst hx; simp
    · by_cases hl : a ≤ x
      · have : x - a = (x - (a + 1)) + 1 := by omega
        rw [if_neg hx, if_pos (by omega), if_pos hl, this, List.getD_cons_succ]
      · rw [if_neg hx, if_neg (by omega), if_neg hl]

theorem Memory.wf_write {m : Memory} (h : m.wf = true) (a : Nat) (v : Byte) : (m.write a v).wf = true :=
  Memory.wfFrom_write h (Nat.zero_le a) v

theorem Memory.wf_ofBytes (bs : List Byte) : (Memory.ofBytes 0 bs).wf = true :=
  Memory.wfFrom_ofBytes 0 bs

end Sys2Proof.Machine
end

