-- ==== Sys2Proof/Laws/Commands.lean ====
section
/-! SUPPORT. What framing and the public commands' parts do, said once. -/

namespace Sys2Proof.Machine

theorem startCond_eq (s : State) :
    startCond s = { s with sdaO := .low, sclO := .low, trace := s.trace ++ startEvents } := by
  simp [startCond, sdaLow_eq, delay_eq, sclLow_eq, startEvents]

/-- `END` (42_framing.md R131): everything it does. -/
theorem endTx_eq (s : State) :
    endTx s = { s with
      sdaO := .rel
      sclO := .rel
      bitcnt := 0
      ustep := 0
      trace := s.trace ++ stopEvents } := by
  simp [endTx, stopCond, sclRel_eq, delay_eq, sdaRel_eq, State.setPos, stopEvents]

/-- The level sampled for the address byte of `BEGIN` started from `s`. -/
def beginAnswer (a : Addr) (d : Dir) (s : State) : Level := outAnswer (addressByte a d) (startCond s)

/-- `BEGIN` (R130): everything it does. -/
theorem beginTx_eq (a : Addr) (d : Dir) (s : State) :
    beginTx a d s = { s with
      sdaO := .low
      sclO := .low
      bitcnt := 0
      ustep := 0
      shreg := 0
      ackl := ackOf (beginAnswer a d s)
      trace := s.trace ++ (startEvents ++ outEvents (addressByte a d) (beginAnswer a d s))
      sdaIn := s.sdaIn.tail } := by
  rw [beginTx, byteOut_eq, beginAnswer, startCond_eq]
  simp

/-- `INIT` (43_public_commands.md R150): everything it does. -/
theorem init_eq (s : State) :
    init s = { s with
      sdaO := .rel
      sclO := .rel
      busy := false
      inited := true
      initAt := .none
      trace := s.trace ++ [.sdaRel, .sclRel] } := by
  simp [init, finishInit, sdaRel_eq, sclRel_eq, State.setInitAt, State.setInited, State.setBusy]

/-- A byte operation of a WRITE leaves this form: lines held, position at 0, 0, the shifter empty. -/
structure AfterByte (s : State) : Prop where
  sdaO : s.sdaO = .low
  sclO : s.sclO = .low
  bitcnt : s.bitcnt = 0
  ustep : s.ustep = 0

theorem afterByte_byteOut (b : Byte) (s : State) : AfterByte (byteOut b s) := by
  rw [byteOut_eq]; exact ⟨rfl, rfl, rfl, rfl⟩

theorem AfterByte.setIdx {s : State} (h : AfterByte s) (n : Nat) : AfterByte (s.setIdx n) :=
  ⟨h.sdaO, h.sclO, h.bitcnt, h.ustep⟩

theorem afterByte_byteIn (l : Bool) (s : State) : AfterByte (byteIn l s) := by
  rw [byteIn_eq]; exact ⟨rfl, rfl, rfl, rfl⟩

theorem afterByte_beginTx (a : Addr) (d : Dir) (s : State) : AfterByte (beginTx a d s) :=
  afterByte_byteOut _ _

/-- What the data part of a WRITE may change: the line drivers, the position, `SHREG`, `ACKL`, `IDX`, the
trace and the answers. -/
structure WriteFrame (s t : State) : Prop where
  phase : t.phase = s.phase
  cw : t.cw = s.cw
  len : t.len = s.len
  status : t.status = s.status
  busy : t.busy = s.busy
  buf : t.buf = s.buf
  inited : t.inited = s.inited
  initAt : t.initAt = s.initAt
  host : t.host = s.host
  sclIn : t.sclIn = s.sclIn

theorem WriteFrame.refl (s : State) : WriteFrame s s := by constructor <;> rfl

theorem WriteFrame.trans {s t u : State} (h : WriteFrame s t) (g : WriteFrame t u) : WriteFrame s u :=
  ⟨g.phase.trans h.phase, g.cw.trans h.cw, g.len.trans h.len, g.status.trans h.status,
    g.busy.trans h.busy, g.buf.trans h.buf, g.inited.trans h.inited, g.initAt.trans h.initAt,
    g.host.trans h.host, g.sclIn.trans h.sclIn⟩

theorem writeFrame_byteOut (b : Byte) (s : State) : WriteFrame s (byteOut b s) := by
  rw [byteOut_eq]; constructor <;> rfl

theorem writeFrame_byteIn (l : Bool) (s : State) : WriteFrame s (byteIn l s) := by
  rw [byteIn_eq]; constructor <;> rfl

theorem writeFrame_beginTx (a : Addr) (d : Dir) (s : State) : WriteFrame s (beginTx a d s) := by
  rw [beginTx_eq]; constructor <;> rfl

theorem writeFrame_setIdx (n : Nat) (s : State) : WriteFrame s (s.setIdx n) := by constructor <;> rfl

theorem writeFrame_endTx (s : State) : WriteFrame s (endTx s) := by
  rw [endTx_eq]; constructor <;> rfl

/-- One turn of the loop of a WRITE: a NACK ends it, an ACK goes on with the next byte. -/
theorem writeLoop_succ (n acked : Nat) (s : State) :
    writeLoop (n + 1) acked s =
      match outAnswer s.bufByte s with
      | .high => (acked, byteOut s.bufByte s)
      | .low => writeLoop n (acked + 1) ((byteOut s.bufByte s).setIdx (s.idx + 1)) := by
  have ha : (byteOut s.bufByte s).ackl = ackOf (outAnswer s.bufByte s) := by rw [byteOut_eq]
  have hi : (byteOut s.bufByte s).idx = s.idx := by rw [byteOut_eq]
  simp only [writeLoop, ha, hi]
  cases outAnswer s.bufByte s <;> rfl

theorem writeFrame_writeLoop (n acked : Nat) (s : State) : WriteFrame s (writeLoop n acked s).2 := by
  induction n generalizing acked s with
  | zero => exact WriteFrame.refl s
  | succ n ih =>
    have hb := writeFrame_byteOut s.bufByte s
    rw [writeLoop_succ]
    cases outAnswer s.bufByte s with
    | low => exact (hb.trans (writeFrame_setIdx _ _)).trans (ih _ _)
    | high => exact hb

theorem afterByte_writeLoop (n acked : Nat) {s : State} (h : AfterByte s) :
    AfterByte (writeLoop n acked s).2 := by
  induction n generalizing acked s with
  | zero => exact h
  | succ n ih =>
    have hb := afterByte_byteOut s.bufByte s
    rw [writeLoop_succ]
    cases outAnswer s.bufByte s with
    | low => exact ih _ (hb.setIdx _)
    | high => exact hb

/-- The data part of a WRITE stores nothing and leaves the lines held. -/
theorem writeData_frame {s : State} (h : AfterByte s) :
    WriteFrame s (writeData s).2 ∧ AfterByte (writeData s).2 := by
  rw [writeData]
  cases s.ackl with
  | nack => exact ⟨WriteFrame.refl s, h⟩
  | ack =>
    exact ⟨(writeFrame_setIdx 0 s).trans (writeFrame_writeLoop _ _ _),
      afterByte_writeLoop _ _ (h.setIdx 0)⟩

/-- One turn of the loop of a READ: everything it does. -/
theorem readByte_eq (s : State) :
    readByte s = { s with
      sdaO := .low
      sclO := .low
      idx := s.idx + 1
      bitcnt := 0
      ustep := 0
      shreg := byteOf (byteAnswers s)
      buf := s.buf.write s.idx (byteOf (byteAnswers s))
      trace := s.trace ++ inEvents s.isLast (byteAnswers s)
      sdaIn := s.sdaIn.drop 8 } := by
  simp [readByte, byteIn_eq, State.storeByte, State.setBuf, State.setIdx]

/-- A loop keeps what each turn keeps. -/
theorem repeatCell_induct {P : State → Prop} {f : State → State} (hf : ∀ s, P s → P (f s)) (n : Nat)
    {s : State} (h : P s) : P (repeatCell f n s) := by
  induction n generalizing s with
  | zero => exact h
  | succ n ih => exact ih (hf s h)

/-- A READ keeps the buffer canonical. -/
theorem wf_readData {s : State} (h : s.buf.wf = true) : (readData s).buf.wf = true := by
  rw [readData]
  cases s.ackl with
  | nack => exact h
  | ack =>
    refine repeatCell_induct (P := fun t => t.buf.wf = true) (fun t ht => ?_) _ h
    rw [readByte_eq]
    exact Memory.wf_write ht _ _

end Sys2Proof.Machine
end

