-- ==== Sys2Proof/Laws/PerInstr.lean ====
section
/-! SUPPORT. Facts stated for every instruction, one lemma for each constructor. -/

namespace Sys2Proof.Laws.TableRow

open Sys2Proof

/-- The word of an instruction has the fixed bits of its row of spec/opcode_table.json and of no other
row (30_encoding.md R71, R72). -/
def Statement (i : Instr) : Prop := rowsOf (encode i) = [mnemonic i]

theorem init : Statement .init := by unfold Statement; decide

theorem write (a : Addr) : Statement (.write a) := by
  unfold Statement; revert a; decide

theorem read (a : Addr) : Statement (.read a) := by
  unfold Statement; revert a; decide

theorem beginTx (a : Addr) (d : Dir) : Statement (.beginTx a d) := by
  unfold Statement; cases d <;> (revert a; decide)

theorem endTx : Statement .endTx := by unfold Statement; decide

theorem byteOut (b : Byte) : Statement (.byteOut b) := by
  unfold Statement; revert b; decide

theorem byteIn (l : Bool) : Statement (.byteIn l) := by
  unfold Statement; revert l; decide

theorem sdaLow : Statement .sdaLow := by unfold Statement; decide

theorem sdaRel : Statement .sdaRel := by unfold Statement; decide

theorem sdaSample : Statement .sdaSample := by unfold Statement; decide

theorem delay : Statement .delay := by unfold Statement; decide

theorem sclLow : Statement .sclLow := by unfold Statement; decide

theorem sclRel : Statement .sclRel := by unfold Statement; decide

theorem sclSample : Statement .sclSample := by unfold Statement; decide

end Sys2Proof.Laws.TableRow
end

