-- ==== Sys2Proof/Laws/Sequencer.lean ====
section
/-! SUPPORT. What one step of the sequencer can do, said once: inversion lemmas for its parts. -/

namespace Sys2Proof.Machine

/-- After a primitive the master goes to the next position of its operation, or ends it. -/
theorem advance_cases (n : NextPos) (f : State → State) (s : State) :
    (∃ k u, n = .more k u ∧ advance n f s = s.setPos k u) ∨ (n = .done ∧ advance n f s = f s) := by
  cases n with
  | more k u => exact .inl ⟨k, u, rfl, rfl⟩
  | done => exact .inr ⟨rfl, rfl⟩

@[simp] theorem primitiveStep_some (u : State) (n : NextPos) (f : State → State) (s : State) :
    primitiveStep (some u) n f s = advance n f u := rfl

@[simp] theorem primitiveStep_none (n : NextPos) (f : State → State) (s : State) :
    primitiveStep none n f s = s := rfl

/-- `SHREG` as the first primitive of a data cell sees it (R112: `SHREG <- byte` before the first). -/
def loadFirst (byte : Byte) (k : BitVec 4) (s : State) : State :=
  if k.toNat = 0 then s.setShreg byte else s

/-- The rows of R112. -/
theorem outPrimitive_cases {byte : Byte} {k : BitVec 4} {u : BitVec 3} {s t : State}
    (h : outPrimitive byte k u s = some t) :
    (k.toNat ≤ 7 ∧
      ((u.toNat = 0 ∧ t = putSda (loadFirst byte k s).shreg.msb (loadFirst byte k s)) ∨
       (u.toNat = 1 ∧ t = sclRel s) ∨ (u.toNat = 2 ∧ t = delay s) ∨
       (u.toNat = 3 ∧ t = (sclLow s).setShreg (shiftOut s.shreg)) ∨ (u.toNat = 4 ∧ t = delay s))) ∨
    (k.toNat = 8 ∧
      ((u.toNat = 0 ∧ t = sdaRel s) ∨ (u.toNat = 1 ∧ t = sclRel s) ∨ (u.toNat = 2 ∧ t = delay s) ∨
       (u.toNat = 3 ∧ t = latchAck s) ∨ (u.toNat = 4 ∧ t = sclLow s) ∨ (u.toNat = 5 ∧ t = sdaLow s) ∨
       (u.toNat = 6 ∧ t = delay s))) := by
  unfold outPrimitive at h
  split at h
  · next hk =>
    refine .inl ⟨hk, ?_⟩
    split at h <;> simp_all [loadFirst]
  · split at h
    · next hk =>
      refine .inr ⟨hk, ?_⟩
      split at h <;> simp_all
    · simp at h

/-- The rows of R114. -/
theorem inPrimitive_cases {last : Bool} {k : BitVec 4} {u : BitVec 3} {s t : State}
    (h : inPrimitive last k u s = some t) :
    (k.toNat = 15 ∧ u.toNat = 0 ∧ t = (sdaRel s).setShreg 0) ∨
    (k.toNat ≤ 7 ∧
      ((u.toNat = 0 ∧ t = delay s) ∨ (u.toNat = 1 ∧ t = sclRel s) ∨ (u.toNat = 2 ∧ t = latchBit s) ∨
       (u.toNat = 3 ∧ t = delay s) ∨ (u.toNat = 4 ∧ t = sclLow s))) ∨
    (k.toNat = 8 ∧
      ((u.toNat = 0 ∧ t = putSda last s) ∨ (u.toNat = 1 ∧ t = sclRel s) ∨ (u.toNat = 2 ∧ t = delay s) ∨
       (u.toNat = 3 ∧ t = sclLow s) ∨ (u.toNat = 4 ∧ t = sdaLow s) ∨ (u.toNat = 5 ∧ t = delay s))) := by
  unfold inPrimitive at h
  split at h
  · next hk =>
    left
    subst hk
    split at h <;> simp_all [openingMark]
  · split at h
    · next hk =>
      refine .inr (.inl ⟨hk, ?_⟩)
      split at h <;> simp_all
    · split at h
      · next hk =>
        refine .inr (.inr ⟨hk, ?_⟩)
        split at h <;> simp_all
      · simp at h

/-- The rows of the START phase (R130). -/
theorem startPrimitive_cases {u : BitVec 3} {s t : State} (h : startPrimitive u s = some t) :
    (u.toNat = 0 ∧ t = sdaLow s) ∨ (u.toNat = 1 ∧ t = delay s) ∨ (u.toNat = 2 ∧ t = sclLow s) ∨
    (u.toNat = 3 ∧ t = delay s) := by
  unfold startPrimitive at h
  split at h <;> simp_all

/-- The rows of the STOP phase (R131). -/
theorem stopPrimitive_cases {u : BitVec 3} {s t : State} (h : stopPrimitive u s = some t) :
    (u.toNat = 0 ∧ t = sclRel s) ∨ (u.toNat = 1 ∧ t = delay s) ∨ (u.toNat = 2 ∧ t = sdaRel s) := by
  unfold stopPrimitive at h
  split at h <;> simp_all

/-! ### The step at each phase -/

theorem transferStep_start {d : Dir} {a : Addr} {s : State} (h : s.phase = .start) :
    transferStep d a s =
      primitiveStep (startPrimitive s.ustep s) (framingNext 4 s.bitcnt s.ustep) (enterPhase .address) s := by
  simp [transferStep, h]

theorem transferStep_address {d : Dir} {a : Addr} {s : State} (h : s.phase = .address) :
    transferStep d a s =
      primitiveStep (outPrimitive (addressByte a d) s.bitcnt s.ustep s) (outNext s.bitcnt s.ustep)
        (afterAddress d) s := by
  simp [transferStep, h]

theorem transferStep_dataWrite {a : Addr} {s : State} (h : s.phase = .data) (hi : s.idx < s.len) :
    transferStep .write a s =
      primitiveStep (outPrimitive s.bufByte s.bitcnt s.ustep s) (outNext s.bitcnt s.ustep) (afterData .write) s := by
  simp [transferStep, h, hi]

theorem transferStep_dataRead {a : Addr} {s : State} (h : s.phase = .data) (hi : s.idx < s.len) :
    transferStep .read a s =
      primitiveStep (inPrimitive s.isLast s.bitcnt s.ustep s) (inNext s.bitcnt s.ustep) (afterData .read) s := by
  simp [transferStep, h, hi]

theorem transferStep_stop {d : Dir} {a : Addr} {s : State} (h : s.phase = .stop) :
    transferStep d a s =
      primitiveStep (stopPrimitive s.ustep s) (framingNext 3 s.bitcnt s.ustep) (afterStop d) s := by
  simp [transferStep, h]

theorem sequencerStep_initSda {s : State} (h : s.initAt = .sdaRel) :
    sequencerStep s = (sdaRel s).setInitAt .sclRel := by simp [sequencerStep, h]

theorem sequencerStep_initScl {s : State} (h : s.initAt = .sclRel) :
    sequencerStep s = finishInit (sclRel s) := by simp [sequencerStep, h]

theorem sequencerStep_transfer {s : State} {d : Dir} {a : Addr} (h : s.initAt = .none)
    (ht : transferOf s.cw = some (d, a)) : sequencerStep s = transferStep d a s := by
  simp [sequencerStep, h, ht]

end Sys2Proof.Machine
end

