-- ==== Sys2Proof/Laws/Step.lean ====
section
/-! SUPPORT. What the command interface and a step can do, said once. -/

namespace Sys2Proof.Machine

/-- A word the interface accepts decodes to the operation it is accepted as. -/
theorem decode_of_screenWord {p : Presenter} {w : CmdWord} {q : Bool} {i : Instr} (h : screenWord p w q = .ok i) :
    decode w = .ok i := by
  unfold screenWord at h
  cases hd : decode w with
  | error e => rw [hd] at h; cases h
  | ok j =>
    rw [hd] at h
    cases p with
    | micro => simpa using h
    | call | poll =>
      simp only at h
      split at h
      · split at h
        · cases h
        · simpa using h
      · cases h

/-- What the interface accepts from the host is a public operation, and a WRITE or READ only after an INIT
(R80, R212). -/
theorem host_screenWord {p : Presenter} {w : CmdWord} {q : Bool} {i : Instr} (hp : p ≠ .micro)
    (h : screenWord p w q = .ok i) : hostIssuable i = true ∧ (needsInit i = true → q = true) := by
  unfold screenWord at h
  cases hd : decode w with
  | error e => rw [hd] at h; cases h
  | ok j =>
    rw [hd] at h
    cases p with
    | micro => exact absurd rfl hp
    | call | poll =>
      simp only at h
      split at h
      · next hi =>
        split at h
        · cases h
        · next hn =>
          obtain rfl : j = i := by simpa using h
          refine ⟨hi, fun hj => ?_⟩
          cases q <;> simp_all
      · cases h

/-- The public operations. -/
theorem hostIssuable_cases {i : Instr} (h : hostIssuable i = true) :
    i = .init ∨ (∃ a, i = .write a) ∨ (∃ a, i = .read a) := by
  cases i <;> simp_all [hostIssuable]

/-- A word that decodes to WRITE or READ names that transfer. -/
theorem transferOf_write {w : CmdWord} {a : Addr} (h : decode w = .ok (.write a)) :
    transferOf w = some (.write, a) := by simp [transferOf, h]

theorem transferOf_read {w : CmdWord} {a : Addr} (h : decode w = .ok (.read a)) :
    transferOf w = some (.read, a) := by simp [transferOf, h]

/-- Everything a step can do when it answers a next state: a primitive of a busy master, nothing in an idle
one, a command run to its end, or a polled command's acceptance. -/
theorem step_next {s t : State} (h : step s = .next t) :
    (s.busy = true ∧ t = sequencerStep s) ∨
    (s.busy = false ∧ s.host = [] ∧ t = s) ∨
    ∃ r rest i, s.busy = false ∧ s.host = r :: rest ∧ screenWord r.presenter r.word s.inited = .ok i ∧
      ((r.presenter ≠ .poll ∧ exec i (present r i { s with host := rest }) = .next t) ∨
       (r.presenter = .poll ∧ t = accept i (present r i { s with host := rest }))) := by
  unfold step at h
  split at h
  · next hs =>
    split at h
    · next hb => exact .inl ⟨hb, by simpa using h.symm⟩
    · next hb => exact .inr (.inl ⟨by simpa using hb, hs, by simpa using h.symm⟩)
  · next r rest hs =>
    split at h
    · next hb =>
      split at h
      · exact .inl ⟨hb, by simpa using h.symm⟩
      · cases h
    · next hb =>
      refine .inr (.inr ⟨r, rest, ?_⟩)
      simp only [issue] at h
      split at h
      · cases h
      · next i hi =>
        refine ⟨i, by simpa using hb, hs, hi, ?_⟩
        split at h
        · next hp => exact .inr ⟨hp, by simpa using h.symm⟩
        · next hp => exact .inl ⟨hp, h⟩

/-- A run of no step, and of one step more. -/
theorem run_zero (s : State) : Sys2Proof.core.run 0 s = .next s := rfl

theorem run_succ {s t : State} (h : step s = .next t) (n : Nat) :
    Sys2Proof.core.run (n + 1) s = Sys2Proof.core.run n t := by
  have : Sys2Proof.core.step s = .next t := h
  simp [Host.Core.run, this]

/-- A busy master under a passive host takes a step of the sequencer. -/
theorem step_busy {s : State} (hh : s.host = []) (hb : s.busy = true) : step s = .next (sequencerStep s) := by
  simp [step, hh, hb]

/-- The same when the host holds its next word back (R216). -/
theorem step_busy_waits {s : State} {r : Request} {rest : List Request} (hh : s.host = r :: rest)
    (hw : r.waits = true) (hb : s.busy = true) : step s = .next (sequencerStep s) := by
  simp [step, hh, hb, hw]

end Sys2Proof.Machine
end

