-- ==== Sys2Proof/Laws/Transfer.lean ====
section
/-! SUPPORT. What one primitive of a transfer changes and where it leaves the lines: the facts every invariant of the sequencer is derived from. -/

namespace Sys2Proof.Machine

/-! ### What a primitive leaves alone -/

/-- The registers no primitive of a byte operation or framing step writes. -/
structure PrimFrame (s t : State) : Prop where
  phase : t.phase = s.phase
  cw : t.cw = s.cw
  len : t.len = s.len
  idx : t.idx = s.idx
  status : t.status = s.status
  busy : t.busy = s.busy
  buf : t.buf = s.buf
  inited : t.inited = s.inited
  initAt : t.initAt = s.initAt
  host : t.host = s.host
  sclIn : t.sclIn = s.sclIn

theorem PrimFrame.trans {s t u : State} (h : PrimFrame s t) (g : PrimFrame t u) : PrimFrame s u :=
  ⟨g.phase.trans h.phase, g.cw.trans h.cw, g.len.trans h.len, g.idx.trans h.idx, g.status.trans h.status,
    g.busy.trans h.busy, g.buf.trans h.buf, g.inited.trans h.inited, g.initAt.trans h.initAt,
    g.host.trans h.host, g.sclIn.trans h.sclIn⟩

theorem PrimFrame.isLast {s t : State} (h : PrimFrame s t) : t.isLast = s.isLast := by
  unfold State.isLast; rw [h.idx, h.len]

theorem primFrame_sdaSample (s : State) : PrimFrame s (sdaSample s) := by
  cases h : s.sdaO
  · rw [sdaSample_asserted h]; constructor <;> rfl
  · rw [sdaSample_released h]; constructor <;> rfl

theorem primFrame_latchAck (s : State) : PrimFrame s (latchAck s) :=
  (primFrame_sdaSample s).trans (by constructor <;> rfl)

theorem primFrame_latchBit (s : State) : PrimFrame s (latchBit s) :=
  (primFrame_sdaSample s).trans (by constructor <;> rfl)

theorem primFrame_putSda (b : Bool) (s : State) : PrimFrame s (putSda b s) := by
  rw [putSda_eq]; constructor <;> rfl

theorem sdaSample_lines (s : State) : (sdaSample s).sdaO = s.sdaO ∧ (sdaSample s).sclO = s.sclO := by
  cases h : s.sdaO
  · rw [sdaSample_asserted h]; exact ⟨h, rfl⟩
  · rw [sdaSample_released h]; exact ⟨h, rfl⟩

theorem latchAck_lines (s : State) : (latchAck s).sdaO = s.sdaO ∧ (latchAck s).sclO = s.sclO :=
  sdaSample_lines s

theorem latchBit_lines (s : State) : (latchBit s).sdaO = s.sdaO ∧ (latchBit s).sclO = s.sclO :=
  sdaSample_lines s

theorem loadFirst_frame (b : Byte) (k : BitVec 4) (s : State) :
    PrimFrame s (loadFirst b k s) ∧ (loadFirst b k s).sdaO = s.sdaO ∧ (loadFirst b k s).sclO = s.sclO := by
  unfold loadFirst
  split <;> exact ⟨by constructor <;> rfl, rfl, rfl⟩

/-! ### The tables keep the lines where the position says -/

theorem ustep_eq {u : BitVec 3} {n : Nat} (h : u.toNat = n) : u = BitVec.ofNat 3 n := by
  apply BitVec.eq_of_toNat_eq; simp [← h]

/-- A primitive of `BYTE_OUT` (R112) keeps the lines where the position puts them, and the last one leaves
both held (R116). -/
theorem outPrimitive_lines {b : Byte} {k : BitVec 4} {u : BitVec 3} {s t : State}
    (hl : OutLines k.toNat u.toNat s.sdaO s.sclO) (h : outPrimitive b k u s = some t) :
    PrimFrame s t ∧ (∀ k' u', outNext k u = .more k' u' → OutLines k'.toNat u'.toNat t.sdaO t.sclO) ∧
      (outNext k u = .done → t.HeldLines) := by
  rcases outPrimitive_cases h with ⟨hk, hc⟩ | ⟨hk, hc⟩
  · have hs : s.sclO = (if u.toNat = 2 ∨ u.toNat = 3 then .rel else .low) := by
      rcases hl with h | h
      · exact h.2.2.1
      · omega
    have e : (k.toNat + 1) % 16 = k.toNat + 1 := by omega
    rcases hc with ⟨hu, rfl⟩ | ⟨hu, rfl⟩ | ⟨hu, rfl⟩ | ⟨hu, rfl⟩ | ⟨hu, rfl⟩
    all_goals obtain rfl := ustep_eq hu
    all_goals refine ⟨?_, ?_, ?_⟩
    all_goals try (first | exact (loadFirst_frame _ _ _).1.trans (primFrame_putSda _ _) | (constructor <;> rfl))
    all_goals simp only [outNext, hk, if_true]
    all_goals simp
    all_goals simp_all [OutLines, putSda_eq, sclRel_eq, sclLow_eq, delay_eq, (loadFirst_frame _ _ _).2]
    all_goals omega
  · obtain rfl : k = 8#4 := BitVec.eq_of_toNat_eq hk
    rcases hc with ⟨hu, rfl⟩ | ⟨hu, rfl⟩ | ⟨hu, rfl⟩ | ⟨hu, rfl⟩ | ⟨hu, rfl⟩ | ⟨hu, rfl⟩ | ⟨hu, rfl⟩
    all_goals obtain rfl := ustep_eq hu
    all_goals refine ⟨?_, ?_, ?_⟩
    all_goals try (first | exact primFrame_latchAck _ | (constructor <;> rfl))
    all_goals simp only [outNext]
    all_goals simp
    all_goals simp_all [OutLines, State.HeldLines, sdaRel_eq, sdaLow_eq, sclRel_eq, sclLow_eq, delay_eq,
      (latchAck_lines _)]

/-- The same for `BYTE_IN` (R114, R116). -/
theorem inPrimitive_lines {l : Bool} {k : BitVec 4} {u : BitVec 3} {s t : State}
    (hl : InLines l k.toNat u.toNat s.sdaO s.sclO) (h : inPrimitive l k u s = some t) :
    PrimFrame s t ∧ (∀ k' u', inNext k u = .more k' u' → InLines l k'.toNat u'.toNat t.sdaO t.sclO) ∧
      (inNext k u = .done → t.HeldLines) := by
  rcases inPrimitive_cases h with ⟨hk, hu, rfl⟩ | ⟨hk, hc⟩ | ⟨hk, hc⟩
  · obtain rfl : k = 15#4 := BitVec.eq_of_toNat_eq hk
    obtain rfl := ustep_eq hu
    refine ⟨by constructor <;> rfl, ?_, ?_⟩
    all_goals simp [inNext, openingMark]
    simp_all [InLines, sdaRel_eq]
  · have hn : k ≠ openingMark := by rintro rfl; simp [openingMark] at hk
    have hs : s.sdaO = .rel ∧ s.sclO = (if u.toNat = 2 ∨ u.toNat = 3 ∨ u.toNat = 4 then .rel else .low) := by
      rcases hl with h | h | h
      · omega
      · exact h.2.2
      · omega
    have e : (k.toNat + 1) % 16 = k.toNat + 1 := by omega
    rcases hc with ⟨hu, rfl⟩ | ⟨hu, rfl⟩ | ⟨hu, rfl⟩ | ⟨hu, rfl⟩ | ⟨hu, rfl⟩
    all_goals obtain rfl := ustep_eq hu
    all_goals refine ⟨?_, ?_, ?_⟩
    all_goals try (first | exact primFrame_latchBit _ | (constructor <;> rfl))
    all_goals simp only [inNext, hk, hn, if_true, if_false]
    all_goals simp
    all_goals simp [InLines, sclRel_eq, sclLow_eq, delay_eq, (latchBit_lines _), hs, hk, e]
    all_goals omega
  · obtain rfl : k = 8#4 := BitVec.eq_of_toNat_eq hk
    rcases hc with ⟨hu, rfl⟩ | ⟨hu, rfl⟩ | ⟨hu, rfl⟩ | ⟨hu, rfl⟩ | ⟨hu, rfl⟩ | ⟨hu, rfl⟩
    all_goals obtain rfl := ustep_eq hu
    all_goals refine ⟨?_, ?_, ?_⟩
    all_goals try (first | exact primFrame_putSda _ _ | (constructor <;> rfl))
    all_goals simp only [inNext, openingMark]
    all_goals simp
    all_goals simp_all [InLines, State.HeldLines, putSda_eq, putDrive, sdaLow_eq, sclRel_eq, sclLow_eq, delay_eq]

/-- The START phase (R130): it ends with both lines held. -/
theorem startPrimitive_lines {k : BitVec 4} {s t : State} (hl : StartLines s.ustep.toNat s.sdaO s.sclO)
    (h : startPrimitive s.ustep s = some t) :
    PrimFrame s t ∧
      (∀ k' u', framingNext 4 k s.ustep = .more k' u' → StartLines u'.toNat t.sdaO t.sclO) ∧
      (framingNext 4 k s.ustep = .done → t.HeldLines) := by
  generalize hu0 : s.ustep = u at *
  rcases startPrimitive_cases h with ⟨hu, rfl⟩ | ⟨hu, rfl⟩ | ⟨hu, rfl⟩ | ⟨hu, rfl⟩
  all_goals obtain rfl := ustep_eq hu
  all_goals refine ⟨by constructor <;> rfl, ?_, ?_⟩
  all_goals simp [framingNext]
  all_goals simp_all [StartLines, sdaLow_eq, sclLow_eq, delay_eq, State.HeldLines]

/-- The STOP phase (R131): it ends with both lines released. -/
theorem stopPrimitive_lines {k : BitVec 4} {s t : State} (hl : StopLines s.ustep.toNat s.sdaO s.sclO)
    (h : stopPrimitive s.ustep s = some t) :
    PrimFrame s t ∧
      (∀ k' u', framingNext 3 k s.ustep = .more k' u' → StopLines u'.toNat t.sdaO t.sclO) ∧
      (framingNext 3 k s.ustep = .done → t.IdleLines) := by
  generalize hu0 : s.ustep = u at *
  rcases stopPrimitive_cases h with ⟨hu, rfl⟩ | ⟨hu, rfl⟩ | ⟨hu, rfl⟩
  all_goals obtain rfl := ustep_eq hu
  all_goals refine ⟨by constructor <;> rfl, ?_, ?_⟩
  all_goals simp [framingNext]
  all_goals simp_all [StopLines, sdaRel_eq, sclRel_eq, delay_eq, State.IdleLines]

/-! ### A legal position has a primitive -/

theorem outPrimitive_performed {b : Byte} {k : BitVec 4} {u : BitVec 3} {s : State}
    (hl : OutLines k.toNat u.toNat s.sdaO s.sclO) : ∃ t, outPrimitive b k u s = some t := by
  unfold outPrimitive
  rcases hl with ⟨hk, hu, _⟩ | ⟨hk, hu, _⟩
  · rw [if_pos hk]
    generalize u.toNat = n at hu
    match n, hu with
    | 0, _ | 1, _ | 2, _ | 3, _ | 4, _ => exact ⟨_, rfl⟩
  · rw [if_neg (by omega), if_pos hk]
    generalize u.toNat = n at hu
    match n, hu with
    | 0, _ | 1, _ | 2, _ | 3, _ | 4, _ | 5, _ | 6, _ => exact ⟨_, rfl⟩

theorem inPrimitive_performed {l : Bool} {k : BitVec 4} {u : BitVec 3} {s : State}
    (hl : InLines l k.toNat u.toNat s.sdaO s.sclO) : ∃ t, inPrimitive l k u s = some t := by
  have mark : k = openingMark ↔ k.toNat = 15 := by simp [openingMark, ← BitVec.toNat_inj]
  unfold inPrimitive
  rcases hl with ⟨hk, hu, _⟩ | ⟨hk, hu, _⟩ | ⟨hk, hu, _⟩
  · rw [if_pos (mark.2 hk), hu]; exact ⟨_, rfl⟩
  · rw [if_neg (by rw [mark]; omega), if_pos hk]
    generalize u.toNat = n at hu
    match n, hu with
    | 0, _ | 1, _ | 2, _ | 3, _ | 4, _ => exact ⟨_, rfl⟩
  · rw [if_neg (by rw [mark]; omega), if_neg (by omega), if_pos hk]
    generalize u.toNat = n at hu
    match n, hu with
    | 0, _ | 1, _ | 2, _ | 3, _ | 4, _ | 5, _ => exact ⟨_, rfl⟩

theorem startPrimitive_performed {u : BitVec 3} {s : State} (hl : StartLines u.toNat s.sdaO s.sclO) :
    ∃ t, startPrimitive u s = some t := by
  unfold startPrimitive
  rcases hl with ⟨h, _⟩ | ⟨h | h, _⟩ | ⟨h, _⟩ <;> rw [h] <;> exact ⟨_, rfl⟩

theorem stopPrimitive_performed {u : BitVec 3} {s : State} (hl : StopLines u.toNat s.sdaO s.sclO) :
    ∃ t, stopPrimitive u s = some t := by
  unfold stopPrimitive
  rcases hl with ⟨h, _⟩ | ⟨h | h, _⟩ <;> rw [h] <;> exact ⟨_, rfl⟩

/-- A step of a transfer at a legal position performs the primitive its phase's table gives, and advances: no
legal position is stuck (R153, R154). -/
theorem transferStep_cases {d : Dir} (a : Addr) {s : State} (hp : s.phase ≠ .idle) (hl : s.LegalPosition d) :
    (s.phase = .start ∧ StartLines s.ustep.toNat s.sdaO s.sclO ∧ ∃ u, startPrimitive s.ustep s = some u ∧
      transferStep d a s = advance (framingNext 4 s.bitcnt s.ustep) (enterPhase .address) u) ∨
    (s.phase = .address ∧ OutLines s.bitcnt.toNat s.ustep.toNat s.sdaO s.sclO ∧
      ∃ u, outPrimitive (addressByte a d) s.bitcnt s.ustep s = some u ∧
        transferStep d a s = advance (outNext s.bitcnt s.ustep) (afterAddress d) u) ∨
    (s.phase = .data ∧ s.idx < s.len ∧ d = .write ∧ OutLines s.bitcnt.toNat s.ustep.toNat s.sdaO s.sclO ∧
      ∃ u, outPrimitive s.bufByte s.bitcnt s.ustep s = some u ∧
        transferStep d a s = advance (outNext s.bitcnt s.ustep) (afterData .write) u) ∨
    (s.phase = .data ∧ s.idx < s.len ∧ d = .read ∧ InLines s.isLast s.bitcnt.toNat s.ustep.toNat s.sdaO s.sclO ∧
      ∃ u, inPrimitive s.isLast s.bitcnt s.ustep s = some u ∧
        transferStep d a s = advance (inNext s.bitcnt s.ustep) (afterData .read) u) ∨
    (s.phase = .stop ∧ StopLines s.ustep.toNat s.sdaO s.sclO ∧ ∃ u, stopPrimitive s.ustep s = some u ∧
      transferStep d a s = advance (framingNext 3 s.bitcnt s.ustep) (afterStop d) u) := by
  cases p : s.phase with
  | idle => exact absurd p hp
  | start =>
    simp only [State.LegalPosition, p] at hl
    obtain ⟨u, hu⟩ := startPrimitive_performed hl
    exact .inl ⟨rfl, hl, u, hu, by rw [transferStep_start p, hu, primitiveStep_some]⟩
  | address =>
    simp only [State.LegalPosition, p] at hl
    obtain ⟨u, hu⟩ := outPrimitive_performed (b := addressByte a d) hl
    exact .inr (.inl ⟨rfl, hl, u, hu, by rw [transferStep_address p, hu, primitiveStep_some]⟩)
  | data =>
    simp only [State.LegalPosition, p] at hl
    obtain ⟨hi, hl⟩ := hl
    cases d with
    | write =>
      obtain ⟨u, hu⟩ := outPrimitive_performed (b := s.bufByte) hl
      exact .inr (.inr (.inl
        ⟨rfl, hi, rfl, hl, u, hu, by rw [transferStep_dataWrite p hi, hu, primitiveStep_some]⟩))
    | read =>
      obtain ⟨u, hu⟩ := inPrimitive_performed hl
      exact .inr (.inr (.inr (.inl
        ⟨rfl, hi, rfl, hl, u, hu, by rw [transferStep_dataRead p hi, hu, primitiveStep_some]⟩)))
  | stop =>
    simp only [State.LegalPosition, p] at hl
    obtain ⟨u, hu⟩ := stopPrimitive_performed hl
    exact .inr (.inr (.inr (.inr ⟨rfl, hl, u, hu, by rw [transferStep_stop p, hu, primitiveStep_some]⟩)))

/-- Everything a step of the sequencer can be from a legal state: a primitive of an INIT, or of the transfer `CW`
names at a legal position (`transferStep_cases`). -/
theorem State.Inv.sequencerStep_cases {s : State} (I : s.Inv) (hb : s.busy = true) :
    (s.initAt = .sdaRel ∧ s.phase = .idle ∧ sequencerStep s = (sdaRel s).setInitAt .sclRel) ∨
    (s.initAt = .sclRel ∧ s.phase = .idle ∧ s.sdaO = .rel ∧ sequencerStep s = finishInit (sclRel s)) ∨
    (s.initAt = .none ∧ s.phase ≠ .idle ∧ s.inited = true ∧
      ∃ d a, transferOf s.cw = some (d, a) ∧ s.LegalPosition d ∧ sequencerStep s = transferStep d a s) := by
  cases hi : s.initAt with
  | sdaRel => exact .inl ⟨rfl, I.initIdle (by simp [hi]), sequencerStep_initSda hi⟩
  | sclRel => exact .inr (.inl ⟨rfl, I.initIdle (by simp [hi]), I.initReleased hi, sequencerStep_initScl hi⟩)
  | none =>
    have hp : s.phase ≠ .idle := (I.busy.1 hb).resolve_right (by simp [hi])
    obtain ⟨hn, d, a, ht, hl⟩ := I.transfer hp
    exact .inr (.inr ⟨rfl, hp, hn, d, a, ht, hl, sequencerStep_transfer hi ht⟩)

/-! ### The phase transitions (R153) -/

/-- The registers no step of a transfer writes but the one that ends it. -/
structure MoveFrame (s t : State) : Prop where
  cw : t.cw = s.cw
  len : t.len = s.len
  status : t.status = s.status
  busy : t.busy = s.busy
  inited : t.inited = s.inited
  initAt : t.initAt = s.initAt
  host : t.host = s.host
  sclIn : t.sclIn = s.sclIn

theorem MoveFrame.trans {s t u : State} (h : MoveFrame s t) (g : MoveFrame t u) : MoveFrame s u :=
  ⟨g.cw.trans h.cw, g.len.trans h.len, g.status.trans h.status, g.busy.trans h.busy,
    g.inited.trans h.inited, g.initAt.trans h.initAt, g.host.trans h.host, g.sclIn.trans h.sclIn⟩

theorem PrimFrame.toMove {s t : State} (h : PrimFrame s t) : MoveFrame s t :=
  ⟨h.cw, h.len, h.status, h.busy, h.inited, h.initAt, h.host, h.sclIn⟩

theorem moveFrame_enterData (d : Dir) (s : State) : MoveFrame s (enterData d s) := by
  cases d <;> (constructor <;> rfl)

theorem moveFrame_enterStop (s : State) : MoveFrame s (enterStop s) := by constructor <;> rfl

theorem moveFrame_setIdx (n : Nat) (s : State) : MoveFrame s (s.setIdx n) := by constructor <;> rfl

/-- The first position of a data byte is legal when the lines are held and the byte exists. -/
theorem legal_enterData {d : Dir} {s : State} (h : s.HeldLines) (hi : s.idx < s.len) :
    (enterData d s).LegalPosition d := by
  cases d
  · simp [enterData, enterPhase, State.LegalPosition, OutLines, hi, h.1, h.2]
  · simp [enterData, State.LegalPosition, InLines, openingMark, hi, h.1, h.2]

/-- So is the first position of STOP. -/
theorem legal_enterStop {d : Dir} {s : State} (h : s.HeldLines) : (enterStop s).LegalPosition d := by
  simp [enterStop, enterPhase, State.LegalPosition, StopLines]; exact h

/-- Where a byte that was transferred leads. -/
theorem nextByte_leads {d : Dir} {s : State} (h : s.HeldLines) :
    MoveFrame s (nextByte d s) ∧ (nextByte d s).buf = s.buf ∧ (nextByte d s).ackl = s.ackl ∧
      (nextByte d s).LegalPosition d ∧
      (((nextByte d s).phase = .data ∧ s.idx + 1 < s.len) ∨
       ((nextByte d s).phase = .stop ∧ s.len ≤ s.idx + 1)) := by
  have hl : (s.setIdx (s.idx + 1)).HeldLines := h
  unfold nextByte
  simp only
  split
  · next hi =>
    exact ⟨(moveFrame_setIdx _ s).trans (moveFrame_enterData _ _), by cases d <;> rfl, by cases d <;> rfl,
      legal_enterData hl hi, .inl ⟨by cases d <;> rfl, hi⟩⟩
  · next hi =>
    exact ⟨(moveFrame_setIdx _ s).trans (moveFrame_enterStop _), rfl, rfl, legal_enterStop hl,
      .inr ⟨rfl, by simpa using hi⟩⟩

/-- Where the address byte leads. -/
theorem afterAddress_leads {d : Dir} {s : State} (h : s.HeldLines) :
    MoveFrame s (afterAddress d s) ∧ (afterAddress d s).buf = s.buf ∧ (afterAddress d s).ackl = s.ackl ∧
      (afterAddress d s).LegalPosition d ∧
      (((afterAddress d s).phase = .data ∧ s.ackl = .ack ∧ 0 < s.len ∧ (afterAddress d s).idx = 0) ∨
       ((afterAddress d s).phase = .stop ∧ (s.ackl = .nack ∨ s.len = 0))) := by
  have hl : (s.setIdx 0).HeldLines := h
  unfold afterAddress
  split
  · next ha => exact ⟨moveFrame_enterStop _, rfl, rfl, legal_enterStop h, .inr ⟨rfl, .inl ha⟩⟩
  · next ha =>
    simp only
    split
    · next hi =>
      exact ⟨(moveFrame_setIdx 0 s).trans (moveFrame_enterData _ _), by cases d <;> rfl, by cases d <;> rfl,
        legal_enterData hl hi, .inl ⟨by cases d <;> rfl, ha, hi, by cases d <;> rfl⟩⟩
    · next hi =>
      exact ⟨(moveFrame_setIdx 0 s).trans (moveFrame_enterStop _), rfl, rfl, legal_enterStop hl,
        .inr ⟨rfl, .inr (by simpa using hi)⟩⟩

end Sys2Proof.Machine
end

