-- ==== Sys2Proof/Tests/Slice0.lean ====
section
/-! SUPPORT. Tests on the spec's own vectors (spec/95_test_vectors.md), the ill-formed words that are refused, and a witness for the hypotheses of each obligation. -/

namespace Sys2Proof.Tests

open Sys2Proof Sys2Proof.Machine

/-! ### Well-formedness and decoding (30_encoding.md R71, R72, R80; vectors V70 to V94) -/

theorem test_opcode_3_refused : opcodeAssigned 0x300#12 = false ∧ decode 0x300#12 = .error .reservedOpcode := by
  decide
theorem test_opcode_F_refused : opcodeAssigned 0xFFF#12 = false ∧ decode 0xFFF#12 = .error .reservedOpcode := by
  decide
theorem test_write_top_bit_refused :
    addressInvariant 0x1D0#12 = false ∧ decode 0x1D0#12 = .error .addressTopBit := by decide
theorem test_read_top_bit_refused :
    addressInvariant 0x280#12 = false ∧ decode 0x280#12 = .error .addressTopBit := by decide
theorem test_reserved_word_not_wellFormed :
    wordWellFormed 0x300#12 = false ∧ wordWellFormed 0x1D0#12 = false ∧ wordWellFormed 0x150#12 = true := by decide
theorem test_internal_word_not_for_the_host :
    wordWellFormed 0x4A0#12 = true ∧ hostWordWellFormed 0x4A0#12 = false ∧ hostWordWellFormed 0x150#12 = true := by
  decide

theorem test_decode_init : decode 0b000011111111#12 = .ok .init := by decide
theorem test_decode_write : decode 0b000101010000#12 = .ok (.write 0x50#7) := by decide
theorem test_decode_read : decode 0b001001010000#12 = .ok (.read 0x50#7) := by decide
theorem test_decode_begin_write : decode 0b010010100000#12 = .ok (.beginTx 0x50#7 .write) := by decide
theorem test_decode_begin_read : decode 0b010010100001#12 = .ok (.beginTx 0x50#7 .read) := by decide
theorem test_decode_end : decode 0b010100000000#12 = .ok .endTx := by decide
theorem test_decode_byteOut : decode 0b011010100101#12 = .ok (.byteOut 0xA5#8) := by decide
theorem test_decode_byteIn_last : decode 0b011100000001#12 = .ok (.byteIn true) := by decide
theorem test_decode_byteIn_junk : decode 0b011111111110#12 = .ok (.byteIn false) := by decide
theorem test_decode_sdaLow : decode 0b100000000000#12 = .ok .sdaLow := by decide
theorem test_decode_sdaRel : decode 0b100100000000#12 = .ok .sdaRel := by decide
theorem test_decode_sdaSample : decode 0b101000000000#12 = .ok .sdaSample := by decide
theorem test_decode_delay : decode 0b101100000000#12 = .ok .delay := by decide
theorem test_decode_sclLow : decode 0b110000000000#12 = .ok .sclLow := by decide
theorem test_decode_sclRel : decode 0b110100000000#12 = .ok .sclRel := by decide
theorem test_decode_sclSample : decode 0b111000000000#12 = .ok .sclSample := by decide
theorem test_decodeTableWord :
    decodeTableWord 16 0x150 = some (.write 0x50#7) ∧ decodeTableWord 16 0x300 = none := by decide

/-! ### Address bytes (table B9) and the buffer -/

theorem test_address_bytes :
    addressByte 0x01#7 .read = 0x03#8 ∧ addressByte 0x40#7 .write = 0x80#8 ∧ addressByte 0x76#7 .read = 0xED#8 ∧
    addressByte 0x7F#7 .write = 0xFE#8 := by decide
theorem test_buffer_write_keeps_form :
    (Memory.ofBytes 0 [0x00#8, 0x38#8]).write 1 0x00#8 = [] ∧
    ((Memory.ofBytes 0 [0xEE#8, 0xEE#8]).write 0 0x80#8).bytes 2 = [0x80#8, 0xEE#8] := by decide
theorem test_reset_buffer_wf : State.reset.buf.wf = true := by decide

/-! ### One instruction on a small state -/

/-- The idle line state after an INIT, with the environment's answers. -/
def idle (answers : List Level) : State :=
  { State.reset with sdaO := .rel, sclO := .rel, inited := true, sdaIn := answers }

/-- Both lines asserted. -/
def held (answers : List Level) : State := { idle answers with sdaO := .low, sclO := .low }

/-- A transfer's operands in the registers. -/
def given (bytes : List Byte) (answers : List Level) : State :=
  { idle answers with len := bytes.length, buf := Memory.ofBytes 0 bytes }

/-- A property of the next state, false of a fault and of a refusal. -/
def next (r : Result) (p : State → Bool) : Bool :=
  match r with
  | .next t => p t
  | _ => false

abbrev L : Level := .low
abbrev H : Level := .high
abbrev d : Event := .sdaLow
abbrev D : Event := .sdaRel
abbrev c : Event := .sclLow
abbrev C : Event := .sclRel
abbrev o : Event := .delay
abbrev s0 : Event := .sdaSample .low
abbrev s1 : Event := .sdaSample .high

/-- V1. -/
theorem test_sdaLow_V1 :
    next (exec .sdaLow (idle [])) (fun t =>
      t.sdaO == .low && t.sclO == .rel && t.trace == [d]) = true := by
  decide +kernel

/-- V2. -/
theorem test_sdaRel_V2 :
    next (exec .sdaRel (held [])) (fun t =>
      t.sdaO == .rel && t.sclO == .low && t.trace == [D]) = true := by
  decide +kernel

/-- V3. -/
theorem test_sdaSample_V3 :
    next (exec .sdaSample { idle [L] with sclO := .low }) (fun t =>
      t.sdaO == .rel && t.sclO == .low && t.trace == [s0] && t.sdaIn == []) = true := by
  decide +kernel

/-- V9: the master asserts the line and asks nobody. -/
theorem test_sdaSample_V9 :
    next (exec .sdaSample { idle [H] with sdaO := .low }) (fun t =>
      t.sdaO == .low && t.trace == [s0] && t.sdaIn == [H]) = true := by
  decide +kernel

/-- V5. -/
theorem test_sclLow_V5 :
    next (exec .sclLow (idle [])) (fun t =>
      t.sdaO == .rel && t.sclO == .low && t.trace == [c]) = true := by
  decide +kernel

/-- V6. -/
theorem test_sclRel_V6 :
    next (exec .sclRel (held [])) (fun t =>
      t.sdaO == .low && t.sclO == .rel && t.trace == [C]) = true := by
  decide +kernel

/-- V7. -/
theorem test_delay_V7 :
    next (exec .delay (held [])) (fun t =>
      t.sdaO == .low && t.sclO == .low && t.trace == [o]) = true := by
  decide +kernel

/-- R96. -/
theorem test_sclSample :
    next (exec .sclSample { idle [] with sclIn := [L, H] }) (fun t =>
      t.trace == [.sclSample .low] && t.sclIn == [H] && t.sclO == .rel) = true := by
  decide +kernel

/-- V32. -/
theorem test_byteOut_V32 :
    next (exec (.byteOut 0xA5#8) (held [L])) (fun t =>
      t.trace ==
    [D, C, o, c, o, d, C, o, c, o, D, C, o, c, o, d, C, o, c, o, d, C, o, c, o, D, C, o, c, o] ++
    [d, C, o, c, o, D, C, o, c, o, D, C, o, s0, c, d, o] &&
    t.ackl == .ack && t.shreg == 0x00#8 && t.sdaO == .low && t.sclO == .low) = true := by
  decide +kernel

/-- V34. -/
theorem test_byteOut_V34 :
    next (exec (.byteOut 0x01#8) (held [H])) (fun t =>
      t.trace ==
    [d, C, o, c, o, d, C, o, c, o, d, C, o, c, o, d, C, o, c, o, d, C, o, c, o, d, C, o, c, o] ++
    [d, C, o, c, o, D, C, o, c, o, D, C, o, s1, c, d, o] && t.ackl == .nack) = true := by
  decide +kernel

/-- V42. -/
theorem test_byteIn_V42 :
    next (exec (.byteIn true) (held [L, L, H, H, H, H, L, L])) (fun t =>
      t.trace ==
    [D, o, C, s0, o, c, o, C, s0, o, c, o, C, s1, o, c, o, C, s1, o, c, o, C, s1, o, c, o, C, s1, o] ++
    [c, o, C, s0, o, c, o, C, s0, o, c, D, C, o, c, d, o] &&
    t.shreg == 0x3C#8 && t.sdaO == .low && t.sclO == .low) = true := by
  decide +kernel

/-- V43; `ACKL` is not touched. -/
theorem test_byteIn_V43 :
    next (exec (.byteIn false) { held [H, L, H, L, L, H, L, H] with ackl := .nack }) (fun t =>
      t.trace ==
    [D, o, C, s1, o, c, o, C, s0, o, c, o, C, s1, o, c, o, C, s0, o, c, o, C, s0, o, c, o, C, s1, o] ++
    [c, o, C, s0, o, c, o, C, s1, o, c, d, C, o, c, d, o] &&
    t.shreg == 0xA5#8 && t.ackl == .nack) = true := by
  decide +kernel

/-- V54. -/
theorem test_begin_V54 :
    next (exec (.beginTx 0x76#7 .read) (idle [L])) (fun t =>
      t.trace ==
    [d, o, c, o, D, C, o, c, o, D, C, o, c, o, D, C, o, c, o, d, C, o, c, o, D, C, o, c, o, D] ++
    [C, o, c, o, d, C, o, c, o, D, C, o, c, o, D, C, o, s0, c, d, o] &&
    t.ackl == .ack && t.sdaO == .low && t.sclO == .low) = true := by
  decide +kernel

/-- V55. -/
theorem test_begin_V55 :
    next (exec (.beginTx 0x3E#7 .write) (idle [H])) (fun t =>
      t.trace ==
    [d, o, c, o, d, C, o, c, o, D, C, o, c, o, D, C, o, c, o, D, C, o, c, o, D, C, o, c, o, D] ++
    [C, o, c, o, d, C, o, c, o, d, C, o, c, o, D, C, o, s1, c, d, o] && t.ackl == .nack) = true := by
  decide +kernel

/-- V56. -/
theorem test_end_V56 :
    next (exec .endTx (held [])) (fun t =>
      t.trace == [C, o, D] && t.sdaO == .rel && t.sclO == .rel) = true := by
  decide +kernel

/-- V62. -/
theorem test_init_V62 :
    next (exec .init (held [])) (fun t =>
      t.trace == [D, C] && t.sdaO == .rel && t.sclO == .rel && t.phase == .idle) = true := by
  decide +kernel

/-- V63: `STATUS` is unchanged. -/
theorem test_init_V63 :
    next (exec .init { idle [] with sdaO := .low, status := .success }) (fun t =>
      t.trace == [D, C] && t.sdaO == .rel && t.status == .success) = true := by
  decide +kernel

/-- V12. -/
theorem test_write_V12 :
    next (exec (.write 0x50#7) (given [0xA5#8] [L, L])) (fun t =>
      t.trace ==
    [d, o, c, o, D, C, o, c, o, d, C, o, c, o, D, C, o, c, o, d, C, o, c, o, d, C, o, c, o, d] ++
    [C, o, c, o, d, C, o, c, o, d, C, o, c, o, D, C, o, s0, c, d, o, D, C, o, c, o, d, C, o, c] ++
    [o, D, C, o, c, o, d, C, o, c, o, d, C, o, c, o, D, C, o, c, o, d, C, o, c, o, D, C, o, c] ++
    [o, D, C, o, s0, c, d, o, C, o, D] &&
    t.status == .success && t.sdaO == .rel && t.sclO == .rel && t.phase == .idle) = true := by
  decide +kernel

/-- V14: the NACK at data offset 1 of 3 ends the data phase; 0x03 is never sent. -/
theorem test_write_V14 :
    next (exec (.write 0x50#7) (given [0x01#8, 0x02#8, 0x03#8] [L, L, H])) (fun t =>
      t.trace ==
    [d, o, c, o, D, C, o, c, o, d, C, o, c, o, D, C, o, c, o, d, C, o, c, o, d, C, o, c, o, d] ++
    [C, o, c, o, d, C, o, c, o, d, C, o, c, o, D, C, o, s0, c, d, o, d, C, o, c, o, d, C, o, c] ++
    [o, d, C, o, c, o, d, C, o, c, o, d, C, o, c, o, d, C, o, c, o, d, C, o, c, o, D, C, o, c] ++
    [o, D, C, o, s0, c, d, o, d, C, o, c, o, d, C, o, c, o, d, C, o, c, o, d, C, o, c, o, d, C] ++
    [o, c, o, d, C, o, c, o, D, C, o, c, o, d, C, o, c, o, D, C, o, s1, c, d, o, C, o, D] &&
    t.status == .failure) = true := by
  decide +kernel

/-- Command 3 of program P4: two bytes, ACK then NACK from the master. -/
theorem test_read_P4 :
    next (exec (.read 0x50#7) (given [0x00#8, 0x00#8] [L, H, L, H, L, L, H, L, H, L, H, L, H, H, L, H, L])) (fun t =>
      t.status == .success && t.buf.bytes 2 == [0xA5#8, 0x5A#8] && t.trace.length == 148 &&
    sym t.trace == [.start] ++ frameSyms 0xA1#8 .low ++ frameSyms 0xA5#8 .low ++ frameSyms 0x5A#8 .high ++ [.stop]) = true := by
  decide +kernel

/-- Command 5 of program P5: no slave, the buffer is untouched. -/
theorem test_read_P5 :
    next (exec (.read 0x51#7) (given [0xEE#8, 0xEE#8] [H])) (fun t =>
      t.status == .failure && t.buf.bytes 2 == [0xEE#8, 0xEE#8] && t.trace.length == 54 &&
    delays t.trace == 21 && pulses t.trace == 9) = true := by
  decide +kernel

/-! ### One step, and the refusals of the interface (V75 to V78, V93, V94) -/

/-- The refusal a step ends in. -/
def refusal (r : Result) : Option Refusal :=
  match r with
  | .refused e => some e
  | _ => none

/-- The host presents one word in a blocking call. -/
def calls (w : CmdWord) (s : State) : State := { s with host := [⟨.call, w, [], false⟩] }

theorem test_reserved_word_refused : refusal (step (calls 0x1D0#12 (idle []))) = some (.reservedWord 0x1D0#12) := by
  decide
theorem test_internal_word_refused :
    refusal (step (calls 0x4A0#12 (idle []))) = some (.internalOperation 0x4A0#12) := by decide
/-- A host that holds its next word back while `BUSY = 1` (R216) is not refused: the INIT in progress goes on. -/
theorem test_host_that_waits_is_not_refused :
    next (step { calls 0x000#12 (idle []) with busy := true, initAt := .sclRel, host := [⟨.call, 0x000#12, [], true⟩] })
      (fun t => !t.busy && t.trace == [C] && t.host.length == 1) = true := by decide
theorem test_busy_refused_V93 : refusal (step { calls 0x000#12 (idle []) with busy := true }) = some .busy := by decide
theorem test_before_init_refused_V94 : refusal (step (calls 0x150#12 State.reset)) = some .beforeInit := by decide

/-- A table word put where the next step takes one from runs as the first instruction after reset. -/
theorem test_first_instruction_after_reset :
    next (step (State.reset.withFetchWord 16 0x900)) (fun t => t.sdaO == .rel && t.trace == [D] && t.host == []) =
      true := by decide

/-- Acceptance (R155): `BUSY` and the START phase, and nothing on the lines yet. -/
theorem test_polled_write_is_accepted :
    next (step { idle [] with host := [⟨.poll, 0x150#12, [0xA5#8], true⟩] })
      (fun t => t.busy && t.phase == .start && t.ustep == 0 && t.len == 1 && t.trace == [] &&
        t.buf.bytes 1 == [0xA5#8]) = true := by decide

/-! ### Witnesses

For every obligation with hypotheses, a concrete state and operands that meet them together, one for each
clause. -/

/-- PowerOnStatesMeetTheInvariant, FirstCommandMustBeInit: the lines may come up released. -/
theorem witness_powerOn : { State.reset with sdaO := .rel, shreg := 0xFF#8, len := 3 }.PowerOn :=
  ⟨rfl, rfl, rfl, rfl, rfl, rfl, rfl⟩

/-- DecodeRefusesExactlyReservedWords: a word with ignored bits, and each form without. -/
theorem witness_decode :
    decode 0x0FF#12 = .ok .init ∧ decode 0x150#12 = .ok (.write 0x50#7) ∧ decode 0x27F#12 = .ok (.read 0x7F#7) ∧
    decode 0x4FF#12 = .ok (.beginTx 0x7F#7 .read) ∧ decode 0x600#12 = .ok (.byteOut 0x00#8) ∧
    decode 0x7FF#12 = .ok (.byteIn true) := by decide

/-- BufferReadsWhatWasWritten, CanonicalBuffersAreEqualWhenTheyReadAlike: the second buffer is built another way. -/
theorem witness_canonical : Memory.wf [(1, 0x38#8)] = true ∧ (Memory.ofBytes 0 [0x00#8, 0x38#8]).wf = true ∧
    ∀ x, Memory.read [(1, 0x38#8)] x = (Memory.ofBytes 0 [0x00#8, 0x38#8]).read x := by
  refine ⟨by decide, by decide, fun x => ?_⟩
  rw [show Memory.ofBytes 0 [0x00#8, 0x38#8] = [(1, 0x38#8)] from by decide]

/-- FirstByteOnTheWireIsTheAddressByte: both directions. -/
theorem witness_first_byte :
    ((Dir.write = .write ∧ Instr.write 0x50#7 = .write 0x50#7) ∨ (Dir.write = .read ∧ Instr.write 0x50#7 = .read 0x50#7)) ∧
    ((Dir.read = .write ∧ Instr.read 0x50#7 = .write 0x50#7) ∨ (Dir.read = .read ∧ Instr.read 0x50#7 = .read 0x50#7)) := by
  decide

/-- SdaSampleReadsTheWiredAnd, SclSampleReadsTheWiredAnd, ByteOperationsMoveDataOnlyWhileClockIsLow,
CommandsEndInTheIdleLineState. -/
theorem witness_lines : (held []).sdaO = .low ∧ (idle [L]).sdaO = .rel ∧ (held []).sclO = .low ∧ (idle []).sclO = .rel ∧
    (idle []).IdleLines ∧ (held []).HeldLines := ⟨rfl, rfl, rfl, rfl, ⟨rfl, rfl⟩, ⟨rfl, rfl⟩⟩

/-- ShiftRegisterCarriesTheByte: clauses (a) and (c) at both ends of their range, and (d). -/
theorem witness_shift : (0 ≤ 7 ∧ 7 ≤ 7) ∧ ((0 < (byteLevels 0x3C#8).length ∧ 7 < (byteLevels 0x3C#8).length) ∧
    (byteLevels 0x3C#8).length = 8) ∧ (idle [L, L, H, H, H, H, L, L, H]).sdaIn = byteLevels 0x3C#8 ++ [H] := by decide

/-- ByteOperationsMoveDataOnlyWhileClockIsLow, ByteOperationsAreFortySevenEvents. -/
theorem witness_byte_operation : ((∃ b, Instr.byteOut 0xA5#8 = .byteOut b) ∨ (∃ l, Instr.byteOut 0xA5#8 = .byteIn l)) ∧
    ((∃ b, Instr.byteIn true = .byteOut b) ∨ (∃ l, Instr.byteIn true = .byteIn l)) :=
  ⟨.inl ⟨_, rfl⟩, .inr ⟨_, rfl⟩⟩

/-- FramingReadsAsStartAndStop, second clause. -/
theorem witness_end_runs : (⟨.low, .low, false, .high, [.start]⟩ : SymReader).sda = .low ∧
    (⟨.low, .low, false, .high, [.start]⟩ : SymReader).scl = .low ∧ exec .endTx (held []) = .next (endTx (held [])) :=
  ⟨rfl, rfl, rfl⟩

/-- WriteSendsBytesUntilTheFirstNack, ReadFillsTheBufferInOrder, ReadTraceReadsAsOneFrame,
RoundTripThroughAnEchoingSlave (its second buffer): a canonical buffer. -/
theorem witness_given : (given [0x01#8, 0x02#8] []).buf.wf = true ∧ (given [0x01#8, 0x02#8] []).len = 2 := by decide

/-- StatusFollowsThePolicyTable, WriteAbortsAtTheFirstNack, RoundTripThroughAnEchoingSlave: the rows of the table, the
first and the last byte not acknowledged among them. -/
theorem witness_policy_rows :
    (given [] [H]).sdaIn = .high :: [] ∧
    ((given [] [L]).len = 0 ∧ (given [] [L]).sdaIn = .low :: []) ∧
    (1 ≤ (given [0xA5#8] [L, L]).len ∧
      (given [0xA5#8] [L, L]).sdaIn = .low :: (List.replicate (given [0xA5#8] [L, L]).len .low ++ [])) ∧
    (0 < (given [1#8, 2#8] [L, H]).len ∧ (given [1#8, 2#8] [L, H]).sdaIn = .low :: (List.replicate 0 .low ++ .high :: [])) ∧
    (1 < (given [1#8, 2#8] [L, L, H]).len ∧
      (given [1#8, 2#8] [L, L, H]).sdaIn = .low :: (List.replicate 1 .low ++ .high :: [])) := by decide

/-- StuckDataLineIsNotDetected: both clauses, with the fewest answers and an empty buffer too. -/
theorem witness_stuck_line :
    ((given [7#8] (List.replicate 9 L)).buf.wf = true ∧ 1 + 8 * (given [7#8] (List.replicate 9 L)).len ≤ 9 ∧
      1 ≤ (given [7#8] (List.replicate 9 L)).len ∧ (given [7#8] (List.replicate 9 L)).sdaIn = List.replicate 9 .low) ∧
    ((given [] [H]).buf.wf = true ∧ 1 + 8 * (given [] [H]).len ≤ 1 ∧ (given [] [H]).sdaIn = List.replicate 1 .high) := by
  decide

/-- A host's move. -/
def move (p : Presenter) (w : CmdWord) : Request := ⟨p, w, [0xA5#8], true⟩

/-- StepRunsTheDecodedInstruction: each presenter, with an INIT, a WRITE, a READ and an internal operation. -/
theorem witness_admitted :
    ((idle []).busy = false ∧ (idle []).inited = true) ∧
    screenWord (move .call 0x000#12).presenter (move .call 0x000#12).word true = .ok .init ∧
    screenWord (move .call 0x150#12).presenter (move .call 0x150#12).word true = .ok (.write 0x50#7) ∧
    screenWord (move .call 0x250#12).presenter (move .call 0x250#12).word true = .ok (.read 0x50#7) ∧
    screenWord (move .micro 0x6A5#12).presenter (move .micro 0x6A5#12).word true = .ok (.byteOut 0xA5#8) ∧
    screenWord (move .poll 0x000#12).presenter (move .poll 0x000#12).word true = .ok .init ∧
    screenWord (move .poll 0x150#12).presenter (move .poll 0x150#12).word true = .ok (.write 0x50#7) ∧
    screenWord (move .poll 0x250#12).presenter (move .poll 0x250#12).word true = .ok (.read 0x50#7) := by decide

/-- StepRefusesExactlyWhatTheInterfaceRefuses: the conditions of each refusal. -/
theorem witness_refused :
    wordWellFormed 0xF00#12 = false ∧
    (wordWellFormed 0xE00#12 = true ∧ hostWordWellFormed 0xE00#12 = false) ∧
    (hostWordWellFormed 0x100#12 = true ∧ opField 0x100#12 ≠ 0#4 ∧ State.reset.inited = false) ∧
    (hostWordWellFormed 0x0FF#12 = true ∧ opField 0x0FF#12 = 0#4) := by decide

/-! #### Legal states in the middle of a command -/

/-- A transfer of two bytes at a position, with the index of the byte in transfer. -/
def mid (w : CmdWord) (p : Phase) (k : BitVec 4) (u : BitVec 3) (sda scl : Drive) (v : Ack := .ack) (n : Nat := 0) :
    State :=
  { given [0xA5#8, 0x00#8] [] with
    busy := true, cw := w, phase := p, bitcnt := k, ustep := u, sdaO := sda, sclO := scl,
    ackl := v, idx := n }

/-- An INIT in progress. -/
def midInit (p : InitPos) (sda : Drive) : State := { State.reset with busy := true, initAt := p, sdaO := sda }

theorem inv_mid {w : CmdWord} {p : Phase} {k : BitVec 4} {u : BitVec 3} {sda scl : Drive} {v : Ack} {n : Nat}
    {dir : Dir} {a : Addr}     (hp : p ≠ .idle) (ht : transferOf w = some (dir, a)) 
    (hl : (mid w p k u sda scl v n).LegalPosition dir) : (mid w p k u sda scl v n).Inv :=
  ⟨by rw [mid, given]; exact Memory.wf_ofBytes _, by simp [mid, hp], by simp [mid, given, idle, State.reset],
    by simp [mid, given, idle, State.reset], fun _ => ⟨rfl, dir, a, ht, hl⟩, by simp [mid],
    by simp [mid, given, idle, State.reset]⟩

/-- The invariant at the first primitive of START, where the data line falls with the clock released. -/
theorem witness_start : (mid 0x150#12 .start 0 0 .rel .rel).Inv :=
  inv_mid (by decide) (show transferOf 0x150#12 = some (.write, 0x50#7) by decide) (.inl ⟨rfl, rfl, rfl⟩)

/-- At the last primitive of START. -/
theorem witness_start_last : (mid 0x150#12 .start 0 3 .low .low).Inv :=
  inv_mid (by decide) (show transferOf 0x150#12 = some (.write, 0x50#7) by decide) (.inr (.inr ⟨rfl, rfl, rfl⟩))

/-- In ADDRESS, at the last primitive of the address byte, acknowledged or not. -/
theorem witness_address (v : Ack) : (mid 0x250#12 .address 8 6 .low .low v).Inv := by
  cases v <;> exact inv_mid (by decide) (show transferOf 0x250#12 = some (.read, 0x50#7) by decide)
    (.inr ⟨by decide, by decide, by decide, by decide, fun _ => rfl⟩)

/-- In DATA of a WRITE, at the first primitive of a byte. -/
theorem witness_data_write : (mid 0x150#12 .data 0 0 .low .low).Inv :=
  inv_mid (by decide) (show transferOf 0x150#12 = some (.write, 0x50#7) by decide)
    ⟨by decide, .inl ⟨by decide, by decide, by decide, fun _ _ => rfl⟩⟩

/-- In DATA of a WRITE, where an acknowledgment cell's clock is lowered. -/
theorem witness_data_clock_low : (mid 0x150#12 .data 8 4 .rel .rel).Inv :=
  inv_mid (by decide) (show transferOf 0x150#12 = some (.write, 0x50#7) by decide)
    ⟨by decide, .inr ⟨by decide, by decide, by decide, fun _ _ => rfl, by decide⟩⟩

/-- In DATA of a WRITE, at the last primitive of the first and of the last byte, acknowledged or not: the clauses of
PhasesFollowTheStateMachine on the end of a byte. -/
theorem witness_data_write_end (v : Ack) :
    ((mid 0x150#12 .data 8 6 .low .low v).Inv ∧ (mid 0x150#12 .data 8 6 .low .low v).AtByteEnd .write) ∧
    ((mid 0x150#12 .data 8 6 .low .low v 1).Inv ∧ (mid 0x150#12 .data 8 6 .low .low v 1).AtByteEnd .write) := by
  cases v <;> exact
    ⟨⟨inv_mid (by decide) (show transferOf 0x150#12 = some (.write, 0x50#7) by decide)
        ⟨by decide, .inr ⟨by decide, by decide, by decide, by decide, fun _ => rfl⟩⟩, rfl, rfl⟩,
      ⟨inv_mid (by decide) (show transferOf 0x150#12 = some (.write, 0x50#7) by decide)
        ⟨by decide, .inr ⟨by decide, by decide, by decide, by decide, fun _ => rfl⟩⟩, rfl, rfl⟩⟩

/-- The same of a READ. -/
theorem witness_data_read_end :
    ((mid 0x250#12 .data 8 5 .low .low).Inv ∧ (mid 0x250#12 .data 8 5 .low .low).AtByteEnd .read) ∧
    ((mid 0x250#12 .data 8 5 .low .low .ack 1).Inv ∧ (mid 0x250#12 .data 8 5 .low .low .ack 1).AtByteEnd .read) :=
  ⟨⟨inv_mid (by decide) (show transferOf 0x250#12 = some (.read, 0x50#7) by decide)
      ⟨by decide, .inr (.inr ⟨by decide, by decide, by decide, by decide, by decide, fun _ => rfl⟩)⟩, rfl, rfl⟩,
    ⟨inv_mid (by decide) (show transferOf 0x250#12 = some (.read, 0x50#7) by decide)
      ⟨by decide, .inr (.inr ⟨by decide, by decide, by decide, by decide, by decide, fun _ => rfl⟩)⟩, rfl, rfl⟩⟩

/-- And a position that is not the end of a byte, `witness_data_write`'s. -/
theorem witness_not_byte_end : ¬ (mid 0x150#12 .data 0 0 .low .low).AtByteEnd .write :=
  fun h => absurd h.1 (by decide)

/-- In DATA of a READ, where the data line is asserted again after the master's own ACK. -/
theorem witness_data_read_ack : (mid 0x250#12 .data 8 4 .low .low).Inv :=
  inv_mid (by decide) (show transferOf 0x250#12 = some (.read, 0x50#7) by decide)
    ⟨by decide, .inr (.inr ⟨by decide, by decide, by decide, by decide, fun _ _ => by decide, by decide⟩)⟩

/-- In STOP, at the last primitive, where the data line rises with the clock released. -/
theorem witness_stop : (mid 0x150#12 .stop 0 2 .low .rel).Inv :=
  inv_mid (by decide) (show transferOf 0x150#12 = some (.write, 0x50#7) by decide) (.inr ⟨.inr rfl, rfl, rfl⟩)

/-- In an INIT, at each of its two primitives. -/
theorem witness_init : (midInit .sdaRel .low).Inv ∧ { midInit .sdaRel .low with sclO := .rel }.Inv ∧
    (midInit .sclRel .rel).Inv := by
  refine ⟨?_, ?_, ?_⟩ <;> constructor <;> simp [midInit, State.reset, Memory.wf, Memory.wfFrom]

/-- DataMovesWhileClockReleasedOnlyAtStartAndStop, NoLineIsAssertedTwiceButWhereSaid, PhasesFollowTheStateMachine,
BusyStepPerformsOnePrimitive, EveryStepKeepsTheInvariant, BusyStepsLeaveTheHostsRegistersAlone: those states are busy and
step on, to the line changes, the phases and the store each clause is about. -/
theorem witness_steps_on :
    next (step (mid 0x150#12 .start 0 0 .rel .rel)) (fun t => t.sdaO == .low) = true ∧
    next (step (mid 0x150#12 .start 0 3 .low .low)) (fun t => t.phase == .address) = true ∧
    next (step (mid 0x250#12 .address 8 6 .low .low)) (fun t => t.phase == .data && t.bitcnt == 15) = true ∧
    next (step (mid 0x250#12 .address 8 6 .low .low .nack)) (fun t => t.phase == .stop) = true ∧
    next (step (mid 0x150#12 .data 0 0 .low .low)) (fun t => t.trace == [D]) = true ∧
    next (step (mid 0x150#12 .data 8 6 .low .low .nack)) (fun t => t.phase == .stop) = true ∧
    next (step (mid 0x150#12 .data 8 6 .low .low)) (fun t => t.phase == .data && t.idx == 1 && t.bitcnt == 0) = true ∧
    next (step (mid 0x150#12 .data 8 6 .low .low .ack 1)) (fun t => t.phase == .stop) = true ∧
    next (step (mid 0x250#12 .data 8 5 .low .low .ack 1)) (fun t => t.phase == .stop) = true ∧
    next (step (mid 0x150#12 .data 8 4 .rel .rel)) (fun t => t.trace == [c]) = true ∧
    next (step (mid 0x250#12 .data 8 4 .low .low)) (fun t => t.trace == [d]) = true ∧
    next (step (mid 0x250#12 .data 8 5 .low .low)) (fun t => t.idx == 1 && t.bitcnt == 15 && t.buf.bytes 2 == [0x00#8, 0x00#8]) = true ∧
    next (step (mid 0x150#12 .stop 0 2 .low .rel)) (fun t => t.sdaO == .rel && t.phase == .idle && !t.busy) = true ∧
    next (step { midInit .sdaRel .low with sclO := .rel }) (fun t => t.sdaO == .rel && t.initAt == .sclRel) = true := by
  decide +kernel

/-- SmallStepsAddUpToTheCommand, PollingAndCallingGiveTheSameResult, IdleMasterDoesNothing: the three commands. -/
theorem witness_small_steps :
    (hostIssuable .init = true ∧ decode { idle [] with cw := 0x000#12 }.cw = .ok .init) ∧
    (hostIssuable (.write 0x50#7) = true ∧ decode { idle [] with cw := 0x150#12 }.cw = .ok (.write 0x50#7)) ∧
    (hostIssuable (.read 0x50#7) = true ∧ decode { idle [] with cw := 0x250#12 }.cw = .ok (.read 0x50#7)) ∧
    (idle []).host = [] ∧ (idle []).busy = false ∧ (idle []).initAt = .none ∧
    next (step { idle [L, L] with host := [⟨.call, 0x150#12, [0xA5#8], true⟩] })
      (fun t => t.status == .success) = true := by decide +kernel

/-- EveryCommandTerminates, NothingFaults, BusyStepPerformsOnePrimitive: a busy legal state (`witness_start`) with
nothing more from the host. -/
theorem witness_busy : (mid 0x150#12 .start 0 0 .rel .rel).busy = true ∧ (mid 0x150#12 .start 0 0 .rel .rel).host = [] :=
  ⟨rfl, rfl⟩

/-- FetchedTableWordRuns. -/
theorem witness_table_word : decodeTableWord 16 0x250 = some (.read 0x50#7) ∧ decodeTableWord 12 0xE00 = some .sclSample := by
  decide

end Sys2Proof.Tests
end

section
/-! PROOF. What the reader of 30_encoding.md R84 reads from the event strings of START and `BYTE_OUT`. -/

namespace Sys2Proof.Machine

/-- The reader only adds symbols: no event takes one back. -/
theorem SymReader.out_prefix_read (r : SymReader) (e : Event) : r.out <+: (r.read e).out := by
  cases e with
  | sdaLow => simp only [SymReader.read]; split <;> simp
  | sdaRel => simp only [SymReader.read]; split <;> simp
  | sclLow => simp only [SymReader.read]; split <;> simp
  | sclRel => simp only [SymReader.read]; split <;> simp
  | sdaSample v => simp only [SymReader.read]; split <;> simp
  | delay => exact List.prefix_rfl
  | sclSample v => exact List.prefix_rfl

theorem SymReader.out_prefix_foldl (es : List Event) (r : SymReader) :
    r.out <+: (es.foldl SymReader.read r).out := by
  induction es generalizing r with
  | nil => exact List.prefix_rfl
  | cons e es ih => exact (r.out_prefix_read e).trans (ih (r.read e))

/-- A data cell the master sends is read as the bit it puts on the line (R76). -/
theorem SymReader.foldl_outCellEvents (b : Bool) {r : SymReader} (h : r.scl = .low) :
    (outCellEvents b).foldl SymReader.read r =
      ⟨putDrive b, .low, false, levelOf b, r.out ++ [.bit (levelOf b)]⟩ := by
  cases b <;> simp [outCellEvents, putEvent, SymReader.read, h, putDrive, levelOf, drivenLevel]

/-- The events of the acknowledgment cell of `BYTE_OUT` with sampled level `v` (R77). -/
def ackCellEvents (v : Level) : List Event :=
  [.sdaRel, .sclRel, .delay, .sdaSample v, .sclLow, .sdaLow, .delay]

/-- The acknowledgment cell is read as the level sampled in it. -/
theorem SymReader.foldl_ackCellEvents (v : Level) {r : SymReader} (h : r.scl = .low) :
    (ackCellEvents v).foldl SymReader.read r = ⟨.low, .low, false, v, r.out ++ [.bit v]⟩ := by
  simp [ackCellEvents, SymReader.read, h]

/-- `BYTE_OUT` is eight data cells and an acknowledgment cell (R112). -/
theorem outEvents_eq_cells (b : Byte) (v : Level) :
    outEvents b v =
      outCellEvents (b.getLsbD 7) ++ outCellEvents (b.getLsbD 6) ++ outCellEvents (b.getLsbD 5) ++
      outCellEvents (b.getLsbD 4) ++ outCellEvents (b.getLsbD 3) ++ outCellEvents (b.getLsbD 2) ++
      outCellEvents (b.getLsbD 1) ++ outCellEvents (b.getLsbD 0) ++ ackCellEvents v := by
  simp only [outEvents, outHeadEvents, ackCellEvents, List.append_assoc, List.cons_append, List.nil_append]

/-- `BYTE_OUT(b)` is read as the frame of `b`, most significant bit first (R78). -/
theorem SymReader.foldl_outEvents (b : Byte) (v : Level) {r : SymReader} (h : r.scl = .low) :
    (outEvents b v).foldl SymReader.read r = ⟨.low, .low, false, v, r.out ++ frameSyms b v⟩ := by
  simp [outEvents_eq_cells, foldl_outCellEvents, foldl_ackCellEvents, h, frameSyms, byteLevels]

/-- From the idle line state, `START_COND` is read as START and leaves the clock low (R74). -/
theorem SymReader.foldl_startEvents :
    startEvents.foldl SymReader.read ⟨.rel, .rel, false, .high, []⟩ =
      ⟨.low, .low, false, .high, [.start]⟩ := by
  decide

/-- What follows the events of a `BEGIN` adds to START and the address frame, and takes nothing away. -/
theorem sym_begin_append (b : Byte) (v : Level) (es : List Event) :
    ∃ more, sym (startEvents ++ outEvents b v ++ es) = .start :: (frameSyms b v ++ more) := by
  obtain ⟨more, hmore⟩ :=
    SymReader.out_prefix_foldl es ⟨.low, .low, false, v, [.start] ++ frameSyms b v⟩
  refine ⟨more, ?_⟩
  rw [sym, List.foldl_append, List.foldl_append, SymReader.foldl_startEvents,
    SymReader.foldl_outEvents b v rfl, ← hmore]
  rfl

end Sys2Proof.Machine
end

section
/-! PROOF. The parts of a WRITE or READ only append to the trace, so the events of `BEGIN` stand first. -/

namespace Sys2Proof.Machine

theorem trace_prefix_byteOut (b : Byte) (s : State) : s.trace <+: (byteOut b s).trace := by
  rw [byteOut_eq]; exact List.prefix_append _ _

theorem trace_prefix_endTx (s : State) : s.trace <+: (endTx s).trace := by
  rw [endTx_eq]; exact List.prefix_append _ _

theorem trace_prefix_readByte (s : State) : s.trace <+: (readByte s).trace := by
  rw [readByte_eq]; exact List.prefix_append _ _

theorem trace_prefix_writeLoop (n acked : Nat) (s : State) : s.trace <+: (writeLoop n acked s).2.trace := by
  induction n generalizing acked s with
  | zero => exact List.prefix_rfl
  | succ n ih =>
    have hb := trace_prefix_byteOut s.bufByte s
    rw [writeLoop_succ]
    cases outAnswer s.bufByte s with
    | low =>
      have hrest := ih (acked + 1) ((byteOut s.bufByte s).setIdx (s.idx + 1))
      rw [State.setIdx_trace] at hrest
      exact hb.trans hrest
    | high => exact hb

theorem trace_prefix_writeData (s : State) : s.trace <+: (writeData s).2.trace := by
  rw [writeData]
  cases s.ackl with
  | nack => exact List.prefix_rfl
  | ack => exact trace_prefix_writeLoop _ _ (s.setIdx 0)

theorem trace_prefix_readData (s : State) : s.trace <+: (readData s).trace := by
  rw [readData]
  cases s.ackl with
  | nack => exact List.prefix_rfl
  | ack =>
    exact repeatCell_induct (P := fun t => s.trace <+: t.trace)
      (fun t ht => ht.trans (trace_prefix_readByte t)) _ (s := s.setIdx 0) List.prefix_rfl

theorem beginTx_trace_prefix_writeTransfer (a : Addr) (s : State) :
    (beginTx a .write s).trace <+: (writeTransfer a s).trace :=
  (trace_prefix_writeData _).trans (trace_prefix_endTx _)

theorem beginTx_trace_prefix_readTransfer (a : Addr) (s : State) :
    (beginTx a .read s).trace <+: (readTransfer a s).trace :=
  (trace_prefix_readData _).trans (trace_prefix_endTx _)

/-- A trace that goes on from a `BEGIN` reads as START and the frame of its address byte, then whatever
follows. -/
theorem sym_of_beginTx_prefix {a : Addr} {d : Dir} {s t : State}
    (h : (beginTx a d s).trace <+: t.trace) :
    ∃ es more, t.trace = s.trace ++ es ∧
      sym es = .start :: (frameSyms (addressByte a d) (beginAnswer a d s) ++ more) := by
  obtain ⟨rest, hrest⟩ := h
  obtain ⟨more, hmore⟩ := sym_begin_append (addressByte a d) (beginAnswer a d s) rest
  refine ⟨_, more, ?_, hmore⟩
  rw [← hrest, beginTx_eq]
  simp only [List.append_assoc]

end Sys2Proof.Machine
end

section
/-! PROOF. The address byte's bits (30_encoding.md R73), and O9. -/

namespace Sys2Proof.Machine

/-- The address byte is the address with the direction bit after it: the shift makes the room the OR
fills. -/
theorem addressByte_eq_append (a : Addr) (d : Dir) : addressByte a d = a ++ d.bit := by
  revert a; cases d <;> decide

/-- Bit 0 is the direction: 0 for WRITE, 1 for READ. -/
theorem addressByte_getLsbD_zero (a : Addr) (d : Dir) :
    (addressByte a d).getLsbD 0 = decide (d = .read) := by
  rw [addressByte_eq_append, BitVec.getLsbD_append]
  cases d <;> rfl

/-- Bits 7:1 are the address. -/
theorem addressByte_getLsbD_succ (a : Addr) (d : Dir) (i : Nat) :
    (addressByte a d).getLsbD (i + 1) = a.getLsbD i := by
  rw [addressByte_eq_append, BitVec.getLsbD_append]
  simp

theorem addressByte_extract_address (a : Addr) (d : Dir) : (addressByte a d).extractLsb' 1 7 = a := by
  refine BitVec.eq_of_getLsbD_eq fun i hi => ?_
  rw [BitVec.getLsbD_extractLsb', Nat.add_comm 1 i, addressByte_getLsbD_succ]
  simp [hi]

/-- On the wire the address byte is the address from bit 6 to bit 0, then the direction. -/
theorem byteLevels_addressByte (a : Addr) (d : Dir) :
    byteLevels (addressByte a d) = [a.getLsbD 6, a.getLsbD 5, a.getLsbD 4, a.getLsbD 3, a.getLsbD 2,
      a.getLsbD 1, a.getLsbD 0, decide (d = .read)].map levelOf := by
  simp only [byteLevels, addressByte_getLsbD_succ, addressByte_getLsbD_zero, List.map]

/-- WRITE and READ complete, and their trace goes on from that of their `BEGIN`. -/
theorem transfer_goes_on_from_beginTx {i : Instr} {a : Addr} {d : Dir}
    (hi : (d = .write ∧ i = .write a) ∨ (d = .read ∧ i = .read a)) (s : State) :
    ∃ t, exec i s = .next t ∧ (beginTx a d s).trace <+: t.trace := by
  obtain ⟨rfl, rfl⟩ | ⟨rfl, rfl⟩ := hi
  · exact ⟨_, rfl, beginTx_trace_prefix_writeTransfer a s⟩
  · exact ⟨_, rfl, beginTx_trace_prefix_readTransfer a s⟩

end Sys2Proof.Machine

open Sys2Proof Sys2Proof.Machine

/-- Settles O9: a transfer's trace starts with its `BEGIN`, whose events read as START and the address
byte's frame; what follows only adds symbols. -/
theorem firstByteOnTheWireIsTheAddressByte : Obligations.FirstByteOnTheWireIsTheAddressByte := by
  refine ⟨fun a d => ⟨rfl, addressByte_extract_address a d, ?_, fun i s hi => ?_⟩, ?_⟩
  · rw [addressByte_getLsbD_zero, decide_eq_true_iff]
  · obtain ⟨t, hexec, hgrow⟩ := transfer_goes_on_from_beginTx hi s
    obtain ⟨es, more, htrace, hsym⟩ := sym_of_beginTx_prefix hgrow
    refine ⟨t, es, .bit (beginAnswer a d s) :: more, hexec, htrace, ?_⟩
    rw [hsym, frameSyms, byteLevels_addressByte]
    simp
  · decide

end

section
/-! PROOF. The opcode of a word written as opcode and argument (30_encoding.md R70), the clock-line drivers
(40_line_primitives.md R94, R95), and O14. -/

namespace Sys2Proof

@[simp] theorem opField_append (op : BitVec 4) (arg : Byte) : opField (op ++ arg) = op :=
  BitVec.extractLsb'_append_eq_left

/-- `SCL_LOW` ignores `ARG` (R72). -/
theorem decode_sclLow_append (arg : Byte) : decode (0xC#4 ++ arg) = .ok .sclLow := by
  rw [decode, opField_append]
  rfl

/-- `SCL_REL` ignores `ARG` (R72). -/
theorem decode_sclRel_append (arg : Byte) : decode (0xD#4 ++ arg) = .ok .sclRel := by
  rw [decode, opField_append]
  rfl

end Sys2Proof

namespace Sys2Proof.Machine

theorem exec_sclLow (s : State) : exec .sclLow s = .next (sclLow s) := rfl

theorem exec_sclRel (s : State) : exec .sclRel s = .next (sclRel s) := rfl

/-- An asserted line is LOW whatever the others do (10_state.md R23). -/
@[simp] theorem lineLevel_low (others : Level) : lineLevel .low others = .low := rfl

/-- A released line is what the others make it (R23). -/
@[simp] theorem lineLevel_rel (others : Level) : lineLevel .rel others = others := rfl

end Sys2Proof.Machine

open Sys2Proof Sys2Proof.Machine

/-- Settles O14: each primitive's whole next state is its register write and its event, the decoder reads the
opcode alone, and no environment answer stands in either. -/
theorem clockLinePrimitivesDriveScl : Obligations.ClockLinePrimitivesDriveScl := by
  refine ⟨fun s => ⟨?_, ?_⟩, fun arg => ⟨decode_sclLow_append arg, decode_sclRel_append arg⟩,
    fun others => ⟨lineLevel_low others, lineLevel_rel others⟩⟩
  · rw [exec_sclLow, sclLow_eq]
  · rw [exec_sclRel, sclRel_eq]

end

section
/-! PROOF. The argument field of a word written as opcode and argument (30_encoding.md R70), and the words of
the two byte operations (R71, R72). -/

namespace Sys2Proof

@[simp] theorem argField_append (op : BitVec 4) (arg : Byte) : argField (op ++ arg) = arg :=
  BitVec.extractLsb'_append_eq_right

/-- `BYTE_OUT` takes the whole of `ARG` as its byte. -/
theorem decode_byteOut_append (b : Byte) : decode (0x6#4 ++ b) = .ok (.byteOut b) := by
  rw [decode, opField_append, argField_append]
  rfl

/-- `BYTE_IN` reads `ARG[0]` and ignores the other seven bits. -/
theorem decode_byteIn_append (arg : Byte) : decode (0x7#4 ++ arg) = .ok (.byteIn (arg.getLsbD 0)) := by
  rw [decode, opField_append, argField_append]
  rfl

end Sys2Proof
end

section
/-! PROOF. The levels the byte operations sample: they are the environment's listed answers
(10_state.md R38), and the byte `BYTE_IN` makes of eight of them has them as its bits (41_byte_engine.md R117). -/

namespace Sys2Proof.Machine

/-- No levels sampled agree with any list of answers. -/
theorem answered_nil (given : List Level) : Answered [] given := by
  simp [Answered]

/-- One more sample takes the first listed answer, if there is one. -/
theorem answered_answerSda_cons {given asked : List Level} (h : Answered asked given.tail) (t : List Event) :
    Answered (answerSda given t :: asked) given := by
  cases given with
  | nil => rfl
  | cons v vs =>
    have hrest : asked.take vs.length = vs.take asked.length := h
    simp [Answered, hrest]

/-- The acknowledgment level of `BYTE_OUT` is the next answer. -/
theorem answered_outAnswer (b : Byte) (s : State) : Answered [outAnswer b s] s.sdaIn :=
  answered_answerSda_cons (answered_nil _) _

/-- The data cells of `BYTE_IN`, with the line released, use the answers up in order. -/
theorem answered_inAnswers (n : Nat) {s : State} (h : s.sdaO = .rel) : Answered (inAnswers n s) s.sdaIn := by
  induction n generalizing s with
  | zero => exact answered_nil _
  | succ n ih =>
    have hrel : (inCell s).sdaO = .rel := by rw [inCell_eq h]; exact h
    have htail : (inCell s).sdaIn = s.sdaIn.tail := by rw [inCell_eq h]
    have hrest := ih hrel
    rw [htail] at hrest
    exact answered_answerSda_cons hrest _

/-- `BYTE_IN` releases the line before its first cell, so its eight levels are the next eight answers. -/
theorem answered_byteAnswers (s : State) : Answered (byteAnswers s) s.sdaIn :=
  answered_inAnswers 8 (s := (sdaRel s).setShreg 0) rfl

/-- A shift in drops the level of bit 7 and takes the new level in as bit 0's (R113). -/
theorem byteLevels_shiftIn (b : Byte) (v : Level) : byteLevels (shiftIn b v) = (byteLevels b).tail ++ [v] := by
  cases v <;> simp [byteLevels, shiftIn, Level.bit, levelOf]

/-- Shifting levels in pushes them through the register from its low end. -/
theorem byteLevels_foldl_shiftIn (vs : List Level) (b : Byte) :
    byteLevels (vs.foldl shiftIn b) = (byteLevels b ++ vs).drop vs.length := by
  induction vs generalizing b with
  | nil => simp
  | cons v vs ih =>
    rw [List.foldl_cons, ih, byteLevels_shiftIn, List.append_assoc]
    rfl

/-- Eight levels fill the register: the byte has them as its bits, the first as bit 7 (R117 c). -/
theorem byteLevels_byteOf {vs : List Level} (h : vs.length = 8) : byteLevels (byteOf vs) = vs := by
  rw [byteOf, byteLevels_foldl_shiftIn, h]
  rfl

end Sys2Proof.Machine
end

section
/-! PROOF. The whole next state of `BYTE_OUT` and `BYTE_IN` (41_byte_engine.md R111, R113): O18 and O19. -/

namespace Sys2Proof.Machine

theorem exec_byteOut (b : Byte) (s : State) : exec (.byteOut b) s = .next (byteOut b s) := rfl

theorem exec_byteIn (last : Bool) (s : State) : exec (.byteIn last) s = .next (byteIn last s) := rfl

end Sys2Proof.Machine

open Sys2Proof Sys2Proof.Machine

/-- Settles O18: the word's argument is the byte, the level sampled is the environment's next answer, and
`byteOut_eq` gives the whole next state. -/
theorem byteOutSendsTheByteAndLatchesTheAck : Obligations.ByteOutSendsTheByteAndLatchesTheAck := by
  intro b s
  refine ⟨decode_byteOut_append b, outAnswer b s, 0, 0, answered_outAnswer b s, ?_⟩
  rw [exec_byteOut, byteOut_eq, List.drop_one]
  rfl

/-- Settles O19: the eight levels sampled are the environment's next answers and the levels of the byte left in
`SHREG`, and `byteIn_eq` gives the whole next state. -/
theorem byteInReceivesTheByteAndDrivesTheAck : Obligations.ByteInReceivesTheByteAndDrivesTheAck := by
  refine ⟨decode_byteIn_append, fun last s => ⟨byteOf (byteAnswers s), 0, 0, ?_⟩⟩
  have hlevels : byteLevels (byteOf (byteAnswers s)) = byteAnswers s := byteLevels_byteOf (byteAnswers_length s)
  rw [hlevels, exec_byteIn, byteIn_eq]
  exact ⟨answered_byteAnswers s, rfl⟩

end

section
/-! PROOF. How many events each part of a transfer appends: 47 for a byte operation (41_byte_engine.md R110), 51
for `BEGIN` and 3 for `END` (42_framing.md R130, R131), 54 for a WRITE or READ and its data bytes' besides
(43_public_commands.md R156). -/

namespace Sys2Proof.Machine

@[simp] theorem outEvents_length (b : Byte) (v : Level) : (outEvents b v).length = 47 := by
  simp [outEvents, outHeadEvents, outCellEvents]

theorem inEvents_length (last : Bool) {vs : List Level} (h : vs.length = 8) : (inEvents last vs).length = 47 := by
  simp [inEvents, inCellEvents, List.length_flatMap, h]

/-- From `s` to `t` the trace gains exactly `n` events. -/
def TraceGrows (n : Nat) (s t : State) : Prop := ∃ es, t.trace = s.trace ++ es ∧ es.length = n

theorem TraceGrows.refl (s : State) : TraceGrows 0 s s := ⟨[], by simp, rfl⟩

theorem TraceGrows.trans {m n : Nat} {s t u : State} (h : TraceGrows m s t) (g : TraceGrows n t u) :
    TraceGrows (m + n) s u := by
  obtain ⟨es, hes, rfl⟩ := h
  obtain ⟨fs, hfs, rfl⟩ := g
  exact ⟨es ++ fs, by rw [hfs, hes, List.append_assoc], List.length_append⟩

/-- `IDX` is not the trace. -/
theorem TraceGrows.of_setIdx {n i : Nat} {s t : State} (h : TraceGrows n (s.setIdx i) t) : TraceGrows n s t := h

theorem traceGrows_byteOut (b : Byte) (s : State) : TraceGrows 47 s (byteOut b s) :=
  ⟨_, by rw [byteOut_eq], outEvents_length _ _⟩

theorem traceGrows_beginTx (a : Addr) (d : Dir) (s : State) : TraceGrows 51 s (beginTx a d s) :=
  ⟨_, by rw [beginTx_eq], by simp [startEvents]⟩

theorem traceGrows_endTx (s : State) : TraceGrows 3 s (endTx s) := ⟨_, by rw [endTx_eq], rfl⟩

theorem traceGrows_readByte (s : State) : TraceGrows 47 s (readByte s) :=
  ⟨_, by rw [readByte_eq], inEvents_length _ (byteAnswers_length s)⟩

/-- The loop of a READ: 47 events for each byte. -/
theorem traceGrows_repeat_readByte (n : Nat) (s : State) : TraceGrows (47 * n) s (repeatCell readByte n s) := by
  induction n generalizing s with
  | zero => exact .refl s
  | succ n ih =>
    have hturns := (traceGrows_readByte s).trans (ih (readByte s))
    rwa [show 47 + 47 * n = 47 * (n + 1) by omega] at hturns

/-- `BEGIN`, a data part of `n` events and `END` are `54 + n` events. -/
theorem traceGrows_transfer {a : Addr} {d : Dir} {s u : State} {n : Nat} (h : TraceGrows n (beginTx a d s) u) :
    TraceGrows (54 + n) s (endTx u) := by
  have hparts := ((traceGrows_beginTx a d s).trans h).trans (traceGrows_endTx u)
  rwa [show 51 + n + 3 = 54 + n by omega] at hparts

end Sys2Proof.Machine
end

section
/-! PROOF. The outcome of a WRITE and of a READ whose acknowledgments the environment lists
(43_public_commands.md R151, R152, R157), and O29. -/

namespace Sys2Proof.Machine

/-- The address byte's acknowledgment is the first listed answer. -/
theorem beginTx_ackl_listed {a : Addr} {d : Dir} {s : State} {v : Level} {rest : List Level}
    (h : s.sdaIn = v :: rest) : (beginTx a d s).ackl = ackOf v := by
  rw [beginTx_eq, beginAnswer, outAnswer, startCond_eq, h]
  rfl

/-- The answers after the first are left for the data part, whatever byte it starts at. -/
theorem beginTx_setIdx_sdaIn_listed (a : Addr) (d : Dir) (i : Nat) {s : State} {v : Level} {rest : List Level}
    (h : s.sdaIn = v :: rest) : ((beginTx a d s).setIdx i).sdaIn = rest := by
  rw [State.setIdx_sdaIn, beginTx_eq, h]
  rfl

/-- A data byte's acknowledgment is the next listed answer. -/
theorem outAnswer_listed (b : Byte) {s : State} {v : Level} {rest : List Level} (h : s.sdaIn = v :: rest) :
    outAnswer b s = v := by
  rw [outAnswer, h]
  rfl

/-- SUCCESS takes a byte to send and every byte acknowledged; the empty buffer is D7's FAILURE. -/
theorem writeStatus_failure {len acked : Nat} (h : len = 0 ∨ acked < len) : writeStatus len acked = .failure :=
  if_neg (by omega)

theorem writeStatus_success {len : Nat} (h : 1 ≤ len) : writeStatus len len = .success := if_pos ⟨h, rfl⟩

/-- The loop of a WRITE goes through `j` acknowledged bytes, 47 events each, and on with what is left. -/
theorem writeLoop_acked (j n acked : Nat) {s : State} {rest : List Level}
    (h : s.sdaIn = List.replicate j .low ++ rest) :
    ∃ u, writeLoop (j + n) acked s = writeLoop n (acked + j) u ∧ u.sdaIn = rest ∧ TraceGrows (47 * j) s u := by
  induction j generalizing acked s with
  | zero => exact ⟨s, by rw [Nat.zero_add]; rfl, h, .refl s⟩
  | succ j ih =>
    have hanswer : outAnswer s.bufByte s = .low := outAnswer_listed _ h
    have hin : ((byteOut s.bufByte s).setIdx (s.idx + 1)).sdaIn = List.replicate j .low ++ rest := by
      rw [State.setIdx_sdaIn, byteOut_eq, h]
      rfl
    obtain ⟨u, hloop, hrest, hgrow⟩ := ih (acked + 1) hin
    refine ⟨u, ?_, hrest, ?_⟩
    · rw [Nat.succ_add, writeLoop_succ, hanswer, Nat.add_comm j 1, ← Nat.add_assoc]
      exact hloop
    · have hturns := (traceGrows_byteOut s.bufByte s).trans hgrow.of_setIdx
      rwa [show 47 + 47 * j = 47 * (j + 1) by omega] at hturns

/-- The data part of a WRITE with every byte acknowledged. -/
theorem writeLoop_all_acked (n : Nat) {s : State} {rest : List Level}
    (h : s.sdaIn = List.replicate n .low ++ rest) :
    (writeLoop n 0 s).1 = n ∧ TraceGrows (47 * n) s (writeLoop n 0 s).2 := by
  obtain ⟨u, hloop, -, hgrow⟩ := writeLoop_acked n 0 0 h
  rw [Nat.add_zero, Nat.zero_add] at hloop
  rw [hloop]
  exact ⟨rfl, hgrow⟩

/-- The data part of a WRITE whose byte `j` is the first not acknowledged: that byte is the last one sent. -/
theorem writeLoop_first_nack {j n : Nat} (hj : j < n) {s : State} {rest : List Level}
    (h : s.sdaIn = List.replicate j .low ++ .high :: rest) :
    (writeLoop n 0 s).1 = j ∧ TraceGrows (47 * (j + 1)) s (writeLoop n 0 s).2 := by
  obtain ⟨m, rfl⟩ : ∃ m, n = j + (m + 1) := ⟨n - j - 1, by omega⟩
  obtain ⟨u, hloop, hrest, hgrow⟩ := writeLoop_acked j (m + 1) 0 h
  rw [hloop, writeLoop_succ, outAnswer_listed u.bufByte hrest]
  exact ⟨Nat.zero_add j, hgrow.trans (traceGrows_byteOut u.bufByte u)⟩

/-- No data part when the address is not acknowledged (R151). -/
theorem writeData_address_nack (a : Addr) {s : State} {rest : List Level} (h : s.sdaIn = .high :: rest) :
    writeData (beginTx a .write s) = (0, beginTx a .write s) := by
  rw [writeData, beginTx_ackl_listed h]
  rfl

/-- With the address acknowledged the data part is the loop over the `LEN` bytes (R151). -/
theorem writeData_address_ack (a : Addr) {s : State} {rest : List Level} (h : s.sdaIn = .low :: rest) :
    writeData (beginTx a .write s) = writeLoop s.len 0 ((beginTx a .write s).setIdx 0) := by
  rw [writeData, beginTx_ackl_listed h, (writeFrame_beginTx a .write s).len]
  rfl

/-- No byte is read when the address is not acknowledged (R152). -/
theorem readData_address_nack (a : Addr) {s : State} {rest : List Level} (h : s.sdaIn = .high :: rest) :
    readData (beginTx a .read s) = beginTx a .read s := by
  rw [readData, beginTx_ackl_listed h]
  rfl

/-- With the address acknowledged all `LEN` bytes are read (R152). -/
theorem readData_address_ack (a : Addr) {s : State} {rest : List Level} (h : s.sdaIn = .low :: rest) :
    readData (beginTx a .read s) = repeatCell readByte s.len ((beginTx a .read s).setIdx 0) := by
  rw [readData, beginTx_ackl_listed h, (writeFrame_beginTx a .read s).len]
  rfl

/-- A WRITE completes; its status is counted from the bytes acknowledged, its events from its data part. -/
theorem write_outcome {a : Addr} {s : State} {n : Nat} {st : Status}
    (hst : writeStatus s.len (writeData (beginTx a .write s)).1 = st)
    (hdata : TraceGrows n (beginTx a .write s) (writeData (beginTx a .write s)).2) :
    ∃ t es, exec (.write a) s = .next t ∧ t.status = st ∧ t.trace = s.trace ++ es ∧ es.length = 54 + n := by
  obtain ⟨es, htrace, hlen⟩ := traceGrows_transfer hdata
  exact ⟨writeTransfer a s, es, rfl, hst, htrace, hlen⟩

/-- A READ completes; its status is the address's acknowledgment, its buffer and events those of its data part. -/
theorem read_outcome {a : Addr} {s : State} {n : Nat} {v : Level} {rest : List Level} (h : s.sdaIn = v :: rest)
    (hdata : TraceGrows n (beginTx a .read s) (readData (beginTx a .read s))) :
    ∃ t es, exec (.read a) s = .next t ∧ t.status = readStatus (ackOf v) ∧
      t.buf = (readData (beginTx a .read s)).buf ∧ t.trace = s.trace ++ es ∧ es.length = 54 + n := by
  obtain ⟨es, htrace, hlen⟩ := traceGrows_transfer hdata
  have hst : readStatus (beginTx a .read s).ackl = readStatus (ackOf v) := by rw [beginTx_ackl_listed h]
  exact ⟨readTransfer a s, es, rfl, hst, (writeFrame_endTx _).buf, htrace, hlen⟩

end Sys2Proof.Machine

open Sys2Proof Sys2Proof.Machine

/-- Settles O29, row by row: the listed answers decide how far the data part goes, and `write_outcome` and
`read_outcome` turn that into the status and the number of events. -/
theorem statusFollowsThePolicyTable : Obligations.StatusFollowsThePolicyTable := by
  intro a s rest
  refine ⟨fun haddr => ?_, fun hempty haddr => ?_, fun hlen hacks => ?_, fun j hj hacks => ?_,
    fun haddr => ?_, fun hempty haddr => ?_, fun _ haddr => ?_, init s, rfl, rfl⟩
  · -- WRITE, address not acknowledged
    have hdata := writeData_address_nack a haddr
    refine write_outcome (n := 0) ?_ ?_
    · rw [hdata]; exact writeStatus_failure (Nat.eq_zero_or_pos s.len)
    · rw [hdata]; exact .refl _
  · -- WRITE, empty buffer
    have hdata := writeData_address_ack a haddr
    rw [hempty, writeLoop] at hdata
    refine write_outcome (n := 0) (writeStatus_failure (.inl hempty)) ?_
    rw [hdata]; exact (TraceGrows.refl _).of_setIdx
  · -- WRITE, every byte acknowledged
    have hdata := writeData_address_ack a hacks
    obtain ⟨hcount, hgrow⟩ := writeLoop_all_acked s.len (beginTx_setIdx_sdaIn_listed a .write 0 hacks)
    rw [← hdata] at hcount hgrow
    refine write_outcome ?_ hgrow.of_setIdx
    rw [hcount]; exact writeStatus_success hlen
  · -- WRITE, byte `j` not acknowledged
    have hdata := writeData_address_ack a hacks
    obtain ⟨hcount, hgrow⟩ := writeLoop_first_nack hj (beginTx_setIdx_sdaIn_listed a .write 0 hacks)
    rw [← hdata] at hcount hgrow
    refine write_outcome ?_ hgrow.of_setIdx
    rw [hcount]; exact writeStatus_failure (.inr hj)
  · -- READ, address not acknowledged
    have hdata := readData_address_nack a haddr
    have hout := read_outcome (n := 0) (a := a) haddr (by rw [hdata]; exact .refl _)
    rwa [hdata, (writeFrame_beginTx a .read s).buf] at hout
  · -- READ, empty buffer
    have hdata := readData_address_ack a haddr
    rw [hempty, repeatCell] at hdata
    have hgrow : TraceGrows 0 (beginTx a .read s) (readData (beginTx a .read s)) := by
      rw [hdata]; exact (TraceGrows.refl _).of_setIdx
    have hout := read_outcome haddr hgrow
    rwa [hdata, State.setIdx_buf, (writeFrame_beginTx a .read s).buf] at hout
  · -- READ, `LEN` bytes
    have hgrow := traceGrows_repeat_readByte s.len ((beginTx a .read s).setIdx 0)
    rw [← readData_address_ack a haddr] at hgrow
    obtain ⟨t, es, hexec, hst, -, hevents⟩ := read_outcome haddr hgrow.of_setIdx
    exact ⟨t, es, hexec, hst, hevents⟩

end

section
/-! PROOF. The decoder, row by row of the opcode table, and the encoder after it (30_encoding.md R70 to R73, R80):
O4, O5, O6, O7 and O10. -/

namespace Sys2Proof

/-! ### A word is its two fields (R70) -/

theorem exists_fields (w : CmdWord) : ∃ (op : BitVec 4) (arg : Byte), w = op ++ arg :=
  ⟨opField w, argField w,
    (BitVec.extractLsb'_append_extractLsb'_eq_extractLsb' (x := w) (len₁ := 8) (len₂ := 4) rfl).symm ▸ by simp⟩

/-- A case split over the opcodes, each case named by its row of R71. -/
theorem opcode_split {P : BitVec 4 → Prop} (init : P 0x0#4) (write : P 0x1#4) (read : P 0x2#4) (reserved3 : P 0x3#4)
    (beginTx : P 0x4#4) (endTx : P 0x5#4) (byteOut : P 0x6#4) (byteIn : P 0x7#4) (sdaLow : P 0x8#4)
    (sdaRel : P 0x9#4) (sdaSample : P 0xA#4) (delay : P 0xB#4) (sclLow : P 0xC#4) (sclRel : P 0xD#4)
    (sclSample : P 0xE#4) (reservedF : P 0xF#4) (op : BitVec 4) : P op := by
  obtain ⟨n, hn⟩ := op
  interval_cases n <;> assumption

/-! ### The decoder at each opcode (R71, R72, R80), after those stated above -/

@[simp] theorem decode_init_append (arg : Byte) : decode (0x0#4 ++ arg) = .ok .init := by
  rw [decode, opField_append]; rfl

/-- `WRITE` takes its address from `ARG[6:0]` and refuses `ARG[7] = 1`. -/
@[simp] theorem decode_write_append (arg : Byte) : decode (0x1#4 ++ arg) =
    if arg.msb then .error .addressTopBit else .ok (.write (arg.extractLsb' 0 7)) := by
  rw [decode, opField_append, addressOperand, argField_append]
  cases arg.msb <;> rfl

/-- So does `READ`. -/
@[simp] theorem decode_read_append (arg : Byte) : decode (0x2#4 ++ arg) =
    if arg.msb then .error .addressTopBit else .ok (.read (arg.extractLsb' 0 7)) := by
  rw [decode, opField_append, addressOperand, argField_append]
  cases arg.msb <;> rfl

@[simp] theorem decode_reserved3_append (arg : Byte) : decode (0x3#4 ++ arg) = .error .reservedOpcode := by
  rw [decode, opField_append]; rfl

@[simp] theorem decode_beginTx_append (arg : Byte) : decode (0x4#4 ++ arg) =
    .ok (.beginTx (arg.extractLsb' 1 7) (if arg.getLsbD 0 then .read else .write)) := by
  rw [decode, opField_append, dirOperand, argField_append]; rfl

@[simp] theorem decode_endTx_append (arg : Byte) : decode (0x5#4 ++ arg) = .ok .endTx := by
  rw [decode, opField_append]; rfl

@[simp] theorem decode_sdaLow_append (arg : Byte) : decode (0x8#4 ++ arg) = .ok .sdaLow := by
  rw [decode, opField_append]; rfl

@[simp] theorem decode_sdaRel_append (arg : Byte) : decode (0x9#4 ++ arg) = .ok .sdaRel := by
  rw [decode, opField_append]; rfl

@[simp] theorem decode_sdaSample_append (arg : Byte) : decode (0xA#4 ++ arg) = .ok .sdaSample := by
  rw [decode, opField_append]; rfl

@[simp] theorem decode_delay_append (arg : Byte) : decode (0xB#4 ++ arg) = .ok .delay := by
  rw [decode, opField_append]; rfl

@[simp] theorem decode_sclSample_append (arg : Byte) : decode (0xE#4 ++ arg) = .ok .sclSample := by
  rw [decode, opField_append]; rfl

@[simp] theorem decode_reservedF_append (arg : Byte) : decode (0xF#4 ++ arg) = .error .reservedOpcode := by
  rw [decode, opField_append]; rfl

/-! ### Operands inside `ARG` (R72) -/

/-- Seven bits behind a 0 have no bit 7 and are read back. -/
theorem msb_zero_append (a : Addr) : (0#1 ++ a : Byte).msb = false := by
  revert a; decide

theorem zero_append_extract {arg : Byte} (h : arg.msb = false) : 0#1 ++ arg.extractLsb' 0 7 = arg := by
  revert arg; decide

/-- The address and the direction bit fill `ARG` of `BEGIN`. -/
theorem extract_append_dir (arg : Byte) :
    arg.extractLsb' 1 7 ++ (if arg.getLsbD 0 then Dir.read else Dir.write).bit = arg := by
  revert arg; decide

theorem dir_of_bit (a : Addr) (d : Dir) : (if (a ++ d.bit : Byte).getLsbD 0 then Dir.read else Dir.write) = d := by
  rw [← Machine.addressByte_eq_append, Machine.addressByte_getLsbD_zero]
  cases d <;> rfl

theorem encode_write (a : Addr) : encode (.write a) = 0x1#4 ++ (0#1 ++ a) := rfl
theorem encode_read (a : Addr) : encode (.read a) = 0x2#4 ++ (0#1 ++ a) := rfl
theorem encode_beginTx (a : Addr) (d : Dir) : encode (.beginTx a d) = 0x4#4 ++ (a ++ d.bit) := rfl
theorem encode_byteIn (l : Bool) : encode (.byteIn l) = 0x7#4 ++ (0#7 ++ BitVec.ofBool l) := rfl

/-- R80's check at the two fields. -/
theorem wordWellFormed_append (op : BitVec 4) (arg : Byte) : wordWellFormed (op ++ arg) =
    (!(op == 0x3#4) && !(op == 0xF#4) && !((op == 0x1#4 || op == 0x2#4) && arg.msb)) := by
  have hop : (op ++ arg).extractLsb' 8 4 = op := opField_append op arg
  have hbit : (op ++ arg).getLsbD 7 = arg.msb := BitVec.getLsbD_append
  rw [wordWellFormed, opcodeAssigned, addressInvariant, hop, hbit]

/-- The decoder answers on the words R80 does not call reserved, and on no other. -/
theorem decode_ok_iff (w : CmdWord) : (∃ i, decode w = .ok i) ↔ wordWellFormed w = true := by
  obtain ⟨op, arg, rfl⟩ := exists_fields w
  rw [wordWellFormed_append]
  cases op using opcode_split with
  | write => rw [decode_write_append]; cases arg.msb <;> simp
  | read => rw [decode_read_append]; cases arg.msb <;> simp
  | byteOut => simp [decode_byteOut_append]
  | byteIn => simp [decode_byteIn_append]
  | sclLow => simp [decode_sclLow_append]
  | sclRel => simp [decode_sclRel_append]
  | init | reserved3 | beginTx | endTx | sdaLow | sdaRel | sdaSample | delay | sclSample | reservedF => simp

/-- The mask of the opcode keeps the opcode, whatever `ARG` holds. -/
theorem append_and_opcodeMask (op : BitVec 4) (arg : Byte) : (op ++ arg) &&& 0xF00#12 = op ++ 0#8 := by
  have hmask : 0xF00#12 = BitVec.allOnes 4 ++ 0#8 := rfl
  rw [hmask, BitVec.and_append, BitVec.and_allOnes, BitVec.and_zero]

/-- The words that decode to `i` differ from `encode i` in ignored bits only: `ARG[7:1]` of `BYTE_IN`, and `ARG` of
the operations without operand. -/
theorem word_of_decode {op : BitVec 4} {arg : Byte} {i : Instr} (h : decode (op ++ arg) = .ok i) :
    op ++ arg = encode i ∨ (op = 0x7#4 ∧ i = .byteIn (arg.getLsbD 0)) ∨
    (encode i = op ++ 0#8 ∧ (∀ l, i ≠ .byteIn l) ∧
      ¬ ((∃ a, i = .write a ∨ i = .read a) ∨ (∃ a d, i = .beginTx a d) ∨ (∃ b, i = .byteOut b))) := by
  cases op using opcode_split with
  | write =>
    rw [decode_write_append] at h
    split at h
    · cases h
    · next hm =>
      obtain rfl := Except.ok.inj h
      exact .inl (by rw [encode_write, zero_append_extract (Bool.eq_false_iff.mpr hm)])
  | read =>
    rw [decode_read_append] at h
    split at h
    · cases h
    · next hm =>
      obtain rfl := Except.ok.inj h
      exact .inl (by rw [encode_read, zero_append_extract (Bool.eq_false_iff.mpr hm)])
  | beginTx =>
    obtain rfl := Except.ok.inj ((decode_beginTx_append arg).symm.trans h)
    exact .inl (by rw [encode_beginTx, extract_append_dir])
  | byteOut =>
    obtain rfl := Except.ok.inj ((decode_byteOut_append arg).symm.trans h)
    exact .inl rfl
  | byteIn => exact .inr (.inl ⟨rfl, (Except.ok.inj ((decode_byteIn_append arg).symm.trans h)).symm⟩)
  | reserved3 | reservedF => simp at h
  | init | endTx | sdaLow | sdaRel | sdaSample | delay | sclLow | sclRel | sclSample =>
    simp only [decode_init_append, decode_endTx_append, decode_sdaLow_append, decode_sdaRel_append,
      decode_sdaSample_append, decode_delay_append, decode_sclLow_append, decode_sclRel_append,
      decode_sclSample_append] at h
    obtain rfl := Except.ok.inj h
    exact .inr (.inr ⟨rfl, by simp, by simp⟩)

/-- The mask of the opcode and `ARG[0]` keeps what `BYTE_IN` reads. -/
theorem byteIn_word_and_mask (arg : Byte) :
    (0x7#4 ++ arg) &&& 0xF01#12 = encode (.byteIn (arg.getLsbD 0)) &&& 0xF01#12 := by
  revert arg; decide

/-! ### The rows of spec/opcode_table.json -/

/-- No row of the table looks below `ARG[7]`. -/
theorem holds_and_mask {r : TableRow} (h : r ∈ opcodeTable) (w : CmdWord) : r.holds (w &&& 0xF80#12) = r.holds w := by
  have hmask : 0xF80#12 &&& r.mask = r.mask := by
    revert r; decide
  rw [TableRow.holds, TableRow.holds, BitVec.and_assoc, hmask]

theorem rowsOf_and_mask (w : CmdWord) : rowsOf (w &&& 0xF80#12) = rowsOf w := by
  unfold rowsOf
  rw [List.filter_congr fun r hr => holds_and_mask hr w]

theorem and_argMask (arg : Byte) : arg &&& 0x80#8 = if arg.msb then 0x80#8 else 0x00#8 := by
  revert arg; decide

theorem rowsOf_append (op : BitVec 4) (arg : Byte) :
    rowsOf (op ++ arg) = rowsOf (op ++ if arg.msb then 0x80#8 else 0x00#8) := by
  have hmask : 0xF80#12 = BitVec.allOnes 4 ++ 0x80#8 := rfl
  rw [← rowsOf_and_mask, hmask, BitVec.and_append, BitVec.and_allOnes, and_argMask]

end Sys2Proof

open Sys2Proof Sys2Proof.Machine

/-- Settles O4, one row of the table at a time: the decoder's equation at the row's opcode, and the operand read
back out of `ARG`. -/
theorem decodeOfEncodeIsTheInstruction : Obligations.DecodeOfEncodeIsTheInstruction := by
  intro i
  cases i with
  | init => exact decode_init_append 0
  | write a =>
    rw [encode_write, decode_write_append, msb_zero_append, BitVec.extractLsb'_append_eq_right]
    rfl
  | read a =>
    rw [encode_read, decode_read_append, msb_zero_append, BitVec.extractLsb'_append_eq_right]
    rfl
  | beginTx a d =>
    rw [encode_beginTx, decode_beginTx_append, dir_of_bit, BitVec.extractLsb'_append_eq_left]
  | endTx => exact decode_endTx_append 0
  | byteOut b => exact decode_byteOut_append b
  | byteIn l =>
    rw [encode_byteIn, decode_byteIn_append]
    cases l <;> rfl
  | sdaLow => exact decode_sdaLow_append 0
  | sdaRel => exact decode_sdaRel_append 0
  | sdaSample => exact decode_sdaSample_append 0
  | delay => exact decode_delay_append 0
  | sclLow => exact decode_sclLow_append 0
  | sclRel => exact decode_sclRel_append 0
  | sclSample => exact decode_sclSample_append 0

/-- Settles O5: the check of R80 read off the two fields, and the words of one decoding. -/
theorem decodeRefusesExactlyReservedWords : Obligations.DecodeRefusesExactlyReservedWords := by
  refine ⟨decode_ok_iff, fun w i h => ?_⟩
  obtain ⟨op, arg, rfl⟩ := exists_fields w
  rcases word_of_decode h with he | ⟨rfl, rfl⟩ | ⟨he, hin, hoperand⟩
  · exact ⟨by rw [he], fun _ => he, fun _ _ => by rw [he]⟩
  · refine ⟨?_, by simp, fun _ _ => byteIn_word_and_mask arg⟩
    rw [append_and_opcodeMask, encode_byteIn, append_and_opcodeMask]
  · refine ⟨?_, fun hi => absurd hi hoperand, fun l hl => absurd hl (hin l)⟩
    rw [he, append_and_opcodeMask, append_and_opcodeMask]

/-- Settles O6: a row looks at the opcode and `ARG[7]` only, so at each opcode two words stand for all. -/
theorem decodeAgreesWithTheOpcodeTable : Obligations.DecodeAgreesWithTheOpcodeTable := by
  intro w
  obtain ⟨op, arg, rfl⟩ := exists_fields w
  rw [rowsOf_append]
  cases op using opcode_split with
  | write => rw [decode_write_append]; cases arg.msb <;> rfl
  | read => rw [decode_read_append]; cases arg.msb <;> rfl
  | byteOut => rw [decode_byteOut_append]; cases arg.msb <;> rfl
  | byteIn => rw [decode_byteIn_append]; cases arg.msb <;> rfl
  | sclLow => rw [decode_sclLow_append]; cases arg.msb <;> rfl
  | sclRel => rw [decode_sclRel_append]; cases arg.msb <;> rfl
  | beginTx => rw [decode_beginTx_append]; cases arg.msb <;> rfl
  | init | reserved3 | endTx | sdaLow | sdaRel | sdaSample | delay | sclSample | reservedF =>
    simp; cases arg.msb <;> rfl

/-- Settles O7: each word is evaluated. -/
theorem sampleWordsDecode : Obligations.SampleWordsDecode := by
  unfold Obligations.SampleWordsDecode
  decide

/-- Settles O10: both are the address with the direction bit after it. -/
theorem beginArgumentIsTheAddressByte : Obligations.BeginArgumentIsTheAddressByte := by
  intro a d
  rw [encode_beginTx, argField_append, addressByte_eq_append]

end

section
/-! PROOF. The address byte as an arithmetic of shifts and masks (42_framing.md R133), and O8. -/

namespace Sys2Proof.Machine

/-- The shift loses no bit of the address, and leaves bit 0 to the direction. -/
theorem address_shift (a : Addr) (d : Dir) :
    (a.setWidth 8 <<< 1) >>> 1 = (a.setWidth 8 : Byte) ∧ ((a.setWidth 8 <<< 1) &&& d.bit.setWidth 8) = (0 : Byte) := by
  revert a; cases d <;> decide

/-- A shift and a mask recover the address and the direction. -/
theorem addressByte_parts (a : Addr) (d : Dir) :
    addressByte a d >>> 1 = a.setWidth 8 ∧ (addressByte a d &&& 1#8) = d.bit.setWidth 8 := by
  revert a; cases d <;> decide

/-- The byte's parity is the direction bit. -/
theorem addressByte_toNat_mod_two (a : Addr) (d : Dir) : (addressByte a d).toNat % 2 = d.bit.toNat := by
  rw [addressByte_eq_append, BitVec.toNat_append, Nat.shiftLeft_eq, Nat.or_comm]
  cases d <;> simp [Dir.bit, Nat.or_mod_two_pow (n := 1)]

theorem addressByte_injective {a a' : Addr} {d d' : Dir} (h : addressByte a d = addressByte a' d') : a = a' ∧ d = d' := by
  have ha := addressByte_extract_address a d
  have hd := addressByte_getLsbD_zero a d
  rw [h, addressByte_extract_address] at ha
  rw [h, addressByte_getLsbD_zero] at hd
  exact ⟨ha.symm, by cases d <;> cases d' <;> simp_all⟩

theorem addressByte_surjective (b : Byte) : ∃ a d, addressByte a d = b :=
  ⟨b.extractLsb' 1 7, if b.getLsbD 0 then .read else .write, by rw [addressByte_eq_append, extract_append_dir]⟩

end Sys2Proof.Machine

open Sys2Proof Sys2Proof.Machine

/-- Settles O8: the address's seven bits and the direction's one fill the byte and are read back out of it. -/
theorem addressByteIsABijection : Obligations.AddressByteIsABijection := by
  refine ⟨fun a d => ?_, fun _ _ _ _ => addressByte_injective, addressByte_surjective, rfl, rfl⟩
  obtain ⟨hshift, hand⟩ := address_shift a d
  obtain ⟨haddr, hdir⟩ := addressByte_parts a d
  have hparity := addressByte_toNat_mod_two a d
  refine ⟨rfl, hshift, hand, ?_, ?_, haddr, hdir⟩
  · rw [hparity]; cases d <;> simp [Dir.bit]
  · rw [hparity]; cases d <;> simp [Dir.bit]

end

section
/-! PROOF. The buffer as data (20_memory.md R50): O11 and O12. -/

namespace Sys2Proof.Machine

/-- A buffer made of bytes gives them back in order. -/
theorem Memory.bytes_ofBytes (bs : List Byte) : (Memory.ofBytes 0 bs).bytes bs.length = bs := by
  refine List.ext_getElem (by simp [Memory.bytes]) fun i _ hi => ?_
  simp [Memory.bytes, Memory.read_ofBytes, hi]

/-- The first cell of a canonical memory, and what is canonical behind it. -/
theorem Memory.wfFrom_cell {lo b : Nat} {w : Byte} {m : Memory} :
    Memory.wfFrom lo ((b, w) :: m) = true ↔ lo ≤ b ∧ w ≠ Memory.unlisted ∧ m.wfFrom (b + 1) = true := by
  simp [Memory.wfFrom, and_assoc]

/-- A canonical memory that reads as unlisted everywhere lists nothing. -/
theorem Memory.eq_nil_of_read {lo : Nat} {m : Memory} (h : m.wfFrom lo = true)
    (hr : ∀ x, m.read x = Memory.unlisted) : m = [] := by
  cases m with
  | nil => rfl
  | cons c m =>
    obtain ⟨b, w⟩ := c
    obtain ⟨-, hw, -⟩ := wfFrom_cell.1 h
    exact absurd (by simpa [Memory.read_cons_cell] using hr b) hw

/-- The first index a canonical memory lists is not below that of one it reads like. -/
theorem Memory.first_le {lo b c : Nat} {w v : Byte} {m m' : Memory} (h : Memory.wfFrom lo ((b, w) :: m) = true)
    (h' : Memory.wfFrom lo ((c, v) :: m') = true)
    (hr : ∀ x, Memory.read ((b, w) :: m) x = Memory.read ((c, v) :: m') x) : c ≤ b := by
  by_contra hlt
  obtain ⟨-, hw, -⟩ := wfFrom_cell.1 h
  obtain ⟨-, hv, hm'⟩ := wfFrom_cell.1 h'
  have hbelow : Memory.wfFrom c ((c, v) :: m') = true := wfFrom_cell.2 ⟨le_rfl, hv, hm'⟩
  have hread := hr b
  rw [Memory.read_cons_cell, if_pos rfl, Memory.read_below hbelow (by omega)] at hread
  exact hw hread

/-- Behind equal first cells two canonical memories that read alike still read alike. -/
theorem Memory.read_tail {b : Nat} {w v : Byte} {m m' : Memory} (hm : m.wfFrom (b + 1) = true)
    (hm' : m'.wfFrom (b + 1) = true) (hr : ∀ x, Memory.read ((b, w) :: m) x = Memory.read ((b, v) :: m') x) (x : Nat) :
    m.read x = m'.read x := by
  have hread := hr x
  rw [Memory.read_cons_cell, Memory.read_cons_cell] at hread
  by_cases hx : x = b
  · rw [Memory.read_below hm (by omega), Memory.read_below hm' (by omega)]
  · rwa [if_neg hx, if_neg hx] at hread

/-- Canonical memories that read alike are the same list of cells. -/
theorem Memory.ext_of_read {lo : Nat} {m m' : Memory} (h : m.wfFrom lo = true) (h' : m'.wfFrom lo = true)
    (hr : ∀ x, m.read x = m'.read x) : m = m' := by
  induction m generalizing lo m' with
  | nil => exact (Memory.eq_nil_of_read h' fun x => (hr x).symm).symm
  | cons c m ih =>
    obtain ⟨b, w⟩ := c
    cases m' with
    | nil => exact Memory.eq_nil_of_read h hr
    | cons c' m' =>
      obtain ⟨b', v⟩ := c'
      obtain rfl : b = b' :=
        le_antisymm (Memory.first_le h' h fun x => (hr x).symm) (Memory.first_le h h' hr)
      obtain ⟨-, -, hm⟩ := wfFrom_cell.1 h
      obtain ⟨-, -, hm'⟩ := wfFrom_cell.1 h'
      have hwv : w = v := by simpa [Memory.read_cons_cell] using hr b
      rw [hwv, ih hm hm' (Memory.read_tail hm hm' hr)]

end Sys2Proof.Machine

open Sys2Proof Sys2Proof.Machine

/-- Settles O11 by the laws of read after write and of a buffer made of bytes. -/
theorem bufferReadsWhatWasWritten : Obligations.BufferReadsWhatWasWritten :=
  ⟨fun _ a v hm => ⟨Memory.wf_write hm a v, Memory.read_write hm a v⟩,
    fun bs => ⟨Memory.wf_ofBytes bs, Memory.bytes_ofBytes bs⟩⟩

/-- Settles O12, by induction on the cells: the first listed index of each is where the other first reads as
something listed. -/
theorem canonicalBuffersAreEqualWhenTheyReadAlike : Obligations.CanonicalBuffersAreEqualWhenTheyReadAlike :=
  fun _ _ => Memory.ext_of_read

end

section
/-! PROOF. The line primitives as instructions (40_line_primitives.md R91 to R97): O13, O15, O16 and O17. -/

namespace Sys2Proof.Machine

theorem exec_sdaLow (s : State) : exec .sdaLow s = .next (sdaLow s) := rfl

theorem exec_sdaRel (s : State) : exec .sdaRel s = .next (sdaRel s) := rfl

theorem exec_delay (s : State) : exec .delay s = .next (delay s) := rfl

theorem exec_sdaSample (s : State) : exec .sdaSample s = .next (sdaSample s) := rfl

theorem exec_sclSample (s : State) : exec .sclSample s = .next (sclSample s) := rfl

/-- A sample of the clock line the master asserts reads LOW and asks nobody (R96). -/
theorem sclSample_asserted {s : State} (h : s.sclO = .low) :
    sclSample s = { s with trace := s.trace ++ [.sclSample .low] } := by
  simp [sclSample, sclSampled, h, State.emit]

/-- A sample of the released clock line uses one answer up and records it. -/
theorem sclSample_released {s : State} (h : s.sclO = .rel) :
    sclSample s = { s with sclIn := s.sclIn.tail, trace := s.trace ++ [.sclSample s.envScl] } := by
  simp [sclSample, sclSampled, h, State.emit, State.setSclIn]

/-- The level read from a released data line is the next listed answer. -/
theorem answered_envSda (s : State) : Answered [s.envSda] s.sdaIn :=
  answered_answerSda_cons (answered_nil _) s.trace

/-- So is the level read from a released clock line, on its own list. -/
theorem answered_envScl (s : State) : Answered [s.envScl] s.sclIn := by
  unfold State.envScl
  cases s.sclIn <;> simp [Answered]

end Sys2Proof.Machine

open Sys2Proof Sys2Proof.Machine

/-- Settles O13: each primitive's whole next state is its register write and its event. -/
theorem dataLinePrimitivesDriveSda : Obligations.DataLinePrimitivesDriveSda := by
  refine ⟨fun s => ⟨?_, ?_⟩, fun others => ⟨lineLevel_low others, lineLevel_rel others⟩⟩
  · rw [exec_sdaLow, sdaLow_eq]
  · rw [exec_sdaRel, sdaRel_eq]

/-- Settles O15. -/
theorem delayIsOnlyAnEvent : Obligations.DelayIsOnlyAnEvent := by
  intro s
  rw [exec_delay, delay_eq]

/-- Settles O16, for each value of the data driver. -/
theorem sdaSampleReadsTheWiredAnd : Obligations.SdaSampleReadsTheWiredAnd := by
  refine fun s => ⟨fun h => ?_, fun h => ⟨s.envSda, answered_envSda s, ?_⟩⟩
  · rw [exec_sdaSample, sdaSample_asserted h]
  · rw [exec_sdaSample, sdaSample_released h, List.drop_one]

/-- Settles O17, for each value of the clock driver. -/
theorem sclSampleReadsTheWiredAnd : Obligations.SclSampleReadsTheWiredAnd := by
  refine fun s => ⟨fun h => ?_, fun h => ⟨s.envScl, answered_envScl s, ?_⟩⟩
  · rw [exec_sclSample, sclSample_asserted h]
  · rw [exec_sclSample, sclSample_released h, List.drop_one]

end

section
/-! PROOF. The shift register (41_byte_engine.md R117), and O20. -/

namespace Sys2Proof.Machine

/-- Shifts out add up. -/
theorem iterate_shiftOut (k : Nat) (b : Byte) : shiftOut^[k] b = b <<< k := by
  induction k with
  | zero => simp
  | succ k ih => rw [Function.iterate_succ_apply', ih, shiftOut, BitVec.shiftLeft_add]

/-- After `k` shifts bit 7 is the byte's bit `7 - k`. -/
theorem msb_iterate_shiftOut (b : Byte) {k : Nat} (hk : k ≤ 7) : (shiftOut^[k] b).msb = b.getLsbD (7 - k) := by
  rw [iterate_shiftOut, BitVec.msb_eq_getLsbD_last, BitVec.getLsbD_shiftLeft]
  simp [hk]

theorem iterate_shiftOut_eight (b : Byte) : shiftOut^[8] b = 0#8 := by
  rw [iterate_shiftOut, BitVec.shiftLeft_eq_zero le_rfl]

/-- The levels of a byte, the first its bit 7. -/
theorem byteLevels_getElem (b : Byte) (k : Nat) (hk : k < (byteLevels b).length) :
    (byteLevels b)[k] = levelOf (b.getLsbD (7 - k)) := by
  have hk8 : k < 8 := hk
  interval_cases k <;> rfl

/-- Eight levels shifted in push the old register out. -/
theorem byteLevels_foldl_shiftIn_eight (b : Byte) {vs : List Level} (h : vs.length = 8) :
    byteLevels (vs.foldl shiftIn b) = vs := by
  rw [byteLevels_foldl_shiftIn, h]
  rfl

/-- `BYTE_IN` answered with a byte's levels returns the byte and uses those answers up. -/
theorem byteIn_listed (last : Bool) {b : Byte} {s : State} {rest : List Level} (h : s.sdaIn = byteLevels b ++ rest) :
    (byteIn last s).shreg = b ∧ (byteIn last s).sdaIn = rest := by
  rw [byteIn_eq]
  exact ⟨by rw [byteAnswers_listed b rest h, byteOf_byteLevels], by rw [h]; rfl⟩

end Sys2Proof.Machine

open Sys2Proof Sys2Proof.Machine

/-- Settles O20, law by law. -/
theorem shiftRegisterCarriesTheByte : Obligations.ShiftRegisterCarriesTheByte := by
  refine ⟨fun b _ hk => msb_iterate_shiftOut b hk, iterate_shiftOut_eight, fun b vs k hk hlen => ?_,
    fun b last s rest hs => ⟨byteIn last s, rfl, byteIn_listed last hs⟩⟩
  have hlevels := byteLevels_foldl_shiftIn_eight b hlen
  rw [← byteLevels_getElem _ k (by rwa [hlevels])]
  simp only [hlevels]

end

section
/-! PROOF. The drivers along the events of a byte operation (41_byte_engine.md R116, 42_framing.md R132 a), and
O21. -/

namespace Sys2Proof.Machine

/-- Every event of the list that changes the data driver finds the clock driver asserted. -/
def DataMovesOnLow : Drive × Drive → List Event → Prop
  | _, [] => True
  | x, e :: t => ((driversAfter x [e]).1 ≠ x.1 → x.2 = .low) ∧ DataMovesOnLow (driversAfter x [e]) t

theorem driversAfter_append (x : Drive × Drive) (t t' : List Event) :
    driversAfter x (t ++ t') = driversAfter (driversAfter x t) t' := List.foldl_append

theorem DataMovesOnLow.append {x : Drive × Drive} {t t' : List Event} (h : DataMovesOnLow x t)
    (h' : DataMovesOnLow (driversAfter x t) t') : DataMovesOnLow x (t ++ t') := by
  induction t generalizing x with
  | nil => exact h'
  | cons e t ih => exact ⟨h.1, ih h.2 h'⟩

/-- The property of the list, said of any one event of it. -/
theorem DataMovesOnLow.of_split {x : Drive × Drive} {pre post : List Event} {e : Event}
    (h : DataMovesOnLow x (pre ++ e :: post)) (hmove : (driversAfter x (pre ++ [e])).1 ≠ (driversAfter x pre).1) :
    (driversAfter x pre).2 = .low := by
  induction pre generalizing x with
  | nil => exact h.1 hmove
  | cons e' pre ih => exact ih h.2 hmove

/-- Events that, entered with the clock asserted, move the data line only while it is, and leave it asserted. -/
def LowClockCell (es : List Event) : Prop :=
  ∀ d, DataMovesOnLow (d, .low) es ∧ (driversAfter (d, .low) es).2 = .low

theorem LowClockCell.append {es fs : List Event} (h : LowClockCell es) (g : LowClockCell fs) :
    LowClockCell (es ++ fs) := by
  intro d
  obtain ⟨hmoves, hclock⟩ := h d
  obtain ⟨gmoves, gclock⟩ := g (driversAfter (d, .low) es).1
  have hmid : driversAfter (d, .low) es = ((driversAfter (d, .low) es).1, .low) := Prod.ext rfl hclock
  rw [← hmid] at gmoves gclock
  exact ⟨hmoves.append gmoves, by rw [driversAfter_append]; exact gclock⟩

theorem lowClockCell_flatMap {α : Type} {f : α → List Event} (h : ∀ x, LowClockCell (f x)) (xs : List α) :
    LowClockCell (xs.flatMap f) := by
  induction xs with
  | nil => exact fun _ => ⟨trivial, rfl⟩
  | cons x xs ih => exact (h x).append ih

theorem lowClockCell_outCellEvents (b : Bool) : LowClockCell (outCellEvents b) := by
  intro d
  cases d <;> cases b <;> simp [outCellEvents, putEvent, DataMovesOnLow, driversAfter]

theorem lowClockCell_ackCellEvents (v : Level) : LowClockCell (ackCellEvents v) := by
  intro d
  cases d <;> simp [ackCellEvents, DataMovesOnLow, driversAfter]

theorem lowClockCell_inCellEvents (v : Level) : LowClockCell (inCellEvents v) := by
  intro d
  cases d <;> simp [inCellEvents, DataMovesOnLow, driversAfter]

/-- The acknowledgment cell the master drives (R113). -/
theorem lowClockCell_inAckEvents (last : Bool) :
    LowClockCell [putEvent last, .sclRel, .delay, .sclLow, .sdaLow, .delay] := by
  intro d
  cases d <;> cases last <;> simp [putEvent, DataMovesOnLow, driversAfter]

theorem lowClockCell_sdaRel : LowClockCell [.sdaRel] := fun _ => ⟨⟨fun _ => rfl, trivial⟩, rfl⟩

/-- `BYTE_OUT` is nine such cells. -/
theorem lowClockCell_outEvents (b : Byte) (v : Level) : LowClockCell (outEvents b v) := by
  rw [outEvents_eq_cells]
  have hcell := lowClockCell_outCellEvents
  exact (((((((((hcell _).append (hcell _)).append (hcell _)).append (hcell _)).append (hcell _)).append
    (hcell _)).append (hcell _)).append (hcell _)).append (lowClockCell_ackCellEvents v))

/-- `BYTE_IN` is the opening release, its data cells and an acknowledgment cell. -/
theorem lowClockCell_inEvents (last : Bool) (vs : List Level) : LowClockCell (inEvents last vs) :=
  (lowClockCell_sdaRel.append (lowClockCell_flatMap lowClockCell_inCellEvents vs)).append
    (lowClockCell_inAckEvents last)

/-- Both byte operations close with `SCL_LOW`, `SDA_LOW`, `DELAY`. -/
theorem outEvents_closing (b : Byte) (v : Level) :
    outEvents b v = (outHeadEvents b ++ [.sdaSample v]) ++ [.sclLow, .sdaLow, .delay] := by
  simp [outEvents]

theorem inEvents_closing (last : Bool) (vs : List Level) :
    inEvents last vs =
      ([.sdaRel] ++ vs.flatMap inCellEvents ++ [putEvent last, .sclRel, .delay]) ++ [.sclLow, .sdaLow, .delay] := by
  simp [inEvents]

/-- What a byte operation does, for both of them: it completes with the lines held, having appended events of the
given kind. -/
theorem exec_byteOp {i : Instr} (hi : (∃ b, i = .byteOut b) ∨ (∃ l, i = .byteIn l)) (s : State) :
    ∃ t es, exec i s = .next t ∧ t.HeldLines ∧ t.trace = s.trace ++ es ∧
      ((∃ b v, es = outEvents b v) ∨ ∃ l vs, vs.length = 8 ∧ es = inEvents l vs) := by
  rcases hi with ⟨b, rfl⟩ | ⟨l, rfl⟩
  · refine ⟨_, outEvents b (outAnswer b s), exec_byteOut b s, ?_, by rw [byteOut_eq], .inl ⟨b, _, rfl⟩⟩
    rw [byteOut_eq]
    exact ⟨rfl, rfl⟩
  · refine ⟨_, inEvents l (byteAnswers s), exec_byteIn l s, ?_, by rw [byteIn_eq],
      .inr ⟨l, _, byteAnswers_length s, rfl⟩⟩
    rw [byteIn_eq]
    exact ⟨rfl, rfl⟩

/-- The events of a byte operation are low-clock cells, the last of which closes with `SCL_LOW`, `SDA_LOW`,
`DELAY`. -/
theorem byteOp_events_closing {es : List Event}
    (h : (∃ b v, es = outEvents b v) ∨ ∃ l vs, vs.length = 8 ∧ es = inEvents l vs) :
    LowClockCell es ∧ ∃ fs, es = fs ++ [.sclLow, .sdaLow, .delay] := by
  rcases h with ⟨b, v, rfl⟩ | ⟨l, vs, -, rfl⟩
  · exact ⟨lowClockCell_outEvents b v, _, outEvents_closing b v⟩
  · exact ⟨lowClockCell_inEvents l vs, _, inEvents_closing l vs⟩

end Sys2Proof.Machine

open Sys2Proof Sys2Proof.Machine

/-- Settles O21: the operation's events are a row of low-clock cells. -/
theorem byteOperationsMoveDataOnlyWhileClockIsLow : Obligations.ByteOperationsMoveDataOnlyWhileClockIsLow := by
  intro i s hi hclock
  obtain ⟨t, es, hexec, hheld, htrace, hes⟩ := exec_byteOp hi s
  obtain ⟨hcells, fs, rfl⟩ := byteOp_events_closing hes
  refine ⟨t, fs, hexec, hheld, by rw [htrace, List.append_assoc], fun pre e post hsplit hmove => ?_⟩
  have hmoves := (hcells s.sdaO).1
  rw [hsplit, ← hclock] at hmoves
  exact hmoves.of_split hmove

end

section
/-! PROOF. The counts of a byte operation's events (30_encoding.md R78, 41_byte_engine.md R110), and O22. -/

namespace Sys2Proof.Machine

/-- The cells hold the same holds and clock events whatever is on the wire. -/
theorem outCellEvents_count (b : Bool) :
    (outCellEvents b).count .delay = 2 ∧ (outCellEvents b).count .sclRel = 1 ∧ (outCellEvents b).count .sclLow = 1 := by
  cases b <;> decide

theorem ackCellEvents_count (v : Level) :
    (ackCellEvents v).count .delay = 2 ∧ (ackCellEvents v).count .sclRel = 1 ∧ (ackCellEvents v).count .sclLow = 1 := by
  cases v <;> decide

theorem inCellEvents_count (v : Level) :
    (inCellEvents v).count .delay = 2 ∧ (inCellEvents v).count .sclRel = 1 ∧ (inCellEvents v).count .sclLow = 1 := by
  cases v <;> decide

theorem inAckEvents_count (last : Bool) :
    [putEvent last, .sclRel, .delay, .sclLow, .sdaLow, .delay].count .delay = 2 ∧
    [putEvent last, .sclRel, .delay, .sclLow, .sdaLow, .delay].count .sclRel = 1 ∧
    [putEvent last, .sclRel, .delay, .sclLow, .sdaLow, .delay].count .sclLow = 1 := by
  cases last <;> decide

theorem outEvents_count (b : Byte) (v : Level) :
    (outEvents b v).count .delay = 18 ∧ (outEvents b v).count .sclRel = 9 ∧ (outEvents b v).count .sclLow = 9 := by
  simp [outEvents_eq_cells, outCellEvents_count, ackCellEvents_count]

theorem flatMap_inCellEvents_count (vs : List Level) :
    (vs.flatMap inCellEvents).count .delay = 2 * vs.length ∧ (vs.flatMap inCellEvents).count .sclRel = vs.length ∧
    (vs.flatMap inCellEvents).count .sclLow = vs.length := by
  induction vs with
  | nil => decide
  | cons v vs ih =>
    obtain ⟨hd, hr, hl⟩ := ih
    simp only [List.flatMap_cons, List.count_append, inCellEvents_count, hd, hr, hl, List.length_cons]
    omega

theorem inEvents_count (last : Bool) {vs : List Level} (h : vs.length = 8) :
    (inEvents last vs).count .delay = 18 ∧ (inEvents last vs).count .sclRel = 9 ∧
    (inEvents last vs).count .sclLow = 9 := by
  simp only [inEvents, List.count_append, inAckEvents_count, flatMap_inCellEvents_count, h]
  decide

end Sys2Proof.Machine

open Sys2Proof Sys2Proof.Machine

/-- Settles O22 for each of the two byte operations. -/
theorem byteOperationsAreFortySevenEvents : Obligations.ByteOperationsAreFortySevenEvents := by
  intro i s hi
  obtain ⟨t, es, hexec, -, htrace, ⟨b, v, rfl⟩ | ⟨l, vs, hlen, rfl⟩⟩ := exec_byteOp hi s
  · exact ⟨t, _, hexec, htrace, outEvents_length b v, outEvents_count b v⟩
  · exact ⟨t, _, hexec, htrace, inEvents_length l hlen, inEvents_count l hlen⟩

end

section
/-! PROOF. `BEGIN`, `END` and `INIT` as instructions (42_framing.md R130, R131; 43_public_commands.md R150): O23, O24,
O25 and O26. -/

namespace Sys2Proof.Machine

theorem exec_beginTx (a : Addr) (d : Dir) (s : State) : exec (.beginTx a d) s = .next (beginTx a d s) := rfl

theorem exec_endTx (s : State) : exec .endTx s = .next (endTx s) := rfl

theorem exec_init (s : State) : exec .init s = .next (init s) := rfl

/-- The address byte's acknowledgment is the next listed answer. -/
theorem answered_beginAnswer (a : Addr) (d : Dir) (s : State) : Answered [beginAnswer a d s] s.sdaIn :=
  answered_outAnswer (addressByte a d) (startCond s)

/-- From the idle line state `BEGIN` is read as START and the address frame. -/
theorem SymReader.foldl_beginEvents (b : Byte) (v : Level) :
    (startEvents ++ outEvents b v).foldl SymReader.read ⟨.rel, .rel, false, .high, []⟩ =
      ⟨.low, .low, false, v, [.start] ++ frameSyms b v⟩ := by
  rw [List.foldl_append, foldl_startEvents, foldl_outEvents b v rfl]

/-- From the lines held low `STOP_COND` is read as STOP (R75). -/
theorem SymReader.foldl_stopEvents {r : SymReader} (hsda : r.sda = .low) (hscl : r.scl = .low) :
    (stopEvents.foldl SymReader.read r).out = r.out ++ [.stop] := by
  simp [stopEvents, SymReader.read, hsda, hscl]

end Sys2Proof.Machine

open Sys2Proof Sys2Proof.Machine

/-- Settles O23: `beginTx_eq` gives the whole next state. -/
theorem beginSendsStartAndAddressByte : Obligations.BeginSendsStartAndAddressByte := by
  refine fun a d s => ⟨beginAnswer a d s, answered_beginAnswer a d s, ?_⟩
  rw [exec_beginTx, beginTx_eq, List.drop_one, ← addressByte_eq_append]
  rfl

/-- Settles O24: `endTx_eq` gives the whole next state. -/
theorem endEmitsTheStopCondition : Obligations.EndEmitsTheStopCondition := by
  intro s
  rw [exec_endTx, endTx_eq]
  rfl

/-- Settles O25: the reader of R84 run over the events of `BEGIN` and of `END`. -/
theorem framingReadsAsStartAndStop : Obligations.FramingReadsAsStartAndStop := by
  refine ⟨fun a d s => ⟨_, _, beginAnswer a d s, exec_beginTx a d s, by rw [beginTx_eq], ?_⟩,
    fun s t r hsda hscl hexec => ⟨stopEvents, ?_, SymReader.foldl_stopEvents hsda hscl⟩⟩
  · rw [sym, SymReader.foldl_beginEvents, addressByte_eq_append]
    rfl
  · obtain rfl := Host.Outcome.next.inj ((exec_endTx s).symm.trans hexec)
    rw [endTx_eq]

/-- Settles O26: `init_eq` gives the whole next state. -/
theorem initReleasesBothLines : Obligations.InitReleasesBothLines := by
  intro s
  rw [exec_init, init_eq]

end

section
/-! PROOF. What the interface answers to a presented word (30_encoding.md R80; 70_reset_and_hazards.md R212, R215), and
what a step makes of it: O37, O38, O39, O49 and O50. -/

namespace Sys2Proof

/-- A word's opcode is that of the operation it decodes to. -/
theorem opField_of_decode {w : CmdWord} {i : Instr} (h : decode w = .ok i) : opField w = opField (encode i) := by
  obtain ⟨op, arg, rfl⟩ := exists_fields w
  rcases word_of_decode h with he | ⟨rfl, rfl⟩ | ⟨he, -, -⟩
  · rw [he]
  · rw [encode_byteIn, opField_append, opField_append]
  · rw [he, opField_append, opField_append]

/-- The public operations are opcodes 0 to 2 (R71). -/
theorem hostIssuable_eq (i : Instr) : hostIssuable i = decide ((opField (encode i)).toNat ≤ 2) := by
  cases i <;> simp only [encode, mkWord, opField_append] <;> rfl

/-- Of the public operations INIT is opcode 0. -/
theorem needsInit_iff {i : Instr} (h : hostIssuable i = true) :
    Machine.needsInit i = true ↔ opField (encode i) ≠ 0#4 := by
  rcases Machine.hostIssuable_cases h with rfl | ⟨a, rfl⟩ | ⟨a, rfl⟩
  · decide
  · rw [encode_write, opField_append]; simp [Machine.needsInit]
  · rw [encode_read, opField_append]; simp [Machine.needsInit]

theorem wordWellFormed_of_decode {w : CmdWord} {i : Instr} (h : decode w = .ok i) : wordWellFormed w = true :=
  (decode_ok_iff w).1 ⟨i, h⟩

theorem hostWordWellFormed_of_decode {w : CmdWord} {i : Instr} (h : decode w = .ok i) :
    hostWordWellFormed w = hostIssuable i := by
  rw [hostWordWellFormed, wordWellFormed_of_decode h, hostIssuable_eq, ← opField_of_decode h, Bool.true_and]
  rfl

theorem decode_error_of_reserved {w : CmdWord} (h : wordWellFormed w = false) : ∃ e, decode w = .error e := by
  cases hd : decode w with
  | error e => exact ⟨e, rfl⟩
  | ok i => rw [wordWellFormed_of_decode hd] at h; cases h

end Sys2Proof

namespace Sys2Proof.Machine

/-! ### The interface -/

theorem screenWord_reserved {w : CmdWord} (h : wordWellFormed w = false) (p : Presenter) (q : Bool) :
    screenWord p w q = .error (.reservedWord w) := by
  obtain ⟨e, he⟩ := decode_error_of_reserved h
  rw [screenWord, he]

theorem screenWord_micro {w : CmdWord} {i : Instr} (h : decode w = .ok i) (q : Bool) :
    screenWord .micro w q = .ok i := by
  rw [screenWord, h]

theorem screenWord_host {p : Presenter} {w : CmdWord} {i : Instr} (hp : p ≠ .micro) (h : decode w = .ok i) (q : Bool) :
    screenWord p w q = if hostIssuable i then (if needsInit i && !q then .error .beforeInit else .ok i)
      else .error (.internalOperation w) := by
  rw [screenWord, h]
  cases p with
  | micro => exact absurd rfl hp
  | call | poll => rfl

/-- The interface refuses reserved words of anybody, and of the host internal operations and a transfer before the
first INIT. -/
theorem screenWord_error_iff (p : Presenter) (w : CmdWord) (q : Bool) (e : Refusal) :
    screenWord p w q = .error e ↔
      (wordWellFormed w = false ∧ e = .reservedWord w) ∨
      (p ≠ .micro ∧ wordWellFormed w = true ∧ hostWordWellFormed w = false ∧ e = .internalOperation w) ∨
      (p ≠ .micro ∧ hostWordWellFormed w = true ∧ opField w ≠ 0#4 ∧ q = false ∧ e = .beforeInit) := by
  cases hwf : wordWellFormed w with
  | false =>
    have hhost : hostWordWellFormed w = false := by rw [hostWordWellFormed, hwf, Bool.false_and]
    simp [screenWord_reserved hwf, hhost, eq_comm (b := e)]
  | true =>
    obtain ⟨i, hi⟩ := (decode_ok_iff w).2 hwf
    rw [hostWordWellFormed_of_decode hi, opField_of_decode hi]
    by_cases hp : p = .micro
    · simp [hp, screenWord_micro hi]
    · rw [screenWord_host hp hi]
      cases hpub : hostIssuable i with
      | false => simp [hp, eq_comm (b := e)]
      | true => cases hn : needsInit i <;> cases q <;> simp [hp, ← needsInit_iff hpub, hn, eq_comm (b := e)]

/-! ### The step of an idle master -/

theorem step_idle {s : State} {r : Request} {rest : List Request} (hh : s.host = r :: rest) (hb : s.busy = false) :
    step s = issue r { s with host := rest } := by
  simp [step, hh, hb]

theorem step_idle_passive {s : State} (hb : s.busy = false) (hh : s.host = []) : step s = .next s := by
  simp [step, hh, hb]

/-- A host that does not keep to R216 is refused. -/
theorem step_busy_refused {s : State} {r : Request} {rest : List Request} (hh : s.host = r :: rest)
    (hw : r.waits = false) (hb : s.busy = true) : step s = .refused .busy := by
  simp [step, hh, hb, hw]

theorem issue_refused {r : Request} {s : State} {e : Refusal} (h : screenWord r.presenter r.word s.inited = .error e) :
    issue r s = .refused e := by
  rw [issue, h]

theorem issue_exec {r : Request} {s : State} {i : Instr} (h : screenWord r.presenter r.word s.inited = .ok i)
    (hp : r.presenter ≠ .poll) : issue r s = exec i (present r i s) := by
  rw [issue, h]
  cases hr : r.presenter with
  | poll => exact absurd hr hp
  | call | micro => rfl

theorem issue_accept {r : Request} {s : State} {i : Instr} (h : screenWord r.presenter r.word s.inited = .ok i)
    (hp : r.presenter = .poll) : issue r s = .next (accept i (present r i s)) := by
  rw [issue, h, hp]

/-! ### What acceptance writes -/

theorem present_write (r : Request) (a : Addr) (s : State) : present r (.write a) s =
    { s with cw := r.word, len := r.bytes.length, buf := Memory.ofBytes 0 r.bytes } := rfl

theorem present_read (r : Request) (a : Addr) (s : State) : present r (.read a) s =
    { s with cw := r.word, len := r.bytes.length, buf := Memory.ofBytes 0 r.bytes } := rfl

/-- Of the other operations a word brings no bytes. -/
theorem present_word {r : Request} {i : Instr} (h : hostIssuable i = false ∨ i = .init) (s : State) :
    present r i s = { s with cw := r.word } := by
  rcases h with h | rfl
  · cases i <;> simp_all [hostIssuable, present]
  · rfl

theorem accept_init (s : State) : accept .init s = { s with initAt := .sdaRel, busy := true } := rfl

theorem accept_write (a : Addr) (s : State) :
    accept (.write a) s = { s with busy := true, phase := .start, ustep := 0 } := rfl

theorem accept_read (a : Addr) (s : State) :
    accept (.read a) s = { s with busy := true, phase := .start, ustep := 0 } := rfl

/-! ### Every step answers -/

theorem exec_total (i : Instr) (s : State) : ∃ t, exec i s = .next t := by
  cases i <;> exact ⟨_, rfl⟩

/-- A presented word is refused by the interface, or its command runs or begins. -/
theorem issue_cases (r : Request) (s : State) :
    (∃ e, screenWord r.presenter r.word s.inited = .error e ∧ issue r s = .refused e) ∨
    (∃ i t, screenWord r.presenter r.word s.inited = .ok i ∧ issue r s = .next t) := by
  cases h : screenWord r.presenter r.word s.inited with
  | error e => exact .inl ⟨e, rfl, issue_refused h⟩
  | ok i =>
    by_cases hp : r.presenter = .poll
    · exact .inr ⟨i, _, rfl, issue_accept h hp⟩
    · obtain ⟨t, ht⟩ := exec_total i (present r i s)
      exact .inr ⟨i, t, rfl, (issue_exec h hp).trans ht⟩

/-- With no word presented that is not held back, a busy master takes a step of the sequencer. -/
theorem step_of_busy {s : State} (hb : s.busy = true) (hw : ∀ r rest, s.host = r :: rest → r.waits = true) :
    step s = .next (sequencerStep s) := by
  cases hh : s.host with
  | nil => exact step_busy hh hb
  | cons r rest => exact step_busy_waits hh (hw r rest hh) hb

/-- When and why a step is refused, in terms of the interface. -/
theorem step_refused_iff (s : State) (e : Refusal) : step s = .refused e ↔
    ∃ r rest, s.host = r :: rest ∧ ((s.busy = true ∧ r.waits = false ∧ e = .busy) ∨
      (s.busy = false ∧ screenWord r.presenter r.word s.inited = .error e)) := by
  cases hh : s.host with
  | nil => simp [step, hh]
  | cons r rest =>
    cases hb : s.busy with
    | true =>
      cases hw : r.waits with
      | true => simp [step_busy_waits hh hw hb, hw]
      | false => simp [step_busy_refused hh hw hb, hw, eq_comm (b := e)]
    | false =>
      rw [step_idle hh hb]
      rcases issue_cases r { s with host := rest } with ⟨e', hs, hi⟩ | ⟨i, t, hs, hi⟩
      · have hs' : screenWord r.presenter r.word s.inited = .error e' := hs
        simp [hi, hs']
      · have hs' : screenWord r.presenter r.word s.inited = .ok i := hs
        simp [hi, hs']

/-- A step answers a next state or refuses a presented word. -/
theorem step_answers (s : State) : (∃ t, step s = .next t) ∨ ∃ e r rest, step s = .refused e ∧ s.host = r :: rest := by
  cases hh : s.host with
  | nil => exact .inl ⟨if s.busy then sequencerStep s else s, by simp [step, hh]⟩
  | cons r rest =>
    cases hb : s.busy with
    | true =>
      cases hw : r.waits with
      | true => exact .inl ⟨_, step_busy_waits hh hw hb⟩
      | false => exact .inr ⟨_, r, rest, step_busy_refused hh hw hb, rfl⟩
    | false =>
      rw [step_idle hh hb]
      rcases issue_cases r { s with host := rest } with ⟨e, -, hi⟩ | ⟨i, t, -, hi⟩
      · exact .inr ⟨e, r, rest, hi, rfl⟩
      · exact .inl ⟨t, hi⟩

/-! ### A table word put where the next step takes one from (log 16) -/

/-- What presenting a word leaves as it was. -/
structure PresentFrame (s u : State) : Prop where
  sdaO : u.sdaO = s.sdaO
  sclO : u.sclO = s.sclO
  phase : u.phase = s.phase
  idx : u.idx = s.idx
  bitcnt : u.bitcnt = s.bitcnt
  ustep : u.ustep = s.ustep
  shreg : u.shreg = s.shreg
  ackl : u.ackl = s.ackl
  status : u.status = s.status
  busy : u.busy = s.busy
  trace : u.trace = s.trace
  inited : u.inited = s.inited
  initAt : u.initAt = s.initAt
  host : u.host = s.host
  sdaIn : u.sdaIn = s.sdaIn
  sclIn : u.sclIn = s.sclIn

theorem presentFrame (r : Request) (i : Instr) (s : State) :
    PresentFrame s (present r i s) ∧ (present r i s).cw = r.word := by
  cases i <;> exact ⟨by constructor <;> rfl, rfl⟩

/-- Presented with the bytes the buffer holds, a word leaves `LEN` and those bytes as they were. -/
theorem present_own_bytes {r : Request} {s : State} (h : r.bytes = s.buf.bytes s.len) (i : Instr) :
    (present r i s).len = s.len ∧ ∀ x, x < s.len → (present r i s).buf.read x = s.buf.read x := by
  have hlen : r.bytes.length = s.len := by rw [h]; simp [Memory.bytes]
  have hread : ∀ x, x < s.len → (Memory.ofBytes 0 r.bytes).read x = s.buf.read x := by
    intro x hx
    rw [Memory.read_ofBytes, h]
    simp [Memory.bytes, hx]
  cases i with
  | write a => exact ⟨hlen, hread⟩
  | read a => exact ⟨hlen, hread⟩
  | init | beginTx a d | endTx | byteOut b | byteIn l | sdaLow | sdaRel | sdaSample | delay | sclLow | sclRel
    | sclSample => exact ⟨rfl, fun _ _ => rfl⟩

/-- The request `State.withFetchWord` puts at the head of the list. -/
def fetchRequest (s : State) (nbits w : Nat) : Request :=
  ⟨.micro, tableWord nbits w, s.buf.bytes s.len, false⟩

/-- The step after `State.withFetchWord` runs the word, on the block made idle. -/
theorem step_withFetchWord {nbits w : Nat} {i : Instr} (h : decode (tableWord nbits w) = .ok i) (s : State) :
    step (s.withFetchWord nbits w) =
      exec i (present (fetchRequest s nbits w) i { s with busy := false, phase := .idle, initAt := .none }) := by
  rw [step_idle (r := fetchRequest s nbits w) (rest := s.host) rfl rfl]
  exact issue_exec (screenWord_micro h _) (by simp [fetchRequest])

theorem decode_of_decodeTableWord {nbits w : Nat} {i : Instr} (h : decodeTableWord nbits w = some i) :
    decode (tableWord nbits w) = .ok i := by
  unfold decodeTableWord decode? at h
  split at h
  · next hd => rw [hd, Option.some.inj h]
  · cases h

end Sys2Proof.Machine

open Sys2Proof Sys2Proof.Machine

/-- Settles O37: the step is the issue of the word, and a word let in runs or is accepted. -/
theorem stepRunsTheDecodedInstruction : Obligations.StepRunsTheDecodedInstruction := by
  intro s r rest i hh hb hi
  rw [step_idle hh hb]
  refine ⟨decode_of_screenWord hi, fun hp => ⟨fun hpub => ?_, fun a ha => ?_⟩, fun hp => ⟨fun hinit => ?_, fun a ha => ?_⟩⟩
  · rw [issue_exec (s := { s with host := rest }) hi hp, present_word hpub]
  · rw [issue_exec (s := { s with host := rest }) hi hp]
    rcases ha with rfl | rfl
    · rw [present_write]
    · rw [present_read]
  · rw [issue_accept (s := { s with host := rest }) hi hp, hinit, accept_init, present_word (.inr rfl)]
  · rw [issue_accept (s := { s with host := rest }) hi hp]
    rcases ha with rfl | rfl
    · rw [accept_write, present_write]
    · rw [accept_read, present_read]

/-- Settles O38: a step's refusals are the interface's, and the interface's are R80's and R212's. -/
theorem stepRefusesExactlyWhatTheInterfaceRefuses : Obligations.StepRefusesExactlyWhatTheInterfaceRefuses := by
  intro s e
  rw [step_refused_iff]
  refine exists_congr fun r => exists_congr fun rest => and_congr_right fun _ => or_congr_right ?_
  rw [screenWord_error_iff, and_or_left, and_or_left]

/-- Settles O39: every operation answers a next state, so a step refuses at the interface or not at all. -/
theorem nothingFaults : Obligations.NothingFaults :=
  ⟨exec_total, step_answers, fun _ hb hw => ⟨_, step_of_busy hb hw⟩⟩

/-- Settles O49. -/
theorem idleMasterDoesNothing : Obligations.IdleMasterDoesNothing :=
  fun _ => step_idle_passive

/-- Settles O50: the word is a micro-program's, so the interface lets it in, and presenting it with the buffer's own
bytes leaves everything but `CW` as it was. -/
theorem fetchedTableWordRuns : Obligations.FetchedTableWordRuns := by
  intro s nbits w i hw
  have hd := decode_of_decodeTableWord hw
  let idled : State := { s with busy := false, phase := .idle, initAt := .none }
  let u := present (fetchRequest s nbits w) i idled
  obtain ⟨t, ht⟩ := exec_total i u
  obtain ⟨F, hcw⟩ := presentFrame (fetchRequest s nbits w) i idled
  obtain ⟨hlen, hbuf⟩ := present_own_bytes (r := fetchRequest s nbits w) (s := idled) rfl i
  exact ⟨u, t, step_withFetchWord hd s, ht, hcw, F.busy, F.phase, F.initAt, hlen, hbuf, F.sdaO, F.sclO, F.idx, F.bitcnt,
    F.ustep, F.shreg, F.ackl, F.status, F.trace, F.inited, F.host, F.sdaIn, F.sclIn⟩

end

section
/-! PROOF. The levels sampled: listed answers determine them as far as they go (10_state.md R38). -/

namespace Sys2Proof.Machine

/-- Levels sampled one after the other, each part on the answers the part before left. -/
theorem Answered.append {xs ys given : List Level} (h : Answered xs given) (g : Answered ys (given.drop xs.length)) :
    Answered (xs ++ ys) given := by
  induction xs generalizing given with
  | nil => exact g
  | cons x xs ih =>
    cases given with
    | nil => exact List.take_zero
    | cons y given =>
      simp only [Answered, List.length_cons, List.take_succ_cons, List.cons.injEq] at h
      simpa [Answered, h.1] using ih h.2 g

/-- While answers are listed, the levels sampled are the answers. -/
theorem Answered.eq_take_of_listed {xs given : List Level} (h : Answered xs given) (hl : xs.length ≤ given.length) :
    xs = given.take xs.length := by
  rw [← h, List.take_of_length_le hl]

/-- The first level sampled is the first listed answer. -/
theorem Answered.head_eq {x y : Level} {xs given : List Level} (h : Answered (x :: xs) (y :: given)) :
    x = y ∧ Answered xs given := by
  simpa [Answered] using h

/-- The acknowledgments of a WRITE are read off the listed answers: `j` times ACK and then NACK. -/
theorem WriteAcks.eq_of_first_nack {n j : Nat} {vs rest : List Level} (h : WriteAcks n vs) (hj : j < n)
    (hans : Answered vs (List.replicate j .low ++ .high :: rest)) : vs = List.replicate j .low ++ [.high] := by
  induction j generalizing n vs with
  | zero =>
    rcases h with rfl | ⟨k, -, rfl⟩
    · obtain ⟨m, rfl⟩ : ∃ m, n = m + 1 := ⟨n - 1, by omega⟩
      exact absurd hans.head_eq.1 (by simp)
    · cases k with
      | zero => rfl
      | succ k => exact absurd hans.head_eq.1 (by simp)
  | succ j ih =>
    obtain ⟨m, rfl⟩ : ∃ m, n = m + 1 := ⟨n - 1, by omega⟩
    rcases h with rfl | ⟨k, hk, rfl⟩
    · have hrest := ih (n := m) (.inl rfl) (by omega) hans.head_eq.2
      rw [List.replicate_succ, hrest]
      rfl
    · cases k with
      | zero => exact absurd hans.head_eq.1 (by simp)
      | succ k =>
        have hrest := ih (n := m) (.inr ⟨k, by omega, rfl⟩) (by omega) hans.head_eq.2
        rw [List.replicate_succ, List.cons_append, hrest]
        rfl

/-- ACKs and a NACK are not ACKs only. -/
theorem acks_nack_ne_acks (j n : Nat) : List.replicate j Level.low ++ [Level.high] ≠ List.replicate n Level.low := by
  intro h
  have hmem : Level.high ∈ List.replicate n Level.low := h ▸ by simp
  exact absurd (List.eq_of_mem_replicate hmem) (by decide)

/-- Or ACK for every byte. -/
theorem WriteAcks.eq_of_all_acked {n : Nat} {vs rest : List Level} (h : WriteAcks n vs)
    (hans : Answered vs (List.replicate n .low ++ rest)) : vs = List.replicate n .low := by
  rcases h with rfl | ⟨j, hj, rfl⟩
  · rfl
  · have htake := hans.eq_take_of_listed (by simp; omega)
    have hlen : (List.replicate j Level.low ++ [Level.high]).length = j + 1 := by simp
    rw [hlen, List.take_append_of_le_length (by simp; omega), List.take_replicate] at htake
    exact absurd htake (acks_nack_ne_acks j _)

end Sys2Proof.Machine
end

section
/-! PROOF. WRITE from beginning to end (43_public_commands.md R151): its data part as the list of the
acknowledgments it samples. -/

namespace Sys2Proof.Machine

/-- What a byte operation of a WRITE leaves, and an acknowledgment that lets the loop go on. -/
structure ReadyToSend (s : State) : Prop where
  sdaO : s.sdaO = .low
  sclO : s.sclO = .low
  bitcnt : s.bitcnt = 0
  ustep : s.ustep = 0
  shreg : s.shreg = 0
  ackl : s.ackl = .ack

/-- The state one acknowledged byte later. -/
def sentByte (s : State) : State := (byteOut s.bufByte s).setIdx (s.idx + 1)

theorem sentByte_eq {s : State} (hr : ReadyToSend s) (h : outAnswer s.bufByte s = .low) :
    sentByte s = { s with
      idx := s.idx + 1
      trace := s.trace ++ outEvents s.bufByte .low
      sdaIn := s.sdaIn.tail } := by
  obtain ⟨hsda, hscl, hbit, hust, hsh, hack⟩ := hr
  simp [sentByte, byteOut_eq, h, State.setIdx, hsda, hscl, hbit, hust, hsh, hack, ackOf]

theorem readyToSend_sentByte {s : State} (hr : ReadyToSend s) (h : outAnswer s.bufByte s = .low) :
    ReadyToSend (sentByte s) := by
  rw [sentByte_eq hr h]
  exact ⟨hr.sdaO, hr.sclO, hr.bitcnt, hr.ustep, hr.shreg, hr.ackl⟩

/-- The acknowledgments the loop of a WRITE samples, `n` bytes left. -/
def writeAnswers : Nat → State → List Level
  | 0, _ => []
  | n + 1, s =>
    match outAnswer s.bufByte s with
    | .high => [.high]
    | .low => .low :: writeAnswers n (sentByte s)

theorem writeAnswers_nack (n : Nat) {s : State} (h : outAnswer s.bufByte s = .high) : writeAnswers (n + 1) s = [.high] := by
  rw [writeAnswers, h]

theorem writeAnswers_ack (n : Nat) {s : State} (h : outAnswer s.bufByte s = .low) :
    writeAnswers (n + 1) s = .low :: writeAnswers n (sentByte s) := by
  rw [writeAnswers, h]

theorem writeAcks_cons {n : Nat} {vs : List Level} (h : WriteAcks n vs) : WriteAcks (n + 1) (.low :: vs) := by
  rcases h with rfl | ⟨j, hj, rfl⟩
  · exact .inl rfl
  · exact .inr ⟨j + 1, by omega, rfl⟩

/-- They are ACKs up to the first NACK. -/
theorem writeAcks_writeAnswers (n : Nat) (s : State) : WriteAcks n (writeAnswers n s) := by
  induction n generalizing s with
  | zero => exact .inl rfl
  | succ n ih =>
    cases h : outAnswer s.bufByte s with
    | low => rw [writeAnswers_ack n h]; exact writeAcks_cons (ih _)
    | high => rw [writeAnswers_nack n h]; exact .inr ⟨0, by omega, rfl⟩

/-- They are the next listed answers. -/
theorem answered_writeAnswers (n : Nat) {s : State} (hr : ReadyToSend s) : Answered (writeAnswers n s) s.sdaIn := by
  induction n generalizing s with
  | zero => exact answered_nil _
  | succ n ih =>
    have hfirst := answered_outAnswer s.bufByte s
    cases h : outAnswer s.bufByte s with
    | low =>
      rw [h] at hfirst
      have hrest := ih (readyToSend_sentByte hr h)
      rw [sentByte_eq hr h] at hrest
      rw [writeAnswers_ack n h, ← List.singleton_append]
      refine hfirst.append ?_
      rw [List.length_singleton, List.drop_one, sentByte_eq hr h]
      exact hrest
    | high =>
      rw [h] at hfirst
      rw [writeAnswers_nack n h]
      exact hfirst

/-- The events of the data part from byte `i` on. -/
def writeEventsFrom (buf : Memory) (i : Nat) (vs : List Level) : List Event :=
  (vs.zipIdx i).flatMap fun p => outEvents (buf.read p.2) p.1

theorem writeEventsFrom_cons (buf : Memory) (i : Nat) (v : Level) (vs : List Level) :
    writeEventsFrom buf i (v :: vs) = outEvents (buf.read i) v ++ writeEventsFrom buf (i + 1) vs := by
  rw [writeEventsFrom, List.zipIdx_cons, List.flatMap_cons, writeEventsFrom]

theorem writeEventsFrom_zero (buf : Memory) (vs : List Level) : writeEventsFrom buf 0 vs = writeDataEvents buf vs := rfl

/-- The loop of a WRITE: everything it does. -/
theorem writeLoop_eq (n acked : Nat) {s : State} (hr : ReadyToSend s) :
    writeLoop n acked s = (acked + (writeAnswers n s).count .low, { s with
      idx := s.idx + (writeAnswers n s).count .low
      ackl := ackOf ((writeAnswers n s).getLastD .low)
      trace := s.trace ++ writeEventsFrom s.buf s.idx (writeAnswers n s)
      sdaIn := s.sdaIn.drop (writeAnswers n s).length }) := by
  induction n generalizing acked s with
  | zero => simp [writeLoop, writeAnswers, writeEventsFrom, ackOf, ← hr.ackl]
  | succ n ih =>
    rw [writeLoop_succ]
    cases h : outAnswer s.bufByte s with
    | high =>
      obtain ⟨hsda, hscl, hbit, hust, hsh, -⟩ := hr
      have hbyte : s.buf.read s.idx = s.bufByte := rfl
      simp [writeAnswers_nack n h, writeEventsFrom, hbyte, byteOut_eq, h, hsda, hscl, hbit, hust, hsh]
    | low =>
      have hrest := ih (acked + 1) (readyToSend_sentByte hr h)
      simp only [writeAnswers_ack n h, writeEventsFrom_cons, List.count_cons_self, List.getLastD_cons]
      generalize writeAnswers n (sentByte s) = vs at hrest ⊢
      rw [sentByte_eq hr h] at hrest
      rw [← sentByte, sentByte_eq hr h, hrest]
      simp [State.bufByte, Nat.add_comm, Nat.add_left_comm]

/-- The acknowledgments a WRITE samples after the address byte's: none unless that was ACK. -/
def writeDataAnswers (a : Addr) (s : State) : List Level :=
  match beginAnswer a .write s with
  | .high => []
  | .low => writeAnswers s.len ((beginTx a .write s).setIdx 0)

theorem readyToSend_beginTx {a : Addr} {d : Dir} {s : State} (h : beginAnswer a d s = .low) (i : Nat) :
    ReadyToSend ((beginTx a d s).setIdx i) := by
  rw [beginTx_eq, h]
  constructor <;> rfl

theorem writeDataAnswers_nack {a : Addr} {s : State} (h : beginAnswer a .write s = .high) :
    writeDataAnswers a s = [] := by
  rw [writeDataAnswers, h]

theorem writeDataAnswers_ack {a : Addr} {s : State} (h : beginAnswer a .write s = .low) :
    writeDataAnswers a s = writeAnswers s.len ((beginTx a .write s).setIdx 0) := by
  rw [writeDataAnswers, h]

theorem writeAcks_writeDataAnswers {a : Addr} {s : State} (h : beginAnswer a .write s = .low) :
    WriteAcks s.len (writeDataAnswers a s) := by
  rw [writeDataAnswers_ack h]
  exact writeAcks_writeAnswers _ _

theorem writeDataAnswers_length_le (a : Addr) (s : State) : (writeDataAnswers a s).length ≤ s.len := by
  cases h : beginAnswer a .write s with
  | high => rw [writeDataAnswers_nack h]; exact Nat.zero_le _
  | low =>
    rcases writeAcks_writeDataAnswers h with hv | ⟨j, hj, hv⟩
    · simp [hv]
    · simpa [hv] using hj

/-- All the levels a WRITE samples are the next listed answers. -/
theorem answered_write (a : Addr) (s : State) :
    Answered (beginAnswer a .write s :: writeDataAnswers a s) s.sdaIn := by
  have hfirst := answered_beginAnswer a .write s
  refine hfirst.append (ys := writeDataAnswers a s) ?_
  cases h : beginAnswer a .write s with
  | high => rw [writeDataAnswers_nack h]; exact answered_nil _
  | low =>
    have hrest := answered_writeAnswers s.len (readyToSend_beginTx h 0)
    rw [writeDataAnswers_ack h]
    rwa [State.setIdx_sdaIn, congrArg State.sdaIn (beginTx_eq a .write s), ← List.drop_one] at hrest

/-- WRITE (R151): everything it does. -/
theorem writeTransfer_eq (a : Addr) (s : State) :
    writeTransfer a s = { s with
      sdaO := .rel
      sclO := .rel
      phase := .idle
      idx := (match beginAnswer a .write s with
        | .high => s.idx
        | .low => (writeDataAnswers a s).count .low)
      bitcnt := 0
      ustep := 0
      shreg := 0
      ackl := ackOf ((writeDataAnswers a s).getLastD (beginAnswer a .write s))
      status := writeStatus s.len ((writeDataAnswers a s).count .low)
      busy := false
      trace := s.trace ++ (startEvents ++ outEvents (addressByte a .write) (beginAnswer a .write s) ++
        writeDataEvents s.buf (writeDataAnswers a s) ++ stopEvents)
      sdaIn := s.sdaIn.drop (1 + (writeDataAnswers a s).length) } := by
  have hackl : (beginTx a .write s).ackl = ackOf (beginAnswer a .write s) := by rw [beginTx_eq]
  have hlen := (writeFrame_beginTx a .write s).len
  rw [writeTransfer, writeData, hackl]
  cases h : beginAnswer a .write s with
  | high =>
    rw [writeDataAnswers_nack h]
    simp [ackOf, finishTransfer, endTx_eq, beginTx_eq, h, State.setStatus, State.setPhase, State.setBusy,
      writeDataEvents]
  | low =>
    have hloop := writeLoop_eq s.len 0 (readyToSend_beginTx h 0)
    rw [← writeDataAnswers_ack h] at hloop
    simp only [ackOf, hlen, hloop]
    simp [finishTransfer, endTx_eq, beginTx_eq, h, State.setStatus, State.setPhase, State.setBusy, State.setIdx,
      writeEventsFrom_zero, Nat.add_comm]

end Sys2Proof.Machine
end

section
/-! PROOF. READ from beginning to end (43_public_commands.md R152): its data part as the list of the bytes it receives. -/

namespace Sys2Proof.Machine

/-- The bytes stored from an index on, one after another (20_memory.md R64). -/
def Memory.writeAll : Memory → Nat → List Byte → Memory
  | m, _, [] => m
  | m, i, b :: bs => Memory.writeAll (m.write i b) (i + 1) bs

theorem Memory.wf_writeAll {m : Memory} (h : m.wf = true) (i : Nat) (bs : List Byte) : (m.writeAll i bs).wf = true := by
  induction bs generalizing m i with
  | nil => exact h
  | cons b bs ih => exact ih (Memory.wf_write h i b) (i + 1)

/-- The indices written read as the bytes, every other index as before. -/
theorem Memory.read_writeAll {m : Memory} (h : m.wf = true) (i : Nat) (bs : List Byte) (x : Nat) :
    (m.writeAll i bs).read x = if i ≤ x then bs.getD (x - i) (m.read x) else m.read x := by
  induction bs generalizing m i with
  | nil => simp [Memory.writeAll]
  | cons b bs ih =>
    rw [Memory.writeAll, ih (Memory.wf_write h i b), Memory.read_write h]
    by_cases hx : x = i
    · subst hx; simp
    · by_cases hl : i ≤ x
      · obtain ⟨k, rfl⟩ : ∃ k, x = i + 1 + k := ⟨x - i - 1, by omega⟩
        have hk : i + 1 + k - i = k + 1 := by omega
        rw [if_pos (by omega), if_neg hx, if_pos hl, hk, List.getD_cons_succ, Nat.add_sub_cancel_left]
      · rw [if_neg (by omega), if_neg hx, if_neg hl]

/-- From index 0 the bytes stand at the front of the buffer. -/
theorem Memory.read_writeAll_zero {m : Memory} (h : m.wf = true) (bs : List Byte) (x : Nat) :
    (m.writeAll 0 bs).read x = bs.getD x (m.read x) := by
  rw [Memory.read_writeAll h, if_pos (Nat.zero_le x), Nat.sub_zero]

/-- What the loop of a READ starts from and leaves: the lines held at position 0, 0. -/
theorem afterByte_readByte (s : State) : AfterByte (readByte s) := by
  rw [readByte_eq]; exact ⟨rfl, rfl, rfl, rfl⟩

/-- The bytes `n` turns of the loop of a READ receive. -/
def readBytes : Nat → State → List Byte
  | 0, _ => []
  | n + 1, s => byteOf (byteAnswers s) :: readBytes n (readByte s)

@[simp] theorem readBytes_length (n : Nat) (s : State) : (readBytes n s).length = n := by
  induction n generalizing s with
  | zero => rfl
  | succ n ih => simp [readBytes, ih]

/-- The events of the data part from byte `i` of `n` on. -/
def readEventsFrom (n i : Nat) (bs : List Byte) : List Event :=
  (bs.zipIdx i).flatMap fun p => inEvents (decide (p.2 + 1 = n)) (byteLevels p.1)

theorem readEventsFrom_cons (n i : Nat) (b : Byte) (bs : List Byte) :
    readEventsFrom n i (b :: bs) = inEvents (decide (i + 1 = n)) (byteLevels b) ++ readEventsFrom n (i + 1) bs := by
  rw [readEventsFrom, List.zipIdx_cons, List.flatMap_cons, readEventsFrom]

theorem readEventsFrom_zero (n : Nat) (bs : List Byte) : readEventsFrom n 0 bs = readDataEvents n bs := rfl

/-- The levels of the bytes received are the next listed answers. -/
theorem answered_readBytes (n : Nat) (s : State) : Answered ((readBytes n s).flatMap byteLevels) s.sdaIn := by
  induction n generalizing s with
  | zero => exact answered_nil _
  | succ n ih =>
    have hrest := ih (readByte s)
    rw [congrArg State.sdaIn (readByte_eq s)] at hrest
    rw [readBytes, List.flatMap_cons, byteLevels_byteOf (byteAnswers_length s)]
    exact (answered_byteAnswers s).append (by rwa [byteAnswers_length])

/-- While bytes are listed, the bytes received are those. -/
theorem readBytes_listed (bs : List Byte) {rest : List Level} {s : State}
    (h : s.sdaIn = bs.flatMap byteLevels ++ rest) : readBytes bs.length s = bs := by
  induction bs generalizing s with
  | nil => rfl
  | cons b bs ih =>
    rw [List.flatMap_cons, List.append_assoc] at h
    have hrest : (readByte s).sdaIn = bs.flatMap byteLevels ++ rest := by rw [readByte_eq, h]; rfl
    rw [List.length_cons, readBytes, ih hrest, byteAnswers_listed b _ h, byteOf_byteLevels]

/-- The loop of a READ: everything it does. -/
theorem repeat_readByte_eq (n : Nat) {s : State} (hs : AfterByte s) :
    repeatCell readByte n s = { s with
      idx := s.idx + n
      shreg := (readBytes n s).getLastD s.shreg
      buf := s.buf.writeAll s.idx (readBytes n s)
      trace := s.trace ++ readEventsFrom s.len s.idx (readBytes n s)
      sdaIn := s.sdaIn.drop (8 * n) } := by
  induction n generalizing s with
  | zero => simp [repeatCell, readBytes, Memory.writeAll, readEventsFrom]
  | succ n ih =>
    have hrest := ih (afterByte_readByte s)
    obtain ⟨hsda, hscl, hbit, hust⟩ := hs
    simp only [repeatCell, readBytes, readEventsFrom_cons, List.getLastD_cons, Memory.writeAll,
      byteLevels_byteOf (byteAnswers_length s)]
    generalize readBytes n (readByte s) = bs at hrest ⊢
    rw [readByte_eq] at hrest
    rw [readByte_eq, hrest]
    simp [hsda, hscl, hbit, hust, State.isLast, Nat.add_comm, Nat.add_left_comm, Nat.mul_succ]

/-- The bytes a READ receives: none unless the address was acknowledged. -/
def readDataBytes (a : Addr) (s : State) : List Byte :=
  match beginAnswer a .read s with
  | .high => []
  | .low => readBytes s.len ((beginTx a .read s).setIdx 0)

theorem readDataBytes_nack {a : Addr} {s : State} (h : beginAnswer a .read s = .high) : readDataBytes a s = [] := by
  rw [readDataBytes, h]

theorem readDataBytes_ack {a : Addr} {s : State} (h : beginAnswer a .read s = .low) :
    readDataBytes a s = readBytes s.len ((beginTx a .read s).setIdx 0) := by
  rw [readDataBytes, h]

theorem readDataBytes_length_of_ack {a : Addr} {s : State} (h : beginAnswer a .read s = .low) :
    (readDataBytes a s).length = s.len := by
  rw [readDataBytes_ack h, readBytes_length]

theorem readDataBytes_length_le (a : Addr) (s : State) : (readDataBytes a s).length ≤ s.len := by
  cases h : beginAnswer a .read s with
  | high => rw [readDataBytes_nack h]; exact Nat.zero_le _
  | low => exact (readDataBytes_length_of_ack h).le

/-- All the levels a READ samples are the next listed answers. -/
theorem answered_read (a : Addr) (s : State) :
    Answered (beginAnswer a .read s :: (readDataBytes a s).flatMap byteLevels) s.sdaIn := by
  have hfirst := answered_beginAnswer a .read s
  refine hfirst.append (ys := (readDataBytes a s).flatMap byteLevels) ?_
  cases h : beginAnswer a .read s with
  | high => rw [readDataBytes_nack h]; exact answered_nil _
  | low =>
    have hrest := answered_readBytes s.len ((beginTx a .read s).setIdx 0)
    rw [readDataBytes_ack h]
    rwa [State.setIdx_sdaIn, congrArg State.sdaIn (beginTx_eq a .read s), ← List.drop_one] at hrest

/-- READ (R152): everything it does. -/
theorem readTransfer_eq (a : Addr) (s : State) :
    readTransfer a s = { s with
      sdaO := .rel
      sclO := .rel
      phase := .idle
      idx := (match beginAnswer a .read s with
        | .high => s.idx
        | .low => s.len)
      bitcnt := 0
      ustep := 0
      shreg := (readDataBytes a s).getLastD 0
      ackl := ackOf (beginAnswer a .read s)
      status := readStatus (ackOf (beginAnswer a .read s))
      busy := false
      buf := s.buf.writeAll 0 (readDataBytes a s)
      trace := s.trace ++ (startEvents ++ outEvents (addressByte a .read) (beginAnswer a .read s) ++
        readDataEvents s.len (readDataBytes a s) ++ stopEvents)
      sdaIn := s.sdaIn.drop (1 + 8 * (readDataBytes a s).length) } := by
  have hackl : (beginTx a .read s).ackl = ackOf (beginAnswer a .read s) := by rw [beginTx_eq]
  have hlen := (writeFrame_beginTx a .read s).len
  rw [readTransfer, readData, hackl]
  cases h : beginAnswer a .read s with
  | high =>
    rw [readDataBytes_nack h]
    simp [ackOf, finishTransfer, endTx_eq, beginTx_eq, h, State.setStatus, State.setPhase, State.setBusy,
      readDataEvents, Memory.writeAll]
  | low =>
    have hloop := repeat_readByte_eq s.len ((afterByte_beginTx a .read s).setIdx 0)
    rw [← readDataBytes_ack h] at hloop
    simp only [ackOf, hlen, hloop, readDataBytes_length_of_ack h]
    simp [finishTransfer, endTx_eq, beginTx_eq, h, State.setStatus, State.setPhase, State.setBusy, State.setIdx,
      readEventsFrom_zero, ackOf, Nat.add_comm]

end Sys2Proof.Machine
end

section
/-! PROOF. What the events of a transfer are read as, and their counts (30_encoding.md R79, R84; 43_public_commands.md
R156). -/

namespace Sys2Proof.Machine

/-- Read from the lines held between two byte frames, the events add the symbols and leave the lines held. -/
def ReadsAs (es : List Event) (ys : List WireSym) : Prop :=
  ∀ (v : Level) (out : List WireSym), ∃ v',
    es.foldl SymReader.read ⟨.low, .low, false, v, out⟩ = ⟨.low, .low, false, v', out ++ ys⟩

theorem ReadsAs.append {es fs : List Event} {ys zs : List WireSym} (h : ReadsAs es ys) (g : ReadsAs fs zs) :
    ReadsAs (es ++ fs) (ys ++ zs) := by
  intro v out
  obtain ⟨v1, h1⟩ := h v out
  obtain ⟨v2, h2⟩ := g v1 (out ++ ys)
  exact ⟨v2, by rw [List.foldl_append, h1, h2, List.append_assoc]⟩

theorem readsAs_flatMap {α : Type} {f : α → List Event} {g : α → List WireSym} (h : ∀ x, ReadsAs (f x) (g x))
    (xs : List α) : ReadsAs (xs.flatMap f) (xs.flatMap g) := by
  induction xs with
  | nil => exact fun v out => ⟨v, by simp⟩
  | cons x xs ih => exact (h x).append ih

theorem readsAs_outEvents (b : Byte) (v : Level) : ReadsAs (outEvents b v) (frameSyms b v) :=
  fun _ _ => ⟨v, SymReader.foldl_outEvents b v rfl⟩

/-- A cell in which the master samples is read as the level sampled (R76). -/
theorem SymReader.foldl_inCellEvents (vs : List Level) (v : Level) (out : List WireSym) :
    ∃ v', (vs.flatMap inCellEvents).foldl SymReader.read ⟨.rel, .low, false, v, out⟩ =
      ⟨.rel, .low, false, v', out ++ vs.map .bit⟩ := by
  induction vs generalizing v out with
  | nil => exact ⟨v, by simp⟩
  | cons x vs ih =>
    obtain ⟨v', h⟩ := ih x (out ++ [.bit x])
    refine ⟨v', ?_⟩
    rw [List.flatMap_cons, List.foldl_append]
    simpa [inCellEvents, SymReader.read] using h

/-- `BYTE_IN` is read as the levels sampled and the master's own ninth bit (R77). -/
theorem readsAs_inEvents (last : Bool) (vs : List Level) :
    ReadsAs (inEvents last vs) ((vs ++ [levelOf last]).map .bit) := by
  intro v out
  obtain ⟨v', h⟩ := SymReader.foldl_inCellEvents vs v out
  refine ⟨levelOf last, ?_⟩
  rw [inEvents, List.foldl_append, List.foldl_append]
  have hopen : [Event.sdaRel].foldl SymReader.read ⟨.low, .low, false, v, out⟩ = ⟨.rel, .low, false, v, out⟩ := rfl
  rw [hopen, h]
  cases last <;> simp [putEvent, SymReader.read, drivenLevel, levelOf]

/-- A whole transaction is read as START, the address frame, what its data part is read as, STOP. -/
theorem sym_transfer (b : Byte) (v : Level) {es : List Event} {ys : List WireSym} (h : ReadsAs es ys) :
    sym (startEvents ++ outEvents b v ++ es ++ stopEvents) = [.start] ++ frameSyms b v ++ ys ++ [.stop] := by
  obtain ⟨v', hdata⟩ := h v ([.start] ++ frameSyms b v)
  rw [sym, List.foldl_append, List.foldl_append, SymReader.foldl_beginEvents, hdata,
    SymReader.foldl_stopEvents rfl rfl]

/-- A byte frame is nine bits (R78). -/
theorem frameSyms_counts (b : Byte) (v : Level) :
    (frameSyms b v).countP isStart = 0 ∧ (frameSyms b v).countP isStop = 0 ∧ (frameSyms b v).countP isBit = 9 :=
  ⟨rfl, rfl, rfl⟩

theorem flatMap_frameSyms_counts {α : Type} (f : α → Byte) (g : α → Level) (xs : List α) :
    (xs.flatMap fun x => frameSyms (f x) (g x)).countP isStart = 0 ∧
    (xs.flatMap fun x => frameSyms (f x) (g x)).countP isStop = 0 ∧
    (xs.flatMap fun x => frameSyms (f x) (g x)).countP isBit = 9 * xs.length := by
  induction xs with
  | nil => exact ⟨rfl, rfl, rfl⟩
  | cons x xs ih =>
    obtain ⟨hstart, hstop, hbit⟩ := ih
    simp only [List.flatMap_cons, List.countP_append, frameSyms_counts, hstart, hstop, hbit, List.length_cons]
    exact ⟨trivial, trivial, by omega⟩

/-- One START, one STOP, and nine bits for each byte, the address byte among them. -/
theorem transfer_syms_counts {α : Type} (b : Byte) (v : Level) (f : α → Byte) (g : α → Level) (xs : List α)
    {ys : List WireSym}
    (h : ys = [.start] ++ frameSyms b v ++ xs.flatMap (fun x => frameSyms (f x) (g x)) ++ [.stop]) :
    ys.countP isStart = 1 ∧ ys.countP isStop = 1 ∧ ys.countP isBit = 9 * (xs.length + 1) := by
  obtain ⟨hstart, hstop, hbit⟩ := flatMap_frameSyms_counts f g xs
  have hends (p : WireSym → Bool) : [WireSym.start].countP p = (p .start).toNat ∧
      [WireSym.stop].countP p = (p .stop).toNat := by
    cases h1 : p .start <;> cases h2 : p .stop <;> simp [h1, h2]
  simp only [h, List.countP_append, frameSyms_counts, hstart, hstop, hbit, hends]
  exact ⟨rfl, rfl, by simp [isBit]; omega⟩

theorem samples_append (t t' : List Event) : samples (t ++ t') = samples t ++ samples t' := List.filterMap_append

theorem delays_append (t t' : List Event) : delays (t ++ t') = delays t + delays t' := List.count_append

theorem samples_outEvents (b : Byte) (v : Level) : samples (outEvents b v) = [v] := by
  have hcell (c : Bool) : samples (outCellEvents c) = [] := by cases c <;> rfl
  have hack : samples (ackCellEvents v) = [v] := rfl
  simp [outEvents_eq_cells, samples_append, hcell, hack]

theorem samples_inEvents (last : Bool) (vs : List Level) : samples (inEvents last vs) = vs := by
  have hcells : samples (vs.flatMap inCellEvents) = vs := by
    induction vs with
    | nil => rfl
    | cons v vs ih =>
      rw [List.flatMap_cons, samples_append, ih]
      rfl
  have hopen : samples [.sdaRel] = [] := rfl
  have hack : samples [putEvent last, .sclRel, .delay, .sclLow, .sdaLow, .delay] = [] := by cases last <;> rfl
  rw [inEvents, samples_append, samples_append, hcells, hopen, hack, List.nil_append, List.append_nil]

/-- The data part of a WRITE: 47 events and 18 holds for each byte, and the samples are the acknowledgments. -/
theorem writeEventsFrom_counts (buf : Memory) (i : Nat) (vs : List Level) :
    (writeEventsFrom buf i vs).length = 47 * vs.length ∧ delays (writeEventsFrom buf i vs) = 18 * vs.length ∧
    samples (writeEventsFrom buf i vs) = vs := by
  induction vs generalizing i with
  | nil => exact ⟨rfl, rfl, rfl⟩
  | cons v vs ih =>
    obtain ⟨hlen, hdel, hsam⟩ := ih (i + 1)
    obtain ⟨hout, -, -⟩ := outEvents_count (buf.read i) v
    rw [← delays] at hout
    rw [writeEventsFrom_cons, List.length_append, delays_append, samples_append, outEvents_length, hout,
      samples_outEvents, hlen, hdel, hsam, List.length_cons]
    exact ⟨by omega, by omega, rfl⟩

/-- The data part of a READ likewise; its samples are the bytes' levels. -/
theorem readEventsFrom_counts (n i : Nat) (bs : List Byte) :
    (readEventsFrom n i bs).length = 47 * bs.length ∧ delays (readEventsFrom n i bs) = 18 * bs.length ∧
    samples (readEventsFrom n i bs) = bs.flatMap byteLevels := by
  induction bs generalizing i with
  | nil => exact ⟨rfl, rfl, rfl⟩
  | cons b bs ih =>
    obtain ⟨hlen, hdel, hsam⟩ := ih (i + 1)
    have h8 : (byteLevels b).length = 8 := rfl
    obtain ⟨hin, -, -⟩ := inEvents_count (decide (i + 1 = n)) h8
    rw [← delays] at hin
    rw [readEventsFrom_cons, List.length_append, delays_append, samples_append, inEvents_length _ h8, hin,
      samples_inEvents, hlen, hdel, hsam, List.length_cons]
    exact ⟨by omega, by omega, rfl⟩

/-- A transaction around a data part adds the acknowledgment of the address to the samples. -/
theorem samples_transfer (b : Byte) (v : Level) (es : List Event) :
    samples (startEvents ++ outEvents b v ++ es ++ stopEvents) = v :: samples es := by
  have hstart : samples startEvents = [] := rfl
  have hstop : samples stopEvents = [] := rfl
  simp [samples_append, samples_outEvents, hstart, hstop]

/-- A transaction whose data part is a byte frame for each of `xs`: 54, 21 and 9 for the rest of it, and 47, 18 and 9
for each (R156, R224, R228). -/
theorem transfer_counts {α : Type} {b : Byte} {v : Level} {es : List Event} {f : α → Byte} {g : α → Level} {xs : List α}
    (hlen : es.length = 47 * xs.length) (hdel : delays es = 18 * xs.length)
    (hread : ReadsAs es (xs.flatMap fun x => frameSyms (f x) (g x))) :
    (startEvents ++ outEvents b v ++ es ++ stopEvents).length = 54 + 47 * xs.length ∧
    delays (startEvents ++ outEvents b v ++ es ++ stopEvents) = 21 + 18 * xs.length ∧
    pulses (startEvents ++ outEvents b v ++ es ++ stopEvents) = 9 * (xs.length + 1) := by
  have hstart : delays startEvents = 2 ∧ startEvents.length = 4 := by decide
  have hstop : delays stopEvents = 1 ∧ stopEvents.length = 3 := by decide
  obtain ⟨hout, -, -⟩ := outEvents_count b v
  rw [← delays] at hout
  obtain ⟨-, -, hbits⟩ := transfer_syms_counts b v f g xs (sym_transfer b v hread)
  simp only [List.length_append, delays_append, outEvents_length, hlen, hdel, hout, hstart, hstop]
  exact ⟨by omega, by omega, hbits⟩

theorem readsAs_writeDataEvents (buf : Memory) (vs : List Level) :
    ReadsAs (writeDataEvents buf vs) (vs.zipIdx.flatMap fun p => frameSyms (buf.read p.2) p.1) := by
  have hbyte (p : Level × Nat) : ReadsAs (outEvents (buf.read p.2) p.1) (frameSyms (buf.read p.2) p.1) :=
    readsAs_outEvents _ _
  exact readsAs_flatMap hbyte vs.zipIdx

theorem readsAs_readDataEvents (n : Nat) (bs : List Byte) :
    ReadsAs (readDataEvents n bs) (bs.zipIdx.flatMap fun p => frameSyms p.1 (if p.2 + 1 = n then .high else .low)) := by
  have hbyte (p : Byte × Nat) : ReadsAs (inEvents (decide (p.2 + 1 = n)) (byteLevels p.1))
      (frameSyms p.1 (if p.2 + 1 = n then .high else .low)) := by
    simpa [levelOf, frameSyms] using readsAs_inEvents (decide (p.2 + 1 = n)) (byteLevels p.1)
  exact readsAs_flatMap hbyte bs.zipIdx

end Sys2Proof.Machine
end

section
/-! PROOF. The statements about one WRITE or READ, off `writeTransfer_eq` and `readTransfer_eq`: O27, O28, O30 to O36. -/

namespace Sys2Proof.Machine

theorem exec_write (a : Addr) (s : State) : exec (.write a) s = .next (writeTransfer a s) := rfl

theorem exec_read (a : Addr) (s : State) : exec (.read a) s = .next (readTransfer a s) := rfl

theorem ackOf_eq_ack_iff (v : Level) : ackOf v = .ack ↔ v = .low := by
  cases v <;> decide

theorem readStatus_success_iff (v : Level) : readStatus (ackOf v) = .success ↔ v = .low := by
  cases v <;> decide

theorem writeStatus_success_iff (len acked : Nat) : writeStatus len acked = .success ↔ 0 < len ∧ acked = len := by
  unfold writeStatus
  split <;> simp_all

/-- As many ACKs as bytes are ACK for every byte. -/
theorem WriteAcks.count_eq_iff {n : Nat} {vs : List Level} (h : WriteAcks n vs) :
    vs.count .low = n ↔ vs = List.replicate n .low := by
  constructor
  · intro hcount
    rcases h with rfl | ⟨j, hj, rfl⟩
    · rfl
    · simp at hcount
      omega
  · rintro rfl
    simp

/-- A WRITE succeeds iff the buffer is not empty and the address and every byte were acknowledged (R157). -/
theorem write_success_iff (a : Addr) (s : State) : (writeTransfer a s).status = .success ↔
    beginAnswer a .write s = .low ∧ 0 < s.len ∧ writeDataAnswers a s = List.replicate s.len .low := by
  rw [writeTransfer_eq, writeStatus_success_iff]
  cases h : beginAnswer a .write s with
  | high =>
    rw [writeDataAnswers_nack h]
    simp
    omega
  | low => rw [(writeAcks_writeDataAnswers h).count_eq_iff]; simp

/-- A READ succeeds iff the address was acknowledged. -/
theorem read_success_iff (a : Addr) (s : State) :
    (readTransfer a s).status = .success ↔ beginAnswer a .read s = .low := by
  rw [readTransfer_eq, readStatus_success_iff]

theorem status_failure_of_not_success {st : Status} (h : ¬ st = .success) : st = .failure := by
  cases st with
  | success => exact absurd rfl h
  | failure => rfl

/-- WRITE and READ end with both lines released (R158). -/
theorem idleLines_writeTransfer (a : Addr) (s : State) : (writeTransfer a s).IdleLines := by
  rw [writeTransfer_eq]; exact ⟨rfl, rfl⟩

theorem idleLines_readTransfer (a : Addr) (s : State) : (readTransfer a s).IdleLines := by
  rw [readTransfer_eq]; exact ⟨rfl, rfl⟩

theorem idleLines_init (s : State) : (init s).IdleLines := by
  rw [init_eq]; exact ⟨rfl, rfl⟩

/-- The data events of a WRITE, part by part. -/
theorem writeEventsFrom_append (buf : Memory) (i : Nat) (vs ws : List Level) :
    writeEventsFrom buf i (vs ++ ws) = writeEventsFrom buf i vs ++ writeEventsFrom buf (i + vs.length) ws := by
  simp [writeEventsFrom, List.zipIdx_append]

theorem writeEventsFrom_single (buf : Memory) (i : Nat) (v : Level) :
    writeEventsFrom buf i [v] = outEvents (buf.read i) v := by
  simp [writeEventsFrom]

/-- `n` acknowledged bytes on the wire are the first `n` bytes of the buffer. -/
theorem writeDataEvents_acked (buf : Memory) (n : Nat) :
    writeDataEvents buf (List.replicate n .low) = (List.range n).flatMap fun i => outEvents (buf.read i) .low := by
  induction n with
  | zero => rfl
  | succ n ih =>
    rw [List.replicate_succ', ← writeEventsFrom_zero, writeEventsFrom_append, writeEventsFrom_zero, ih,
      writeEventsFrom_single, List.range_succ, List.flatMap_append]
    simp

theorem writeDataEvents_first_nack (buf : Memory) (j : Nat) :
    writeDataEvents buf (List.replicate j .low ++ [.high]) =
      ((List.range j).flatMap fun i => outEvents (buf.read i) .low) ++ outEvents (buf.read j) .high := by
  rw [← writeEventsFrom_zero, writeEventsFrom_append, writeEventsFrom_zero, writeDataEvents_acked,
    writeEventsFrom_single]
  simp

/-- The answers a WRITE samples when all it needs are listed as ACK. -/
theorem write_answers_all_acked {a : Addr} {s : State} {rest : List Level}
    (h : s.sdaIn = .low :: (List.replicate s.len .low ++ rest)) :
    beginAnswer a .write s = .low ∧ writeDataAnswers a s = List.replicate s.len .low := by
  have hans := answered_write a s
  rw [h] at hans
  obtain ⟨haddr, hdata⟩ := hans.head_eq
  exact ⟨haddr, (writeAcks_writeDataAnswers haddr).eq_of_all_acked hdata⟩

/-- And when byte `j` is the first not acknowledged. -/
theorem write_answers_first_nack {a : Addr} {s : State} {rest : List Level} {j : Nat} (hj : j < s.len)
    (h : s.sdaIn = .low :: (List.replicate j .low ++ .high :: rest)) :
    beginAnswer a .write s = .low ∧ writeDataAnswers a s = List.replicate j .low ++ [.high] := by
  have hans := answered_write a s
  rw [h] at hans
  obtain ⟨haddr, hdata⟩ := hans.head_eq
  exact ⟨haddr, (writeAcks_writeDataAnswers haddr).eq_of_first_nack hj hdata⟩

/-- The address's acknowledgment is the first listed answer. -/
theorem beginAnswer_listed {a : Addr} {d : Dir} {s : State} {v : Level} {rest : List Level} (h : s.sdaIn = v :: rest) :
    beginAnswer a d s = v := by
  have hans := answered_beginAnswer a d s
  rw [h] at hans
  exact hans.head_eq.1

/-- A READ whose bytes are listed receives those. -/
theorem readDataBytes_listed {a : Addr} {s : State} {bs : List Byte} {rest : List Level}
    (h : s.sdaIn = .low :: (bs.flatMap byteLevels ++ rest)) (hlen : bs.length = s.len) : readDataBytes a s = bs := by
  rw [readDataBytes_ack (beginAnswer_listed h), ← hlen]
  refine readBytes_listed bs (rest := rest) ?_
  rw [State.setIdx_sdaIn, beginTx_eq, h]
  rfl

theorem Memory.bytes_writeAll {m : Memory} (h : m.wf = true) (bs : List Byte) :
    (m.writeAll 0 bs).bytes bs.length = bs := by
  refine List.ext_getElem (by simp [Memory.bytes]) fun i _ hi => ?_
  simp [Memory.bytes, Memory.read_writeAll_zero h, hi]

/-- A READ whose bytes are listed stores them. -/
theorem read_listed {a : Addr} {s : State} {bs : List Byte} {rest : List Level} (hwf : s.buf.wf = true)
    (h : s.sdaIn = .low :: (bs.flatMap byteLevels ++ rest)) (hlen : bs.length = s.len) :
    (readTransfer a s).status = .success ∧ (readTransfer a s).buf.bytes bs.length = bs := by
  refine ⟨(read_success_iff a s).2 (beginAnswer_listed h), ?_⟩
  rw [readTransfer_eq, readDataBytes_listed h hlen]
  exact Memory.bytes_writeAll hwf bs

/-- The levels of zero bytes are LOW. -/
theorem flatMap_byteLevels_zero (n : Nat) :
    (List.replicate n 0x00#8).flatMap byteLevels = List.replicate (8 * n) .low := by
  induction n with
  | zero => rfl
  | succ n ih =>
    rw [List.replicate_succ, List.flatMap_cons, ih, Nat.mul_succ, Nat.add_comm, List.replicate_add]
    rfl

end Sys2Proof.Machine

open Sys2Proof Sys2Proof.Machine

/-- Settles O27: `writeTransfer_eq` is the whole next state, and the levels sampled are the listed answers up to
the first NACK. -/
theorem writeSendsBytesUntilTheFirstNack : Obligations.WriteSendsBytesUntilTheFirstNack := by
  intro a s
  have hst := write_success_iff a s
  have hidle := idleLines_writeTransfer a s
  refine ⟨beginAnswer a .write s, writeDataAnswers a s, writeTransfer a s, exec_write a s, answered_write a s, ?_,
    writeDataAnswers_nack, writeAcks_writeDataAnswers, ?_, hst, ?_, hidle, ?_⟩
  · rw [writeTransfer_eq]
  · rw [writeTransfer_eq, addressByte_eq_append]
    rfl
  · rw [writeTransfer_eq, List.getLast_eq_getLastD, ackOf_eq_ack_iff]
  · rw [writeTransfer_eq]
    exact ⟨rfl, rfl, rfl, fun h => by rw [h], fun h => by rw [h], rfl, rfl, rfl, rfl, rfl, fun _ => rfl, rfl, rfl, rfl,
      rfl⟩

/-- Settles O28: `readTransfer_eq` is the whole next state, and the bytes stored are those whose levels were sampled. -/
theorem readFillsTheBufferInOrder : Obligations.ReadFillsTheBufferInOrder := by
  intro a s hwf
  have hst := read_success_iff a s
  have hidle := idleLines_readTransfer a s
  have hread (x : Nat) : (readTransfer a s).buf.read x = (readDataBytes a s).getD x (s.buf.read x) := by
    rw [readTransfer_eq]
    exact Memory.read_writeAll_zero hwf _ x
  have hcanon : (readTransfer a s).buf.wf = true := by
    rw [readTransfer_eq]
    exact Memory.wf_writeAll hwf 0 _
  refine ⟨beginAnswer a .read s, readDataBytes a s, readTransfer a s, exec_read a s, answered_read a s, ?_, fun h => ?_,
    readDataBytes_length_of_ack, ?_, hread, fun x hx => ?_, hcanon, hst, ?_, hidle, ?_⟩
  · rw [readTransfer_eq]
  · rw [readTransfer_eq, readDataBytes_nack h]
    exact ⟨rfl, rfl⟩
  · rw [readTransfer_eq, addressByte_eq_append]
    rfl
  · rw [hread, List.getD_eq_default _ _ ((readDataBytes_length_le a s).trans hx)]
  · rw [readTransfer_eq, ackOf_eq_ack_iff]
  · rw [readTransfer_eq, List.getLastD_eq_getLast?]
    exact ⟨rfl, rfl, rfl, fun h => by rw [h], fun h => by rw [h], rfl, rfl, rfl, rfl, rfl, rfl, rfl, rfl⟩

/-- Settles O30: the listed answers make byte `j` the last one sent. -/
theorem writeAbortsAtTheFirstNack : Obligations.WriteAbortsAtTheFirstNack := by
  intro a s rest j hj h
  obtain ⟨haddr, hdata⟩ := write_answers_first_nack (a := a) hj h
  refine ⟨writeTransfer a s, exec_write a s, status_failure_of_not_success fun hs => ?_, ?_, ?_⟩
  · have hall := ((write_success_iff a s).1 hs).2.2
    exact absurd (hdata.symm.trans hall) (acks_nack_ne_acks j s.len)
  · have hused : (writeTransfer a s).sdaIn = s.sdaIn.drop (1 + (writeDataAnswers a s).length) := by rw [writeTransfer_eq]
    rw [hused, hdata, h, Nat.add_comm 1, List.drop_succ_cons, List.append_cons _ _ rest, List.drop_left]
  · rw [writeTransfer_eq, hdata, haddr, writeDataEvents_first_nack]
    simp only [List.append_assoc]

/-- Settles O31: the data part of a WRITE is a byte frame for each acknowledgment sampled, of a READ one for each byte
received. -/
theorem eventDelayAndPulseCounts : Obligations.EventDelayAndPulseCounts := by
  refine ⟨fun s => ⟨init s, _, exec_init s, by rw [init_eq], rfl, rfl⟩, fun a s => ⟨?_, ?_⟩⟩
  · obtain ⟨hlen, hdel, hsam⟩ := writeEventsFrom_counts s.buf 0 (writeDataAnswers a s)
    rw [writeEventsFrom_zero] at hlen hdel hsam
    obtain ⟨tlen, tdel, tpulses⟩ := transfer_counts (b := addressByte a .write) (v := beginAnswer a .write s)
      (by rwa [List.length_zipIdx]) (by rwa [List.length_zipIdx]) (readsAs_writeDataEvents s.buf (writeDataAnswers a s))
    rw [List.length_zipIdx] at tlen tdel tpulses
    exact ⟨writeTransfer a s, _, _, _, exec_write a s, by rw [writeTransfer_eq], by rw [samples_transfer, hsam],
      writeDataAnswers_nack, writeAcks_writeDataAnswers, tlen, tdel, tpulses⟩
  · obtain ⟨hlen, hdel, hsam⟩ := readEventsFrom_counts s.len 0 (readDataBytes a s)
    rw [readEventsFrom_zero] at hlen hdel hsam
    obtain ⟨tlen, tdel, tpulses⟩ := transfer_counts (b := addressByte a .read) (v := beginAnswer a .read s)
      (by rwa [List.length_zipIdx]) (by rwa [List.length_zipIdx]) (readsAs_readDataEvents s.len (readDataBytes a s))
    rw [List.length_zipIdx] at tlen tdel tpulses
    refine ⟨readTransfer a s, _, _, _, (readDataBytes a s).length, exec_read a s, by rw [readTransfer_eq],
      by rw [samples_transfer, hsam], ?_, fun h => ?_, readDataBytes_length_of_ack, tlen, tdel, tpulses⟩
    · simp [List.length_flatMap, byteLevels, Nat.mul_comm]
    · rw [readDataBytes_nack h]; rfl

/-- Settles O32: the reader of R84 run over the whole trace. -/
theorem writeTraceReadsAsOneFrame : Obligations.WriteTraceReadsAsOneFrame := by
  intro a s
  have hsym := sym_transfer (addressByte a .write) (beginAnswer a .write s)
    (readsAs_writeDataEvents s.buf (writeDataAnswers a s))
  obtain ⟨hstart, hstop, -⟩ := transfer_syms_counts _ _ _ _ _ hsym
  exact ⟨_, writeDataAnswers a s, writeTransfer a s, _, exec_write a s, by rw [writeTransfer_eq],
    writeDataAnswers_length_le a s, hsym, hstart, hstop⟩

/-- Settles O33: the same, and the bytes read are the bytes stored. -/
theorem readTraceReadsAsOneFrame : Obligations.ReadTraceReadsAsOneFrame := by
  intro a s
  have hsym := sym_transfer (addressByte a .read) (beginAnswer a .read s)
    (readsAs_readDataEvents s.len (readDataBytes a s))
  obtain ⟨hstart, hstop, -⟩ := transfer_syms_counts _ _ _ _ _ hsym
  refine ⟨_, readDataBytes a s, readTransfer a s, _, exec_read a s, by rw [readTransfer_eq],
    readDataBytes_length_le a s, fun hwf x hx => ?_, hsym, hstart, hstop⟩
  rw [readTransfer_eq, Memory.read_writeAll_zero hwf, List.getD_eq_getElem _ _ hx]

/-- Settles O34: the bytes on the wire are the buffer's, and a READ answered with their levels stores them. -/
theorem roundTripThroughAnEchoingSlave : Obligations.RoundTripThroughAnEchoingSlave := by
  intro a s rest h
  obtain ⟨haddr, hdata⟩ := write_answers_all_acked (a := a) h
  have hlen : (s.buf.bytes s.len).length = s.len := by simp [Memory.bytes]
  have hsame : (writeTransfer a s).len = s.len := by rw [writeTransfer_eq]
  refine ⟨writeTransfer a s, s.buf.bytes s.len, exec_write a s, hlen, ?_, fun m rest' hm => ⟨_, exec_read a _, ?_⟩⟩
  · rw [writeTransfer_eq, hdata, haddr, writeDataEvents_acked, Memory.bytes, List.flatMap_map]
  · have hread := read_listed (a := a)
      (s := { writeTransfer a s with buf := m, sdaIn := .low :: ((s.buf.bytes s.len).flatMap byteLevels ++ rest') })
      hm rfl (hlen.trans hsame.symm)
    rwa [hlen] at hread

/-- Settles O35: the answers listed are all LOW, or the first is HIGH. -/
theorem stuckDataLineIsNotDetected : Obligations.StuckDataLineIsNotDetected := by
  intro a s n hwf hn
  refine ⟨fun h => ⟨fun hlen => ⟨_, exec_write a s, ?_⟩, _, exec_read a s, ?_, fun x hx => ?_⟩,
    fun h => ⟨⟨_, exec_write a s, ?_⟩, _, exec_read a s, ?_, ?_⟩⟩
  all_goals obtain ⟨k, rfl⟩ : ∃ k, n = k + 1 := ⟨n - 1, by omega⟩
  all_goals rw [List.replicate_succ] at h
  · obtain ⟨m, rfl⟩ : ∃ m, k = s.len + m := ⟨k - s.len, by omega⟩
    rw [List.replicate_add] at h
    obtain ⟨haddr, hdata⟩ := write_answers_all_acked (a := a) h
    exact (write_success_iff a s).2 ⟨haddr, hlen, hdata⟩
  · exact (read_success_iff a s).2 (beginAnswer_listed h)
  · obtain ⟨m, rfl⟩ : ∃ m, k = 8 * s.len + m := ⟨k - 8 * s.len, by omega⟩
    rw [List.replicate_add, ← flatMap_byteLevels_zero] at h
    rw [readTransfer_eq, readDataBytes_listed h List.length_replicate, Memory.read_writeAll_zero hwf]
    simp [hx]
  · refine status_failure_of_not_success fun hs => ?_
    rw [write_success_iff, beginAnswer_listed h] at hs
    exact absurd hs.1 (by decide)
  · refine status_failure_of_not_success fun hs => ?_
    rw [read_success_iff, beginAnswer_listed h] at hs
    exact absurd hs (by decide)
  · rw [readTransfer_eq, readDataBytes_nack (beginAnswer_listed h)]
    rfl

/-- Settles O36: each operation's whole next state has the lines where R158 says. -/
theorem commandsEndInTheIdleLineState : Obligations.CommandsEndInTheIdleLineState := by
  refine fun s => ⟨⟨_, exec_init s, idleLines_init s⟩, fun _ a d => ⟨_, exec_beginTx a d s, ?_⟩,
    fun _ => ⟨fun b => ⟨_, exec_byteOut b s, ?_⟩, fun l => ⟨_, exec_byteIn l s, ?_⟩, _, exec_endTx s, ?_⟩,
    fun _ a => ⟨⟨_, exec_write a s, idleLines_writeTransfer a s⟩, _, exec_read a s, idleLines_readTransfer a s⟩⟩
  · exact ⟨(afterByte_beginTx a d s).sdaO, (afterByte_beginTx a d s).sclO⟩
  · exact ⟨(afterByte_byteOut b s).sdaO, (afterByte_byteOut b s).sclO⟩
  · exact ⟨(afterByte_byteIn l s).sdaO, (afterByte_byteIn l s).sclO⟩
  · rw [endTx_eq]; exact ⟨rfl, rfl⟩

end

section
/-! PROOF. Power-on and the first INIT (10_state.md R39; 70_reset_and_hazards.md R210, R212): O1, O2 and O3. -/

namespace Sys2Proof.Machine

theorem powerOn_reset : State.reset.PowerOn := by
  constructor <;> rfl

/-- An idle block meets the invariant when its buffer is canonical and, once initialised, its lines are released. -/
theorem inv_of_idle {s : State} (hbuf : s.buf.wf = true) (hbusy : s.busy = false) (hphase : s.phase = .idle)
    (hinit : s.initAt = .none) (hlines : s.inited = true → s.IdleLines) (hmoves : ∀ r ∈ s.host, r.presenter ≠ .micro) :
    s.Inv where
  buf := hbuf
  busy := by simp [hbusy, hphase, hinit]
  initIdle := fun h => absurd hinit h
  initReleased := fun h => by rw [hinit] at h; cases h
  transfer := fun h => absurd hphase h
  idle := fun _ => hlines
  moves := hmoves

theorem State.PowerOn.inv {s : State} (h : s.PowerOn) : s.Inv :=
  inv_of_idle h.buf h.busy h.phase h.initAt (fun hi => by rw [h.inited] at hi; cases hi) (by simp [h.host])

/-- Encoded and presented by the host, a public operation is let in once it needs no INIT or has had one. -/
theorem screenWord_encode {i : Instr} {q : Bool} (hpub : hostIssuable i = true) (hq : needsInit i = true → q = true) :
    screenWord .call (encode i) q = .ok i := by
  rw [screenWord_host (by decide) (decodeOfEncodeIsTheInstruction i), if_pos hpub]
  cases hn : needsInit i with
  | false => rfl
  | true => rw [hq hn]; rfl

/-- Before the first INIT a transfer is refused (R212). -/
theorem screenWord_encode_beforeInit {i : Instr} (hpub : hostIssuable i = true) (hn : needsInit i = true) :
    screenWord .call (encode i) false = .error .beforeInit := by
  rw [screenWord_host (by decide) (decodeOfEncodeIsTheInstruction i), if_pos hpub, hn]
  rfl

/-- An idle block offered a word issues it. -/
theorem step_offered {s : State} (hb : s.busy = false) (r : Request) (rest : List Request) :
    step { s with host := r :: rest } = issue r { s with host := rest } :=
  step_idle (s := { s with host := r :: rest }) rfl hb

/-- A host that calls has its word, once let in, run by the step. -/
theorem step_call {s : State} {i : Instr} {bs : List Byte} {q : Bool} {rest : List Request} (hb : s.busy = false)
    (h : screenWord .call (encode i) s.inited = .ok i) :
    step { s with host := ⟨.call, encode i, bs, q⟩ :: rest } =
      exec i (present ⟨.call, encode i, bs, q⟩ i { s with host := rest }) := by
  rw [step_offered hb]
  exact issue_exec h Presenter.noConfusion

/-- And its refused word refused. -/
theorem step_call_refused {s : State} {i : Instr} {bs : List Byte} {q : Bool} {rest : List Request} {e : Refusal}
    (hb : s.busy = false) (h : screenWord .call (encode i) s.inited = .error e) :
    step { s with host := ⟨.call, encode i, bs, q⟩ :: rest } = .refused e := by
  rw [step_offered hb]
  exact issue_refused h

end Sys2Proof.Machine

open Sys2Proof Sys2Proof.Machine

/-- Settles O1, register by register. -/
theorem resetIsAPowerOnState : Obligations.ResetIsAPowerOnState := powerOn_reset

/-- Settles O2: a power-on state is idle and not initialised. -/
theorem powerOnStatesMeetTheInvariant : Obligations.PowerOnStatesMeetTheInvariant :=
  ⟨powerOn_reset.inv, fun _ h => h.inv⟩

/-- Settles O3: the interface refuses a transfer until `inited` is set, which INIT does. -/
theorem firstCommandMustBeInit : Obligations.FirstCommandMustBeInit := by
  intro s a bs q rest h
  have hrefused (i : Instr) (hpub : hostIssuable i = true) (hn : needsInit i = true) :
      step { s with host := ⟨.call, encode i, bs, q⟩ :: rest } = .refused .beforeInit :=
    step_call_refused h.busy (by rw [h.inited]; exact screenWord_encode_beforeInit hpub hn)
  have hinit := step_call (i := .init) (bs := bs) (q := q) (rest := rest) h.busy (screenWord_encode rfl (by simp [needsInit]))
  rw [exec_init, present_word (.inr rfl)] at hinit
  refine ⟨hrefused _ rfl rfl, hrefused _ rfl rfl, _, hinit, idleLines_init _, ?_⟩
  rw [init_eq]
  refine ⟨h.phase, rfl, rfl, ⟨_, step_call rfl (screenWord_encode rfl fun _ => rfl), ?_⟩,
    _, step_call rfl (screenWord_encode rfl fun _ => rfl), ?_⟩
  · exact idleLines_writeTransfer a _
  · exact idleLines_readTransfer a _

end

section
/-! PROOF. The step of a busy master keeps the invariant, and so does every step (10_state.md R34; 41_byte_engine.md
R116; 42_framing.md R130 to R132; 43_public_commands.md R158): O40. -/

namespace Sys2Proof.Machine

/-- A block with a transfer in progress meets the invariant at a legal position. -/
theorem inv_of_transfer {s : State} {d : Dir} {a : Addr} (hbuf : s.buf.wf = true) (hbusy : s.busy = true)
    (hphase : s.phase ≠ .idle) (hinit : s.initAt = .none) (hinited : s.inited = true)
    (hcw : transferOf s.cw = some (d, a)) (hlegal : s.LegalPosition d) (hmoves : ∀ r ∈ s.host, r.presenter ≠ .micro) :
    s.Inv where
  buf := hbuf
  busy := by simp [hbusy, hphase]
  initIdle := fun h => absurd hinit h
  initReleased := fun h => by rw [hinit] at h; cases h
  transfer := fun _ => ⟨hinited, d, a, hcw, hlegal⟩
  idle := fun h => by rw [hbusy] at h; cases h
  moves := hmoves

/-- A block with an INIT in progress meets it, the data line released after the first primitive. -/
theorem inv_of_init {s : State} (hbuf : s.buf.wf = true) (hbusy : s.busy = true) (hphase : s.phase = .idle)
    (hinit : s.initAt ≠ .none) (hreleased : s.initAt = .sclRel → s.sdaO = .rel)
    (hmoves : ∀ r ∈ s.host, r.presenter ≠ .micro) : s.Inv where
  buf := hbuf
  busy := by simp [hbusy, hinit]
  initIdle := fun _ => hphase
  initReleased := hreleased
  transfer := fun h => absurd hphase h
  idle := fun h => by rw [hbusy] at h; cases h
  moves := hmoves

theorem State.Inv.not_in_progress {s : State} (I : s.Inv) (hb : s.busy = false) : s.phase = .idle ∧ s.initAt = .none := by
  have hnot := I.busy.not.1 (by simp [hb])
  push Not at hnot
  exact hnot

/-- What a step inside a transfer leads to: a legal position with the host's registers as they were. -/
structure Moves (d : Dir) (s t : State) : Prop where
  frame : MoveFrame s t
  phase : t.phase ≠ .idle
  legal : t.LegalPosition d
  buf : s.buf.wf = true → t.buf.wf = true

/-- The end of a transfer: the status written, the block idle with both lines released. -/
structure Ends (s t : State) : Prop where
  cw : t.cw = s.cw
  len : t.len = s.len
  busy : t.busy = false
  phase : t.phase = .idle
  lines : t.IdleLines
  buf : t.buf = s.buf
  inited : t.inited = s.inited
  initAt : t.initAt = s.initAt
  host : t.host = s.host
  sclIn : t.sclIn = s.sclIn

theorem moveFrame_setPos (k : BitVec 4) (u : BitVec 3) (s : State) : MoveFrame s (s.setPos k u) := by constructor <;> rfl

theorem moveFrame_storeByte (s : State) : MoveFrame s s.storeByte := by constructor <;> rfl

theorem ne_idle_of_eq {p q : Phase} (h : p = q) (hq : q ≠ .idle) : p ≠ .idle := h ▸ hq

theorem nextByte_moves {d : Dir} {s : State} (h : s.HeldLines) : Moves d s (nextByte d s) := by
  obtain ⟨hframe, hbuf, -, hlegal, hphase⟩ := nextByte_leads (d := d) h
  refine ⟨hframe, ?_, hlegal, fun hs => hbuf ▸ hs⟩
  rcases hphase with ⟨hp, -⟩ | ⟨hp, -⟩
  · exact ne_idle_of_eq hp (by decide)
  · exact ne_idle_of_eq hp (by decide)

theorem afterAddress_moves {d : Dir} {s : State} (h : s.HeldLines) : Moves d s (afterAddress d s) := by
  obtain ⟨hframe, hbuf, -, hlegal, hphase⟩ := afterAddress_leads (d := d) h
  refine ⟨hframe, ?_, hlegal, fun hs => hbuf ▸ hs⟩
  rcases hphase with ⟨hp, -⟩ | ⟨hp, -⟩
  · exact ne_idle_of_eq hp (by decide)
  · exact ne_idle_of_eq hp (by decide)

theorem enterStop_moves {d : Dir} {s : State} (h : s.HeldLines) : Moves d s (enterStop s) :=
  ⟨moveFrame_enterStop s, Phase.noConfusion, legal_enterStop h, fun hs => hs⟩

/-- After a data byte of a WRITE. -/
theorem afterData_write_nack {s : State} (h : s.ackl = .nack) : afterData .write s = enterStop s := by
  simp [afterData, h]

theorem afterData_write_ack {s : State} (h : s.ackl = .ack) : afterData .write s = nextByte .write s := by
  simp [afterData, h]

theorem afterData_read (s : State) : afterData .read s = nextByte .read s.storeByte := rfl

theorem afterData_moves {d : Dir} {s : State} (h : s.HeldLines) : Moves d s (afterData d s) := by
  cases d with
  | write =>
    cases ha : s.ackl with
    | ack => rw [afterData_write_ack ha]; exact nextByte_moves h
    | nack => rw [afterData_write_nack ha]; exact enterStop_moves h
  | read =>
    have hstore : s.storeByte.HeldLines := h
    have hnext := nextByte_moves (d := .read) hstore
    exact ⟨(moveFrame_storeByte s).trans hnext.frame, hnext.phase, hnext.legal,
      fun hs => hnext.buf (Memory.wf_write hs _ _)⟩

theorem enterAddress_moves {d : Dir} {s : State} (h : s.HeldLines) : Moves d s (enterPhase .address s) := by
  refine ⟨by constructor <;> rfl, Phase.noConfusion, ?_, fun hs => hs⟩
  simp [enterPhase, State.LegalPosition, OutLines, h.1, h.2]

theorem afterStop_ends {d : Dir} {s : State} (h : s.IdleLines) : Ends s (afterStop d s) := by
  exact ⟨rfl, rfl, rfl, rfl, h, rfl, rfl, rfl, rfl, rfl⟩

/-- A primitive in a phase followed by a move on is a move on. -/
theorem Moves.after {d : Dir} {s u t : State} (h : PrimFrame s u) (g : Moves d u t) : Moves d s t :=
  ⟨h.toMove.trans g.frame, g.phase, g.legal, fun hs => g.buf (h.buf ▸ hs)⟩

/-- A primitive that leaves the master in its phase is a move on. -/
theorem PrimFrame.moves {d : Dir} {s u : State} {k : BitVec 4} {v : BitVec 3} (h : PrimFrame s u) (hp : s.phase ≠ .idle)
    (hl : (u.setPos k v).LegalPosition d) : Moves d s (u.setPos k v) :=
  ⟨h.toMove.trans (moveFrame_setPos k v u), ne_idle_of_eq h.phase hp, hl, fun hs => by rw [State.setPos_buf, h.buf]; exact hs⟩

/-- A step of a transfer at a legal position moves on to one, or ends the transfer. -/
theorem transferStep_moves_or_ends {d : Dir} (a : Addr) {s : State} (hp : s.phase ≠ .idle) (hl : s.LegalPosition d) :
    Moves d s (transferStep d a s) ∨ Ends s (transferStep d a s) := by
  rcases transferStep_cases a hp hl with ⟨p, lines, u, hu, ht⟩ | ⟨p, lines, u, hu, ht⟩ |
    ⟨p, hi, rfl, lines, u, hu, ht⟩ | ⟨p, hi, rfl, lines, u, hu, ht⟩ | ⟨p, lines, u, hu, ht⟩
  · -- START
    obtain ⟨F, hmore, hdone⟩ := startPrimitive_lines (k := s.bitcnt) lines hu
    rcases advance_cases (framingNext 4 s.bitcnt s.ustep) (enterPhase .address) u with ⟨k', u', hn, ha⟩ | ⟨hn, ha⟩
    · rw [ht, ha]
      refine .inl (F.moves hp ?_)
      simpa [State.LegalPosition, F.phase, p] using hmore k' u' hn
    · rw [ht, ha]
      exact .inl ((enterAddress_moves (hdone hn)).after F)
  · -- ADDRESS
    obtain ⟨F, hmore, hdone⟩ := outPrimitive_lines lines hu
    rcases advance_cases (outNext s.bitcnt s.ustep) (afterAddress d) u with ⟨k', u', hn, ha⟩ | ⟨hn, ha⟩
    · rw [ht, ha]
      refine .inl (F.moves hp ?_)
      simpa [State.LegalPosition, F.phase, p] using hmore k' u' hn
    · rw [ht, ha]
      exact .inl ((afterAddress_moves (hdone hn)).after F)
  · -- DATA of a WRITE
    obtain ⟨F, hmore, hdone⟩ := outPrimitive_lines lines hu
    rcases advance_cases (outNext s.bitcnt s.ustep) (afterData .write) u with ⟨k', u', hn, ha⟩ | ⟨hn, ha⟩
    · rw [ht, ha]
      refine .inl (F.moves hp ?_)
      simpa [State.LegalPosition, F.phase, F.idx, F.len, p, hi] using hmore k' u' hn
    · rw [ht, ha]
      exact .inl ((afterData_moves (hdone hn)).after F)
  · -- DATA of a READ
    obtain ⟨F, hmore, hdone⟩ := inPrimitive_lines lines hu
    rcases advance_cases (inNext s.bitcnt s.ustep) (afterData .read) u with ⟨k', u', hn, ha⟩ | ⟨hn, ha⟩
    · rw [ht, ha]
      refine .inl (F.moves hp ?_)
      have hlast : (u.setPos k' u').isLast = s.isLast := F.isLast
      simpa [State.LegalPosition, F.phase, F.idx, F.len, p, hi, hlast] using hmore k' u' hn
    · rw [ht, ha]
      exact .inl ((afterData_moves (hdone hn)).after F)
  · -- STOP
    obtain ⟨F, hmore, hdone⟩ := stopPrimitive_lines (k := s.bitcnt) lines hu
    rcases advance_cases (framingNext 3 s.bitcnt s.ustep) (afterStop d) u with ⟨k', u', hn, ha⟩ | ⟨hn, ha⟩
    · rw [ht, ha]
      refine .inl (F.moves hp ?_)
      simpa [State.LegalPosition, F.phase, p] using hmore k' u' hn
    · rw [ht, ha]
      obtain ⟨hcw, hlen, hbusy, hphase, hlines, hbuf, hinited, hinitAt, hhost, hscl⟩ := afterStop_ends (d := d) (hdone hn)
      exact .inr ⟨hcw.trans F.cw, hlen.trans F.len, hbusy, hphase, hlines, hbuf.trans F.buf, hinited.trans F.inited,
        hinitAt.trans F.initAt, hhost.trans F.host, hscl.trans F.sclIn⟩

/-- A step of the sequencer keeps the invariant. -/
theorem State.Inv.sequencerStep {s : State} (I : s.Inv) (hb : s.busy = true) : (sequencerStep s).Inv := by
  rcases I.sequencerStep_cases hb with ⟨hi, hp, ht⟩ | ⟨hi, hp, hsda, ht⟩ | ⟨hi, hp, hn, d, a, hcw, hl, ht⟩
  · rw [ht]
    exact inv_of_init I.buf hb hp (by simp) (fun _ => rfl) I.moves
  · rw [ht]
    exact inv_of_idle I.buf rfl hp rfl (fun _ => ⟨hsda, rfl⟩) I.moves
  · rw [ht]
    rcases transferStep_moves_or_ends a hp hl with h | h
    · exact inv_of_transfer (h.buf I.buf) (h.frame.busy.trans hb) h.phase (h.frame.initAt.trans hi)
        (h.frame.inited.trans hn) (by rw [h.frame.cw]; exact hcw) h.legal (by rw [h.frame.host]; exact I.moves)
    · exact inv_of_idle (by rw [h.buf]; exact I.buf) h.busy h.phase (h.initAt.trans hi) (fun _ => h.lines)
        (by rw [h.host]; exact I.moves)

/-- A public command run to its end from an idle legal state leaves one. -/
theorem inv_exec {i : Instr} {s t : State} (hpub : hostIssuable i = true) (hbuf : s.buf.wf = true)
    (hphase : s.phase = .idle) (hinit : s.initAt = .none) (hmoves : ∀ r ∈ s.host, r.presenter ≠ .micro)
    (h : exec i s = .next t) : t.Inv := by
  rcases hostIssuable_cases hpub with rfl | ⟨a, rfl⟩ | ⟨a, rfl⟩
  · obtain rfl := Host.Outcome.next.inj ((exec_init s).symm.trans h)
    rw [init_eq]
    exact inv_of_idle hbuf rfl hphase rfl (fun _ => ⟨rfl, rfl⟩) hmoves
  · obtain rfl := Host.Outcome.next.inj ((exec_write a s).symm.trans h)
    rw [writeTransfer_eq]
    exact inv_of_idle hbuf rfl rfl hinit (fun _ => ⟨rfl, rfl⟩) hmoves
  · obtain rfl := Host.Outcome.next.inj ((exec_read a s).symm.trans h)
    rw [readTransfer_eq]
    exact inv_of_idle (Memory.wf_writeAll hbuf 0 _) rfl rfl hinit (fun _ => ⟨rfl, rfl⟩) hmoves

/-- A word brings a canonical buffer or none. -/
theorem wf_present {s : State} (h : s.buf.wf = true) (r : Request) (i : Instr) : (present r i s).buf.wf = true := by
  cases i with
  | write a => exact Memory.wf_ofBytes r.bytes
  | read a => exact Memory.wf_ofBytes r.bytes
  | init | beginTx a d | endTx | byteOut b | byteIn l | sdaLow | sdaRel | sdaSample | delay | sclLow | sclRel
    | sclSample => exact h

/-- A public command accepted from an idle legal state leaves a legal busy one. -/
theorem inv_accept {i : Instr} {s : State} (hpub : hostIssuable i = true) (hword : decode s.cw = .ok i)
    (hbuf : s.buf.wf = true) (hphase : s.phase = .idle) (hinit : s.initAt = .none)
    (hready : needsInit i = true → s.inited = true) (hlines : s.inited = true → s.IdleLines)
    (hmoves : ∀ r ∈ s.host, r.presenter ≠ .micro) : (accept i s).Inv := by
  rcases hostIssuable_cases hpub with rfl | ⟨a, rfl⟩ | ⟨a, rfl⟩
  · exact inv_of_init hbuf rfl hphase InitPos.noConfusion InitPos.noConfusion hmoves
  · obtain ⟨hsda, hscl⟩ := hlines (hready rfl)
    exact inv_of_transfer hbuf rfl Phase.noConfusion hinit (hready rfl) (transferOf_write hword)
      (.inl ⟨rfl, hsda, hscl⟩) hmoves
  · obtain ⟨hsda, hscl⟩ := hlines (hready rfl)
    exact inv_of_transfer hbuf rfl Phase.noConfusion hinit (hready rfl) (transferOf_read hword)
      (.inl ⟨rfl, hsda, hscl⟩) hmoves

end Sys2Proof.Machine

open Sys2Proof Sys2Proof.Machine

/-- Settles O40, for everything a step can be: a primitive of a busy master, nothing, a public command run to its end,
or a public command accepted. -/
theorem everyStepKeepsTheInvariant : Obligations.EveryStepKeepsTheInvariant := by
  intro s t I h
  rcases step_next h with ⟨hb, rfl⟩ | ⟨-, -, rfl⟩ | ⟨r, rest, i, hb, hh, hi, hrun⟩
  · exact I.sequencerStep hb
  · exact I
  · obtain ⟨hphase, hinit⟩ := I.not_in_progress hb
    have hhost : r.presenter ≠ .micro := I.moves r (by simp [hh])
    have hrest : ∀ r' ∈ rest, r'.presenter ≠ .micro := fun r' hr => I.moves r' (by simp [hh, hr])
    obtain ⟨hpub, hready⟩ := host_screenWord hhost hi
    obtain ⟨F, hcw⟩ := presentFrame r i { s with host := rest }
    have hbuf := wf_present (s := { s with host := rest }) I.buf r i
    have hmoves : ∀ r' ∈ (present r i { s with host := rest }).host, r'.presenter ≠ .micro := by
      rw [F.host]; exact hrest
    rcases hrun with ⟨-, hexec⟩ | ⟨-, rfl⟩
    · exact inv_exec hpub hbuf (F.phase.trans hphase) (F.initAt.trans hinit) hmoves hexec
    · refine inv_accept hpub (by rw [hcw]; exact decode_of_screenWord hi) hbuf (F.phase.trans hphase)
        (F.initAt.trans hinit) (fun hn => F.inited.trans (hready hn)) (fun hn => ?_) hmoves
      obtain ⟨hsda, hscl⟩ := I.idle hb (F.inited.symm.trans hn)
      exact ⟨F.sdaO.trans hsda, F.sclO.trans hscl⟩

end

section
/-! PROOF. One step of a busy master on the wire (42_framing.md R132; 43_public_commands.md R154, R158): O41, O45 and
O46. -/

namespace Sys2Proof.Machine

/-- From `s` to `u` one primitive is performed: one event; `SCL_LOW` only with the clock released; the data line is
moved with the clock released only as `turns` says, and asserted again only where `again` does. -/
structure WireStep (s u : State) (turns : Drive → Prop) (again : Prop) : Prop where
  event : ∃ e, u.trace = s.trace ++ [e]
  clock : u.trace = s.trace ++ [.sclLow] → s.sclO = .rel
  data : s.sclO = .rel → u.sdaO ≠ s.sdaO → turns u.sdaO
  low : u.trace = s.trace ++ [.sdaLow] → s.sdaO = .low → again

section
variable {s u : State} {turns : Drive → Prop} {again : Prop}

theorem WireStep.imp {turns' : Drive → Prop} {again' : Prop} (h : WireStep s u turns again)
    (ht : ∀ d, turns d → turns' d) (ha : again → again') : WireStep s u turns' again' :=
  ⟨h.event, h.clock, fun hc hd => ht _ (h.data hc hd), fun he hl => ha (h.low he hl)⟩

theorem wireStep_sdaLow (ht : s.sclO = .rel → s.sdaO = .rel → turns .low) (ha : s.sdaO = .low → again) :
    WireStep s (sdaLow s) turns again where
  event := ⟨_, rfl⟩
  clock := by simp [sdaLow_eq]
  data := fun hc hd => ht hc (by cases h : s.sdaO <;> simp_all [sdaLow_eq])
  low := fun _ => ha

theorem wireStep_sdaRel (ht : s.sclO = .rel → s.sdaO = .low → turns .rel) : WireStep s (sdaRel s) turns again where
  event := ⟨_, rfl⟩
  clock := by simp [sdaRel_eq]
  data := fun hc hd => ht hc (by cases h : s.sdaO <;> simp_all [sdaRel_eq])
  low := by simp [sdaRel_eq]

theorem wireStep_sclLow (hc : s.sclO = .rel) : WireStep s (sclLow s) turns again where
  event := ⟨_, rfl⟩
  clock := fun _ => hc
  data := fun _ hd => absurd rfl hd
  low := by simp [sclLow_eq]

theorem wireStep_sclRel : WireStep s (sclRel s) turns again where
  event := ⟨_, rfl⟩
  clock := by simp [sclRel_eq]
  data := fun _ hd => absurd rfl hd
  low := by simp [sclRel_eq]

theorem wireStep_delay : WireStep s (delay s) turns again where
  event := ⟨_, rfl⟩
  clock := by simp [delay_eq]
  data := fun _ hd => absurd rfl hd
  low := by simp [delay_eq]

theorem sdaSample_trace (s : State) : (sdaSample s).trace = s.trace ++ [.sdaSample (sdaSampled s)] := by
  unfold sdaSample
  split <;> rfl

theorem wireStep_sdaSample : WireStep s (sdaSample s) turns again where
  event := ⟨_, sdaSample_trace s⟩
  clock := by simp [sdaSample_trace]
  data := fun _ hd => absurd (sdaSample_lines s).1 hd
  low := by simp [sdaSample_trace]

/-- The rest of the state is not seen on the wire. -/
theorem WireStep.of_same {t : State} (h : WireStep s u turns again) (hsda : t.sdaO = u.sdaO) (htrace : t.trace = u.trace) :
    WireStep s t turns again :=
  ⟨htrace ▸ h.event, htrace ▸ h.clock, hsda ▸ h.data, htrace ▸ h.low⟩

theorem wireStep_latchAck : WireStep s (latchAck s) turns again :=
  (wireStep_sdaSample (s := s)).of_same rfl rfl

theorem wireStep_latchBit : WireStep s (latchBit s) turns again :=
  (wireStep_sdaSample (s := s)).of_same rfl rfl

/-- `PUT_SDA` with the clock asserted. -/
theorem wireStep_putSda {b : Bool} (hc : s.sclO = .low) (ha : b = false → s.sdaO = .low → again) :
    WireStep s (putSda b s) turns again := by
  have hnot (d d' : Drive) (hr : s.sclO = .rel) : s.sdaO = d → turns d' := by rw [hc] at hr; cases hr
  cases b with
  | false => exact wireStep_sdaLow (fun hr => hnot _ _ hr) (ha rfl)
  | true => exact wireStep_sdaRel (fun hr => hnot _ _ hr)

/-- Loading `SHREG` first is not seen on the wire. -/
theorem WireStep.of_loadFirst {b : Byte} {k : BitVec 4} (h : WireStep (loadFirst b k s) u turns again) :
    WireStep s u turns again := by
  unfold loadFirst at h
  split at h
  · exact ⟨h.event, h.clock, h.data, h.low⟩
  · exact h

end

/-- The drivers in a data cell and in the acknowledgment cell of `BYTE_OUT`, off `OutLines`. -/
theorem OutLines.data {k u : Nat} {sda scl : Drive} (h : OutLines k u sda scl) (hk : k ≤ 7) :
    scl = if u = 2 ∨ u = 3 then .rel else .low := by
  rcases h with ⟨-, -, hc, -⟩ | ⟨h8, -⟩
  · exact hc
  · omega

theorem OutLines.ack {u : Nat} {sda scl : Drive} (h : OutLines 8 u sda scl) :
    scl = (if u = 2 ∨ u = 3 ∨ u = 4 then .rel else .low) ∧ (1 ≤ u → u ≤ 5 → sda = .rel) := by
  rcases h with ⟨h7, -⟩ | ⟨-, -, hc, hs, -⟩
  · omega
  · exact ⟨hc, hs⟩

/-- A primitive of `BYTE_OUT` moves the data line with the clock asserted, and asserts it again only to place a 0 bit. -/
theorem outPrimitive_wire {b : Byte} {k : BitVec 4} {u : BitVec 3} {s t : State}
    (hl : OutLines k.toNat u.toNat s.sdaO s.sclO) (h : outPrimitive b k u s = some t) :
    WireStep s t (fun _ => False) (k.toNat ≤ 7 ∧ u.toNat = 0) := by
  rcases outPrimitive_cases h with ⟨hk, hc⟩ | ⟨hk, hc⟩
  · have hscl := hl.data hk
    rcases hc with ⟨hu, rfl⟩ | ⟨hu, rfl⟩ | ⟨hu, rfl⟩ | ⟨hu, rfl⟩ | ⟨hu, rfl⟩
    · have hput : WireStep (loadFirst b k s) _ (fun _ => False) (k.toNat ≤ 7 ∧ u.toNat = 0) :=
        wireStep_putSda (b := (loadFirst b k s).shreg.msb) ((loadFirst_frame b k s).2.2.trans (by simp [hscl, hu]))
          fun _ _ => ⟨hk, hu⟩
      exact hput.of_loadFirst
    · exact wireStep_sclRel
    · exact wireStep_delay
    · exact (wireStep_sclLow (s := s) (by simp [hscl, hu])).of_same rfl rfl
    · exact wireStep_delay
  · rw [hk] at hl
    obtain ⟨hscl, hsda⟩ := hl.ack
    rcases hc with ⟨hu, rfl⟩ | ⟨hu, rfl⟩ | ⟨hu, rfl⟩ | ⟨hu, rfl⟩ | ⟨hu, rfl⟩ | ⟨hu, rfl⟩ | ⟨hu, rfl⟩
    · exact wireStep_sdaRel (by simp [hscl, hu])
    · exact wireStep_sclRel
    · exact wireStep_delay
    · exact wireStep_latchAck
    · exact wireStep_sclLow (by simp [hscl, hu])
    · exact wireStep_sdaLow (by simp [hscl, hu]) (by simp [hsda, hu])
    · exact wireStep_delay

theorem InLines.ack {last : Bool} {u : Nat} {sda scl : Drive} (h : InLines last 8 u sda scl) :
    scl = (if u = 2 ∨ u = 3 then .rel else .low) ∧ (u = 0 → sda = .rel) ∧
      (u = 4 → sda = if last then .rel else .low) := by
  rcases h with ⟨h15, -⟩ | ⟨h7, -⟩ | ⟨-, -, hc, h0, h4, -⟩
  · omega
  · omega
  · exact ⟨hc, h0, fun hu => h4 (by omega) (by omega)⟩

/-- So does one of `BYTE_IN`, which asserts the data line again only after the master's own ACK. -/
theorem inPrimitive_wire {last : Bool} {k : BitVec 4} {u : BitVec 3} {s t : State}
    (hl : InLines last k.toNat u.toNat s.sdaO s.sclO) (h : inPrimitive last k u s = some t) :
    WireStep s t (fun _ => False) (k.toNat = 8 ∧ u.toNat = 4 ∧ last = false) := by
  rcases inPrimitive_cases h with ⟨hk, hu, rfl⟩ | ⟨hk, hc⟩ | ⟨hk, hc⟩
  · have hscl : s.sclO = .low := by
      rcases hl with ⟨-, -, -, hc⟩ | ⟨h7, -⟩ | ⟨h8, -⟩
      · exact hc
      · omega
      · omega
    exact (wireStep_sdaRel (s := s) (by simp [hscl])).of_same rfl rfl
  · have hscl : s.sclO = (if u.toNat = 2 ∨ u.toNat = 3 ∨ u.toNat = 4 then .rel else .low) := by
      rcases hl with ⟨h15, -⟩ | ⟨-, -, -, hc⟩ | ⟨h8, -⟩
      · omega
      · exact hc
      · omega
    rcases hc with ⟨hu, rfl⟩ | ⟨hu, rfl⟩ | ⟨hu, rfl⟩ | ⟨hu, rfl⟩ | ⟨hu, rfl⟩
    · exact wireStep_delay
    · exact wireStep_sclRel
    · exact wireStep_latchBit
    · exact wireStep_delay
    · exact wireStep_sclLow (by simp [hscl, hu])
  · rw [hk] at hl
    obtain ⟨hscl, hopen, hclose⟩ := hl.ack
    rcases hc with ⟨hu, rfl⟩ | ⟨hu, rfl⟩ | ⟨hu, rfl⟩ | ⟨hu, rfl⟩ | ⟨hu, rfl⟩ | ⟨hu, rfl⟩
    · exact wireStep_putSda (by simp [hscl, hu]) (by simp [hopen hu])
    · exact wireStep_sclRel
    · exact wireStep_delay
    · exact wireStep_sclLow (by simp [hscl, hu])
    · exact wireStep_sdaLow (by simp [hscl, hu]) fun hlow => ⟨hk, hu, by simpa [hlow] using hclose hu⟩
    · exact wireStep_delay

/-- The START phase turns the data line low at its first primitive. -/
theorem startPrimitive_wire {u : BitVec 3} {s t : State} (hl : StartLines u.toNat s.sdaO s.sclO)
    (h : startPrimitive u s = some t) : WireStep s t (fun d => u.toNat = 0 ∧ d = .low) False := by
  rcases startPrimitive_cases h with ⟨hu, rfl⟩ | ⟨hu, rfl⟩ | ⟨hu, rfl⟩ | ⟨hu, rfl⟩
  · rw [hu] at hl
    exact wireStep_sdaLow (fun _ _ => ⟨hu, rfl⟩) (fun hlow => by simp [StartLines, hlow] at hl)
  · exact wireStep_delay
  · rw [hu] at hl
    exact wireStep_sclLow (by simpa [StartLines] using hl : s.sdaO = .low ∧ s.sclO = .rel).2
  · exact wireStep_delay

/-- The STOP phase turns it to released at its last. -/
theorem stopPrimitive_wire {u : BitVec 3} {s t : State} (h : stopPrimitive u s = some t) :
    WireStep s t (fun d => u.toNat = 2 ∧ d = .rel) False := by
  rcases stopPrimitive_cases h with ⟨hu, rfl⟩ | ⟨hu, rfl⟩ | ⟨hu, rfl⟩
  · exact wireStep_sclRel
  · exact wireStep_delay
  · exact wireStep_sdaRel fun _ _ => ⟨hu, rfl⟩

/-! ### What follows the last primitive of an operation leaves the wire and `ACKL` -/

structure Kept (s t : State) : Prop where
  sdaO : t.sdaO = s.sdaO
  trace : t.trace = s.trace
  ackl : t.ackl = s.ackl

theorem kept_enterPhase (p : Phase) (s : State) : Kept s (enterPhase p s) := ⟨rfl, rfl, rfl⟩

theorem kept_afterStop (d : Dir) (s : State) : Kept s (afterStop d s) := ⟨rfl, rfl, rfl⟩

theorem kept_enterData (d : Dir) (s : State) : Kept s (enterData d s) := by
  cases d <;> exact ⟨rfl, rfl, rfl⟩

theorem kept_nextByte (d : Dir) (s : State) : Kept s (nextByte d s) := by
  have h := kept_enterData d (s.setIdx (s.idx + 1))
  simp only [nextByte]
  split
  · exact ⟨h.sdaO, h.trace, h.ackl⟩
  · exact ⟨rfl, rfl, rfl⟩

theorem kept_afterAddress (d : Dir) (s : State) : Kept s (afterAddress d s) := by
  have h := kept_enterData d (s.setIdx 0)
  unfold afterAddress
  split
  · exact ⟨rfl, rfl, rfl⟩
  · simp only
    split
    · exact ⟨h.sdaO, h.trace, h.ackl⟩
    · exact ⟨rfl, rfl, rfl⟩

theorem kept_afterData (d : Dir) (s : State) : Kept s (afterData d s) := by
  cases d with
  | write =>
    cases ha : s.ackl with
    | ack => rw [afterData_write_ack ha]; exact kept_nextByte .write s
    | nack => rw [afterData_write_nack ha]; exact ⟨rfl, rfl, rfl⟩
  | read =>
    have h := kept_nextByte .read s.storeByte
    exact ⟨h.sdaO, h.trace, h.ackl⟩

theorem kept_advance {f : State → State} (hf : ∀ s, Kept s (f s)) (n : NextPos) (s : State) :
    Kept s (advance n f s) := by
  cases n with
  | more k u => exact ⟨rfl, rfl, rfl⟩
  | done => exact hf s

theorem WireStep.kept {s u t : State} {turns : Drive → Prop} {again : Prop} (h : WireStep s u turns again)
    (hk : Kept u t) : WireStep s t turns again := h.of_same hk.sdaO hk.trace

/-- Where the data line may be moved with the clock released (R132 a). -/
def State.MayTurn (s : State) (d : Drive) : Prop :=
  (s.phase = .start ∧ s.ustep = 0#3 ∧ d = .low) ∨ (s.phase = .stop ∧ s.ustep = 2#3 ∧ d = .rel) ∨
  (s.initAt = .sdaRel ∧ d = .rel)

/-- Where `SDA_LOW` may meet an asserted data line (R158). -/
def State.MayLowAgain (s : State) : Prop :=
  (s.phase = .data ∧ (∃ a, transferOf s.cw = some (.read, a)) ∧ s.bitcnt = 8#4 ∧ s.ustep = 4#3 ∧ s.isLast = false) ∨
  ((s.phase = .address ∨ s.phase = .data) ∧ s.ustep = 0#3 ∧ s.bitcnt.toNat ≤ 7)

/-- A step of the sequencer from a legal state is one primitive, and the lines move as the spec says. -/
theorem State.Inv.wireStep {s : State} (I : s.Inv) (hb : s.busy = true) :
    WireStep s (Machine.sequencerStep s) s.MayTurn s.MayLowAgain := by
  rcases I.sequencerStep_cases hb with ⟨hi, -, ht⟩ | ⟨-, -, -, ht⟩ | ⟨-, hp, -, d, a, hcw, hl, ht⟩
  · rw [ht]
    exact (wireStep_sdaRel (s := s) fun _ _ => .inr (.inr ⟨hi, rfl⟩)).of_same rfl rfl
  · rw [ht]
    exact (wireStep_sclRel (s := s)).of_same rfl rfl
  · rw [ht]
    rcases transferStep_cases a hp hl with ⟨p, lines, u, hu, ht⟩ | ⟨p, lines, u, hu, ht⟩ |
      ⟨p, -, rfl, lines, u, hu, ht⟩ | ⟨p, -, rfl, lines, u, hu, ht⟩ | ⟨p, -, u, hu, ht⟩
    · rw [ht]
      refine ((startPrimitive_wire lines hu).kept (kept_advance (kept_enterPhase .address) _ u)).imp ?_ False.elim
      exact fun d ⟨hu0, hd⟩ => .inl ⟨p, ustep_eq hu0, hd⟩
    · rw [ht]
      refine ((outPrimitive_wire lines hu).kept (kept_advance (kept_afterAddress d) _ u)).imp (fun _ => False.elim) ?_
      exact fun ⟨hk, hu0⟩ => .inr ⟨.inl p, ustep_eq hu0, hk⟩
    · rw [ht]
      refine ((outPrimitive_wire lines hu).kept (kept_advance (kept_afterData .write) _ u)).imp (fun _ => False.elim) ?_
      exact fun ⟨hk, hu0⟩ => .inr ⟨.inr p, ustep_eq hu0, hk⟩
    · rw [ht]
      refine ((inPrimitive_wire lines hu).kept (kept_advance (kept_afterData .read) _ u)).imp (fun _ => False.elim) ?_
      exact fun ⟨hk, hu4, hlast⟩ => .inl ⟨p, ⟨a, hcw⟩, BitVec.eq_of_toNat_eq hk, ustep_eq hu4, hlast⟩
    · rw [ht]
      refine ((stopPrimitive_wire hu).kept (kept_advance (kept_afterStop d) _ u)).imp ?_ False.elim
      exact fun d ⟨hu2, hd⟩ => .inr (.inl ⟨p, ustep_eq hu2, hd⟩)

/-- A busy master's step, when it answers, is the sequencer's. -/
theorem step_next_of_busy {s t : State} (hb : s.busy = true) (h : step s = .next t) : t = sequencerStep s := by
  rcases step_next h with ⟨-, ht⟩ | ⟨hnot, -⟩ | ⟨r, rest, i, hnot, -⟩
  · exact ht
  · rw [hb] at hnot; cases hnot
  · rw [hb] at hnot; cases hnot

end Sys2Proof.Machine

open Sys2Proof Sys2Proof.Machine

/-- Settles O41: from a legal state the sequencer's step is one primitive. -/
theorem busyStepPerformsOnePrimitive : Obligations.BusyStepPerformsOnePrimitive := by
  intro s I hb hw
  obtain ⟨e, he⟩ := (I.wireStep hb).event
  exact ⟨_, e, step_of_busy hb hw, he⟩

/-- Settles O45. -/
theorem dataMovesWhileClockReleasedOnlyAtStartAndStop : Obligations.DataMovesWhileClockReleasedOnlyAtStartAndStop := by
  intro s t I hb h hclock hmove
  obtain rfl := step_next_of_busy hb h
  exact (I.wireStep hb).data hclock hmove

/-- Settles O46. -/
theorem noLineIsAssertedTwiceButWhereSaid : Obligations.NoLineIsAssertedTwiceButWhereSaid := by
  intro s t I hb h
  obtain rfl := step_next_of_busy hb h
  exact ⟨(I.wireStep hb).clock, (I.wireStep hb).low⟩

end

section
/-! PROOF. One step of a busy master on the host's registers, the buffer and the phases (10_state.md R33, R37;
43_public_commands.md R153): O47 and O48. -/

namespace Sys2Proof.Machine

/-! ### The host's registers and the buffer -/

/-- The registers no step of a busy master writes, and `STATUS` until the step that ends the command. -/
structure HostKept (s t : State) : Prop where
  cw : t.cw = s.cw
  len : t.len = s.len
  host : t.host = s.host
  sclIn : t.sclIn = s.sclIn
  status : t.busy = true → t.status = s.status

theorem State.Inv.hostKept {s : State} (I : s.Inv) (hb : s.busy = true) : HostKept s (Machine.sequencerStep s) := by
  rcases I.sequencerStep_cases hb with ⟨-, -, ht⟩ | ⟨-, -, -, ht⟩ | ⟨-, hp, -, d, a, -, hl, ht⟩
  · rw [ht]; exact ⟨rfl, rfl, rfl, rfl, fun _ => rfl⟩
  · rw [ht]; exact ⟨rfl, rfl, rfl, rfl, fun _ => rfl⟩
  · rw [ht]
    rcases transferStep_moves_or_ends a hp hl with ⟨F, -, -, -⟩ | ⟨hcw, hlen, hbusy, -, -, -, -, -, hhost, hscl⟩
    · exact ⟨F.cw, F.len, F.host, F.sclIn, fun _ => F.status⟩
    · exact ⟨hcw, hlen, hhost, hscl, fun h => by rw [hbusy] at h; cases h⟩

theorem nextByte_buf (d : Dir) (s : State) : (nextByte d s).buf = s.buf := by
  simp only [nextByte]
  split
  · cases d <;> rfl
  · rfl

theorem afterAddress_buf (d : Dir) (s : State) : (afterAddress d s).buf = s.buf := by
  unfold afterAddress
  split
  · rfl
  · simp only
    split
    · cases d <;> rfl
    · rfl

theorem afterData_write_buf (s : State) : (afterData .write s).buf = s.buf := by
  cases ha : s.ackl with
  | ack => rw [afterData_write_ack ha, nextByte_buf]
  | nack => rw [afterData_write_nack ha]; rfl

theorem afterData_read_buf (s : State) : (afterData .read s).buf = s.buf.write s.idx s.shreg := by
  rw [afterData_read, nextByte_buf]; rfl

theorem advance_buf {f : State → State} (hf : ∀ s, (f s).buf = s.buf) (n : NextPos) (s : State) :
    (advance n f s).buf = s.buf := by
  cases n with
  | more k u => rfl
  | done => exact hf s

/-- A step of a transfer leaves the buffer, or stores one byte at `IDX` in the DATA phase of a READ. -/
theorem transferStep_buf {d : Dir} (a : Addr) {s : State} (hp : s.phase ≠ .idle) (hl : s.LegalPosition d) :
    (transferStep d a s).buf = s.buf ∨
    (s.phase = .data ∧ d = .read ∧ s.idx < s.len ∧ ∃ v, (transferStep d a s).buf = s.buf.write s.idx v) := by
  rcases transferStep_cases a hp hl with ⟨-, lines, u, hu, ht⟩ | ⟨-, lines, u, hu, ht⟩ |
    ⟨-, -, rfl, lines, u, hu, ht⟩ | ⟨p, hi, rfl, lines, u, hu, ht⟩ | ⟨-, lines, u, hu, ht⟩
  · have F := (startPrimitive_lines (k := s.bitcnt) lines hu).1
    exact .inl (by rw [ht, advance_buf (f := enterPhase .address) (fun _ => rfl), F.buf])
  · have F := (outPrimitive_lines lines hu).1
    exact .inl (by rw [ht, advance_buf (afterAddress_buf d), F.buf])
  · have F := (outPrimitive_lines lines hu).1
    exact .inl (by rw [ht, advance_buf afterData_write_buf, F.buf])
  · have F := (inPrimitive_lines lines hu).1
    rcases advance_cases (inNext s.bitcnt s.ustep) (afterData .read) u with ⟨k', u', -, ha⟩ | ⟨-, ha⟩
    · exact .inl (by rw [ht, ha, State.setPos_buf, F.buf])
    · exact .inr ⟨p, rfl, hi, u.shreg, by rw [ht, ha, afterData_read_buf, F.buf, F.idx]⟩
  · have F := (stopPrimitive_lines (k := s.bitcnt) lines hu).1
    exact .inl (by rw [ht, advance_buf (f := afterStop d) (fun _ => rfl), F.buf])

theorem State.Inv.sequencerStep_buf {s : State} (I : s.Inv) (hb : s.busy = true) :
    (Machine.sequencerStep s).buf = s.buf ∨
    (s.phase = .data ∧ (∃ a, transferOf s.cw = some (.read, a)) ∧ s.idx < s.len ∧
      ∃ v, (Machine.sequencerStep s).buf = s.buf.write s.idx v) := by
  rcases I.sequencerStep_cases hb with ⟨-, -, ht⟩ | ⟨-, -, -, ht⟩ | ⟨-, hp, -, d, a, hcw, hl, ht⟩
  · exact .inl (by rw [ht]; rfl)
  · exact .inl (by rw [ht]; rfl)
  · rw [ht]
    rcases transferStep_buf a hp hl with h | ⟨p, rfl, hi, hv⟩
    · exact .inl h
    · exact .inr ⟨p, ⟨a, hcw⟩, hi, hv⟩

/-! ### The phases -/

/-- The last position of `BYTE_OUT` and of `BYTE_IN` (R112, R114). -/
theorem outNext_done_iff {k : BitVec 4} {u : BitVec 3} {sda scl : Drive} (h : OutLines k.toNat u.toNat sda scl) :
    outNext k u = .done ↔ k = 8#4 ∧ u = 6#3 := by
  rw [← BitVec.toNat_inj, ← BitVec.toNat_inj (y := 6#3)]
  unfold outNext
  rcases h with ⟨hk, -⟩ | ⟨hk, hu, -⟩
  · rw [if_pos hk]
    split <;> simp <;> omega
  · rw [if_neg (by omega)]
    split <;> simp <;> omega

theorem inNext_done_iff {last : Bool} {k : BitVec 4} {u : BitVec 3} {sda scl : Drive}
    (h : InLines last k.toNat u.toNat sda scl) : inNext k u = .done ↔ k = 8#4 ∧ u = 5#3 := by
  have mark : k = openingMark ↔ k.toNat = 15 := by simp [openingMark, ← BitVec.toNat_inj]
  rw [← BitVec.toNat_inj, ← BitVec.toNat_inj (y := 5#3)]
  unfold inNext
  rcases h with ⟨hk, -⟩ | ⟨hk, -⟩ | ⟨hk, hu, -⟩
  · rw [if_pos (mark.2 hk)]
    simp
    omega
  · rw [if_neg (by rw [mark]; omega), if_pos hk]
    split <;> simp <;> omega
  · rw [if_neg (by rw [mark]; omega), if_neg (by omega)]
    split <;> simp <;> omega

/-- The next byte when there is one, and STOP when the buffer is consumed. -/
theorem nextByte_more (d : Dir) {s : State} (h : s.idx + 1 < s.len) :
    nextByte d s = enterData d (s.setIdx (s.idx + 1)) := if_pos h

theorem nextByte_consumed (d : Dir) {s : State} (h : ¬ s.idx + 1 < s.len) :
    nextByte d s = enterStop (s.setIdx (s.idx + 1)) := if_neg h

/-- A step in the DATA phase stays inside the byte, or is the byte's last primitive. -/
theorem transferStep_data {d : Dir} (a : Addr) {s : State} (p : s.phase = .data) (hl : s.LegalPosition d) :
    s.idx < s.len ∧ ∃ u, PrimFrame s u ∧
      ((¬ s.AtByteEnd d ∧ ∃ k' u', transferStep d a s = u.setPos k' u') ∨
       (s.AtByteEnd d ∧ transferStep d a s = afterData d u)) := by
  rcases transferStep_cases a (by simp [p]) hl with ⟨p', -⟩ | ⟨p', -⟩ | ⟨-, hi, rfl, lines, u, hu, ht⟩ |
    ⟨-, hi, rfl, lines, u, hu, ht⟩ | ⟨p', -⟩
  · rw [p] at p'; cases p'
  · rw [p] at p'; cases p'
  · refine ⟨hi, u, (outPrimitive_lines lines hu).1, ?_⟩
    have hend : s.AtByteEnd .write ↔ outNext s.bitcnt s.ustep = .done := (outNext_done_iff lines).symm
    rw [hend, ht]
    rcases advance_cases (outNext s.bitcnt s.ustep) (afterData .write) u with ⟨k', u', hn, ha⟩ | ⟨hn, ha⟩
    · exact .inl ⟨by simp [hn], k', u', ha⟩
    · exact .inr ⟨hn, ha⟩
  · refine ⟨hi, u, (inPrimitive_lines lines hu).1, ?_⟩
    have hend : s.AtByteEnd .read ↔ inNext s.bitcnt s.ustep = .done := (inNext_done_iff lines).symm
    rw [hend, ht]
    rcases advance_cases (inNext s.bitcnt s.ustep) (afterData .read) u with ⟨k', u', hn, ha⟩ | ⟨hn, ha⟩
    · exact .inl ⟨by simp [hn], k', u', ha⟩
    · exact .inr ⟨hn, ha⟩
  · rw [p] at p'; cases p'

/-- The first position of a data byte. -/
theorem enterData_position (d : Dir) (s : State) : (enterData d s).phase = .data ∧ (enterData d s).idx = s.idx ∧
    (enterData d s).ustep = 0#3 ∧ (enterData d s).bitcnt = (match d with
      | .write => 0#4
      | .read => 15#4) := by
  cases d <;> exact ⟨rfl, rfl, rfl, rfl⟩

/-- Where the last primitive of a data byte leads (R153). -/
theorem afterData_cases (d : Dir) (s : State) :
    (d = .write ∧ s.ackl = .nack ∧ (afterData d s).phase = .stop ∧ (afterData d s).idx = s.idx) ∨
    ((d = .read ∨ s.ackl = .ack) ∧ s.len ≤ s.idx + 1 ∧ (afterData d s).phase = .stop) ∨
    ((d = .read ∨ s.ackl = .ack) ∧ s.idx + 1 < s.len ∧ (afterData d s).phase = .data ∧
      (afterData d s).idx = s.idx + 1 ∧ (afterData d s).ustep = 0#3 ∧ (afterData d s).bitcnt = (match d with
        | .write => 0#4
        | .read => 15#4)) := by
  have hnext (u : State) (h : u.idx + 1 < u.len) : _ := nextByte_more d h ▸ enterData_position d (u.setIdx (u.idx + 1))
  cases d with
  | write =>
    cases ha : s.ackl with
    | nack => rw [afterData_write_nack ha]; exact .inl ⟨rfl, rfl, rfl, rfl⟩
    | ack =>
      rw [afterData_write_ack ha]
      by_cases hlt : s.idx + 1 < s.len
      · exact .inr (.inr ⟨.inr rfl, hlt, hnext s hlt⟩)
      · rw [nextByte_consumed _ hlt]
        exact .inr (.inl ⟨.inr rfl, by omega, rfl⟩)
  | read =>
    rw [afterData_read]
    by_cases hlt : s.idx + 1 < s.len
    · exact .inr (.inr ⟨.inl rfl, hlt, hnext s.storeByte hlt⟩)
    · rw [nextByte_consumed (s := s.storeByte) _ hlt]
      exact .inr (.inl ⟨.inl rfl, by omega, rfl⟩)

/-- The transitions of R153, the phases other than DATA case by case and DATA by `afterData_cases`. -/
theorem transferStep_phase {d : Dir} {a : Addr} {s : State} (hp : s.phase ≠ .idle) (hl : s.LegalPosition d)
    (hcw : transferOf s.cw = some (d, a)) (hmove : (transferStep d a s).phase ≠ s.phase) :
    (s.phase = .start ∧ (transferStep d a s).phase = .address) ∨
    (s.phase = .address ∧ (transferStep d a s).phase = .data ∧ (transferStep d a s).ackl = .ack ∧ 0 < s.len ∧
      (transferStep d a s).idx = 0) ∨
    (s.phase = .address ∧ (transferStep d a s).phase = .stop ∧ ((transferStep d a s).ackl = .nack ∨ s.len = 0)) ∨
    (s.phase = .data ∧ (transferStep d a s).phase = .stop ∧
      (s.idx + 1 = s.len ∨ ((transferStep d a s).ackl = .nack ∧ ∃ a, transferOf s.cw = some (.write, a)))) ∨
    (s.phase = .stop ∧ (transferStep d a s).phase = .idle ∧ (transferStep d a s).busy = false) := by
  have hstay {u : State} {k : BitVec 4} {v : BitVec 3} (F : PrimFrame s u) (ht : transferStep d a s = u.setPos k v) :
      False := hmove (by rw [ht]; exact F.phase)
  have hdata (p : s.phase = .data) : (transferStep d a s).phase = .stop ∧
      (s.idx + 1 = s.len ∨ ((transferStep d a s).ackl = .nack ∧ ∃ a, transferOf s.cw = some (.write, a))) := by
    obtain ⟨hi, u, F, ⟨-, k', u', ht⟩ | ⟨-, ht⟩⟩ := transferStep_data a p hl
    · exact (hstay F ht).elim
    · have hackl := (kept_afterData d u).ackl
      rw [ht] at hmove ⊢
      rcases afterData_cases d u with ⟨rfl, hnack, hstop, -⟩ | ⟨-, hlen, hstop⟩ | ⟨-, -, hdata, -⟩
      · exact ⟨hstop, .inr ⟨hackl.trans hnack, a, hcw⟩⟩
      · rw [F.len, F.idx] at hlen
        exact ⟨hstop, .inl (by omega)⟩
      · exact absurd (hdata.trans p.symm) hmove
  rcases transferStep_cases a hp hl with ⟨p, lines, u, hu, ht⟩ | ⟨p, lines, u, hu, ht⟩ | ⟨p, -⟩ | ⟨p, -⟩ |
    ⟨p, lines, u, hu, ht⟩
  · have F := (startPrimitive_lines (k := s.bitcnt) lines hu).1
    rcases advance_cases (framingNext 4 s.bitcnt s.ustep) (enterPhase .address) u with ⟨k', u', -, ha⟩ | ⟨-, ha⟩
    · exact (hstay F (ht.trans ha)).elim
    · exact .inl ⟨p, by rw [ht, ha]; rfl⟩
  · obtain ⟨F, -, hdone⟩ := outPrimitive_lines lines hu
    rcases advance_cases (outNext s.bitcnt s.ustep) (afterAddress d) u with ⟨k', u', -, ha⟩ | ⟨hn, ha⟩
    · exact (hstay F (ht.trans ha)).elim
    · rw [ht, ha]
      obtain ⟨-, -, hackl, -, ⟨hphase, hack, hlen, hidx⟩ | ⟨hphase, hwhy⟩⟩ := afterAddress_leads (d := d) (hdone hn)
      · exact .inr (.inl ⟨p, hphase, hackl.trans hack, F.len ▸ hlen, hidx⟩)
      · exact .inr (.inr (.inl ⟨p, hphase, by rw [hackl, ← F.len]; exact hwhy⟩))
  · exact .inr (.inr (.inr (.inl ⟨p, hdata p⟩)))
  · exact .inr (.inr (.inr (.inl ⟨p, hdata p⟩)))
  · have F := (stopPrimitive_lines (k := s.bitcnt) lines hu).1
    rcases advance_cases (framingNext 3 s.bitcnt s.ustep) (afterStop d) u with ⟨k', u', -, ha⟩ | ⟨-, ha⟩
    · exact (hstay F (ht.trans ha)).elim
    · exact .inr (.inr (.inr (.inr ⟨p, by rw [ht, ha]; rfl, by rw [ht, ha]; rfl⟩)))

/-- A WRITE's byte not acknowledged is not among the bytes transferred. -/
theorem aborted_not_transferred {d : Dir} {k : Ack} (hd : d = .write) (hk : k = .nack) : ¬ (d = .read ∨ k = .ack) := by
  simp [hd, hk]

/-- Where a step in the DATA phase leads: on inside the byte, or from its last primitive to STOP or the next byte. -/
theorem transferStep_data_leads {d : Dir} (a : Addr) {s : State} (p : s.phase = .data) (hl : s.LegalPosition d) :
    (¬ s.AtByteEnd d → (transferStep d a s).phase = .data ∧ (transferStep d a s).idx = s.idx) ∧
    (s.AtByteEnd d → d = .write → (transferStep d a s).ackl = .nack →
      (transferStep d a s).phase = .stop ∧ (transferStep d a s).idx = s.idx) ∧
    (s.AtByteEnd d → (d = .read ∨ (transferStep d a s).ackl = .ack) → s.idx + 1 = s.len →
      (transferStep d a s).phase = .stop) ∧
    (s.AtByteEnd d → (d = .read ∨ (transferStep d a s).ackl = .ack) → s.idx + 1 < s.len →
      (transferStep d a s).phase = .data ∧ (transferStep d a s).idx = s.idx + 1 ∧ (transferStep d a s).ustep = 0#3 ∧
        (transferStep d a s).bitcnt = (match (generalizing := false) d with
          | .write => 0#4
          | .read => 15#4)) := by
  obtain ⟨-, u, F, ⟨hmid, k', u', ht⟩ | ⟨hend, ht⟩⟩ := transferStep_data a p hl
  · rw [ht]
    exact ⟨fun _ => ⟨F.phase.trans p, F.idx⟩, fun h => absurd h hmid, fun h => absurd h hmid, fun h => absurd h hmid⟩
  · rw [ht, (kept_afterData d u).ackl]
    refine ⟨fun h => absurd hend h, ?_⟩
    rcases afterData_cases d u with ⟨rfl, hnack, hstop, hidx⟩ | ⟨hgo, hlen, hstop⟩ | ⟨hgo, hlt, hdata, hidx, hpos⟩
    · have hnot := aborted_not_transferred rfl hnack
      exact ⟨fun _ _ _ => ⟨hstop, hidx.trans F.idx⟩, fun _ hgo => absurd hgo hnot, fun _ hgo => absurd hgo hnot⟩
    · rw [F.len, F.idx] at hlen
      exact ⟨fun _ hw hn => absurd hgo (aborted_not_transferred hw hn), fun _ _ _ => hstop, fun _ _ hlt => by omega⟩
    · rw [F.len, F.idx] at hlt
      exact ⟨fun _ hw hn => absurd hgo (aborted_not_transferred hw hn), fun _ _ heq => by omega,
        fun _ _ _ => ⟨hdata, by rw [hidx, F.idx], hpos⟩⟩

/-- In the DATA phase a legal block is in the transfer `CW` names. -/
theorem State.Inv.data_transfer {s : State} (I : s.Inv) (p : s.phase = .data) {d : Dir} {a : Addr}
    (hcw : transferOf s.cw = some (d, a)) : s.LegalPosition d ∧ Machine.sequencerStep s = transferStep d a s := by
  have hp : s.phase ≠ .idle := by simp [p]
  have hi : s.initAt = .none := by
    by_contra h
    exact hp (I.initIdle h)
  obtain ⟨-, d', a', hcw', hl⟩ := I.transfer hp
  obtain ⟨rfl, -⟩ := Prod.ext_iff.1 (Option.some.inj (hcw.symm.trans hcw'))
  exact ⟨hl, sequencerStep_transfer hi hcw⟩

end Sys2Proof.Machine

open Sys2Proof Sys2Proof.Machine

/-- Settles O47: the registers `HostKept` lists, and the one store a READ makes. -/
theorem busyStepsLeaveTheHostsRegistersAlone : Obligations.BusyStepsLeaveTheHostsRegistersAlone := by
  intro s t I hb h
  obtain rfl := step_next_of_busy hb h
  obtain ⟨hcw, hlen, hhost, hscl, hstatus⟩ := I.hostKept hb
  refine ⟨hcw, hlen, hhost, hscl, hstatus, fun x hx => ?_⟩
  rcases I.sequencerStep_buf hb with hbuf | ⟨p, hread, hi, v, hbuf⟩
  · exact absurd (by rw [hbuf]) hx
  · rw [hbuf, Memory.read_write (lo := 0) I.buf] at hx
    by_cases hxi : x = s.idx
    · exact ⟨hxi, hxi ▸ hi, p, hread⟩
    · rw [if_neg hxi] at hx
      exact absurd rfl hx

/-- Settles O48: a transfer's step by `transferStep_phase` and `transferStep_data_leads`; an INIT stays IDLE. -/
theorem phasesFollowTheStateMachine : Obligations.PhasesFollowTheStateMachine := by
  intro s t I hb h
  obtain rfl := step_next_of_busy hb h
  refine ⟨fun hmove => ?_, fun d a p hcw => ?_⟩
  · rcases I.sequencerStep_cases hb with ⟨-, -, ht⟩ | ⟨-, -, -, ht⟩ | ⟨-, hp, -, d, a, hcw, hl, ht⟩
    · exact absurd (by rw [ht]; rfl) hmove
    · exact absurd (by rw [ht]; rfl) hmove
    · rw [ht] at hmove ⊢
      exact transferStep_phase hp hl hcw hmove
  · obtain ⟨hl, ht⟩ := I.data_transfer p hcw
    rw [ht]
    exact transferStep_data_leads a p hl

end

section
/-! PROOF. How many primitives a command in progress has still to perform (43_public_commands.md R156): O44. -/

namespace Sys2Proof.Machine

/-- The primitives left in `BYTE_OUT` at position `(k, u)`, of 47 (R112). -/
def outLeft (k u : Nat) : Nat := if k ≤ 7 then 47 - (5 * k + u) else 7 - u

/-- The same for `BYTE_IN`, which opens at the marker (R114). -/
def inLeft (k u : Nat) : Nat := if k = 15 then 47 else if k ≤ 7 then 46 - (5 * k + u) else 6 - u

/-- A bound on the primitives left in a transfer: the bytes to come, then the three of `END`. -/
def State.stepsLeft (s : State) (d : Dir) : Nat :=
  match s.phase with
  | .idle => 0
  | .start => 54 + 47 * s.len - s.ustep.toNat
  | .address => outLeft s.bitcnt.toNat s.ustep.toNat + 47 * s.len + 3
  | .data =>
    (match d with
      | .write => outLeft s.bitcnt.toNat s.ustep.toNat
      | .read => inLeft s.bitcnt.toNat s.ustep.toNat) + 47 * (s.len - (s.idx + 1)) + 3
  | .stop => 3 - s.ustep.toNat

theorem toNat_succ {w : Nat} {x : BitVec w} (h : x.toNat + 1 < 2 ^ w) : (x + 1).toNat = x.toNat + 1 := by
  have hw : 1 < 2 ^ w := by omega
  simp [BitVec.toNat_add, Nat.mod_eq_of_lt hw, Nat.mod_eq_of_lt h]

/-- Inside `BYTE_OUT` the position after a primitive is one primitive nearer the end. -/
theorem outLeft_next {k k' : BitVec 4} {u u' : BitVec 3} {sda scl : Drive} (h : OutLines k.toNat u.toNat sda scl)
    (hn : outNext k u = .more k' u') : outLeft k'.toNat u'.toNat + 1 = outLeft k.toNat u.toNat := by
  have hzero : (0 : BitVec 3).toNat = 0 := rfl
  unfold outNext at hn
  rcases h with ⟨hk, hu, -⟩ | ⟨hk, hu, -⟩
  · rw [if_pos hk] at hn
    split at hn <;> obtain ⟨rfl, rfl⟩ := NextPos.more.inj hn
    · rw [toNat_succ (by omega), outLeft, outLeft, if_pos hk, if_pos hk]
      omega
    · rw [toNat_succ (by omega), hzero, outLeft, outLeft, if_pos hk]
      split <;> omega
  · rw [if_neg (by omega)] at hn
    split at hn
    · obtain ⟨rfl, rfl⟩ := NextPos.more.inj hn
      rw [toNat_succ (by omega), outLeft, outLeft, if_neg (by omega), if_neg (by omega)]
      omega
    · cases hn

theorem outLeft_pos {k u : Nat} {sda scl : Drive} (h : OutLines k u sda scl) : 0 < outLeft k u ∧ outLeft k u ≤ 47 := by
  unfold outLeft
  rcases h with ⟨hk, hu, -⟩ | ⟨hk, hu, -⟩ <;> split <;> omega

/-- So it is inside `BYTE_IN`. -/
theorem inLeft_next {last : Bool} {k k' : BitVec 4} {u u' : BitVec 3} {sda scl : Drive}
    (h : InLines last k.toNat u.toNat sda scl) (hn : inNext k u = .more k' u') :
    inLeft k'.toNat u'.toNat + 1 = inLeft k.toNat u.toNat := by
  have mark : k = openingMark ↔ k.toNat = 15 := by simp [openingMark, ← BitVec.toNat_inj]
  have hzero : (0 : BitVec 3).toNat = 0 := rfl
  unfold inNext at hn
  rcases h with ⟨hk, hu, -⟩ | ⟨hk, hu, -⟩ | ⟨hk, hu, -⟩
  · rw [if_pos (mark.2 hk)] at hn
    obtain ⟨rfl, rfl⟩ := NextPos.more.inj hn
    rw [hk]
    rfl
  · rw [if_neg (by rw [mark]; omega), if_pos hk] at hn
    split at hn <;> obtain ⟨rfl, rfl⟩ := NextPos.more.inj hn
    · rw [toNat_succ (by omega), inLeft, inLeft, if_neg (by omega), if_pos hk, if_neg (by omega), if_pos hk]
      omega
    · rw [toNat_succ (by omega), hzero, inLeft, inLeft, if_neg (by omega), if_neg (show ¬ k.toNat = 15 by omega),
        if_pos hk]
      split <;> omega
  · rw [if_neg (by rw [mark]; omega), if_neg (by omega)] at hn
    split at hn
    · obtain ⟨rfl, rfl⟩ := NextPos.more.inj hn
      rw [toNat_succ (by omega), inLeft, inLeft, if_neg (by omega), if_neg (by omega), if_neg (by omega),
        if_neg (by omega)]
      omega
    · cases hn

theorem inLeft_pos {last : Bool} {k u : Nat} {sda scl : Drive} (h : InLines last k u sda scl) :
    0 < inLeft k u ∧ inLeft k u ≤ 47 := by
  unfold inLeft
  rcases h with ⟨hk, -⟩ | ⟨hk, hu, -⟩ | ⟨hk, hu, -⟩
  · rw [if_pos hk]; omega
  · rw [if_neg (by omega), if_pos hk]; omega
  · rw [if_neg (by omega), if_neg (by omega)]; omega

/-- A framing step of `n` primitives goes on to its next one. -/
theorem framingNext_more {n : Nat} {k k' : BitVec 4} {u u' : BitVec 3} (hn : framingNext n k u = .more k' u')
    (h8 : n ≤ 8) : u'.toNat = u.toNat + 1 ∧ u.toNat + 1 < n := by
  unfold framingNext at hn
  split at hn
  · next hu =>
    obtain ⟨-, rfl⟩ := NextPos.more.inj hn
    exact ⟨toNat_succ (by omega), hu⟩
  · cases hn

/-! ### The bound at each phase -/

theorem stepsLeft_start {s : State} (p : s.phase = .start) (d : Dir) :
    s.stepsLeft d = 54 + 47 * s.len - s.ustep.toNat := by simp [State.stepsLeft, p]

theorem stepsLeft_address {s : State} (p : s.phase = .address) (d : Dir) :
    s.stepsLeft d = outLeft s.bitcnt.toNat s.ustep.toNat + 47 * s.len + 3 := by simp [State.stepsLeft, p]

theorem stepsLeft_dataWrite {s : State} (p : s.phase = .data) :
    s.stepsLeft .write = outLeft s.bitcnt.toNat s.ustep.toNat + 47 * (s.len - (s.idx + 1)) + 3 := by
  simp [State.stepsLeft, p]

theorem stepsLeft_dataRead {s : State} (p : s.phase = .data) :
    s.stepsLeft .read = inLeft s.bitcnt.toNat s.ustep.toNat + 47 * (s.len - (s.idx + 1)) + 3 := by
  simp [State.stepsLeft, p]

theorem stepsLeft_stop {s : State} (p : s.phase = .stop) (d : Dir) : s.stepsLeft d = 3 - s.ustep.toNat := by
  simp [State.stepsLeft, p]

theorem stepsLeft_idle {s : State} (p : s.phase = .idle) (d : Dir) : s.stepsLeft d = 0 := by
  simp [State.stepsLeft, p]

/-- At the first position of a data byte that byte and those after it are left. -/
theorem stepsLeft_enterData (d : Dir) (s : State) :
    (enterData d s).stepsLeft d = 47 + 47 * (s.len - (s.idx + 1)) + 3 := by
  cases d <;> rfl

theorem stepsLeft_enterStop (d : Dir) (s : State) : (enterStop s).stepsLeft d = 3 := rfl

theorem stepsLeft_nextByte_le (d : Dir) (s : State) : (nextByte d s).stepsLeft d ≤ 47 * (s.len - (s.idx + 1)) + 3 := by
  by_cases h : s.idx + 1 < s.len
  · have hleft : (nextByte d s).stepsLeft d = 47 + 47 * (s.len - (s.idx + 1 + 1)) + 3 := by
      rw [nextByte_more d h, stepsLeft_enterData]; rfl
    omega
  · rw [nextByte_consumed d h, stepsLeft_enterStop]; omega

theorem stepsLeft_afterData_le (d : Dir) (s : State) :
    (afterData d s).stepsLeft d ≤ 47 * (s.len - (s.idx + 1)) + 3 := by
  cases d with
  | write =>
    cases ha : s.ackl with
    | ack => rw [afterData_write_ack ha]; exact stepsLeft_nextByte_le .write s
    | nack => rw [afterData_write_nack ha, stepsLeft_enterStop]; omega
  | read => exact stepsLeft_nextByte_le .read s.storeByte

theorem stepsLeft_afterAddress_le (d : Dir) (s : State) : (afterAddress d s).stepsLeft d ≤ 47 * s.len + 3 := by
  unfold afterAddress
  split
  · rw [stepsLeft_enterStop]; omega
  · simp only
    split
    · next hlen =>
      have hlen' : 0 < s.len := hlen
      have hleft : (enterData d (s.setIdx 0)).stepsLeft d = 47 + 47 * (s.len - (0 + 1)) + 3 := stepsLeft_enterData d _
      omega
    · rw [stepsLeft_enterStop]; omega

/-- Every step of a transfer is one nearer its end. -/
theorem stepsLeft_transferStep {d : Dir} (a : Addr) {s : State} (hp : s.phase ≠ .idle) (hl : s.LegalPosition d) :
    (transferStep d a s).stepsLeft d < s.stepsLeft d := by
  rcases transferStep_cases a hp hl with ⟨p, lines, u, hu, ht⟩ | ⟨p, lines, u, hu, ht⟩ |
    ⟨p, hi, rfl, lines, u, hu, ht⟩ | ⟨p, hi, rfl, lines, u, hu, ht⟩ | ⟨p, lines, u, hu, ht⟩
  · have F := (startPrimitive_lines (k := s.bitcnt) lines hu).1
    have hu3 : s.ustep.toNat ≤ 3 := by unfold StartLines at lines; omega
    rw [stepsLeft_start p, ht]
    rcases advance_cases (framingNext 4 s.bitcnt s.ustep) (enterPhase .address) u with ⟨k', u', hn, ha⟩ | ⟨-, ha⟩
    · obtain ⟨hnext, -⟩ := framingNext_more hn (by omega)
      rw [ha, stepsLeft_start (s := u.setPos k' u') (F.phase.trans p), State.setPos_ustep, hnext, State.setPos_len, F.len]
      omega
    · have hleft : (enterPhase .address u).stepsLeft d = 47 + 47 * u.len + 3 := rfl
      rw [ha, hleft, F.len]
      omega
  · have F := (outPrimitive_lines lines hu).1
    obtain ⟨hpos, -⟩ := outLeft_pos lines
    rw [stepsLeft_address p, ht]
    rcases advance_cases (outNext s.bitcnt s.ustep) (afterAddress d) u with ⟨k', u', hn, ha⟩ | ⟨-, ha⟩
    · have hnext := outLeft_next lines hn
      rw [ha, stepsLeft_address (s := u.setPos k' u') (F.phase.trans p), State.setPos_bitcnt, State.setPos_ustep,
        State.setPos_len, F.len]
      omega
    · have hle := stepsLeft_afterAddress_le d u
      rw [F.len] at hle
      rw [ha]
      omega
  · have F := (outPrimitive_lines lines hu).1
    obtain ⟨hpos, -⟩ := outLeft_pos lines
    rw [stepsLeft_dataWrite p, ht]
    rcases advance_cases (outNext s.bitcnt s.ustep) (afterData .write) u with ⟨k', u', hn, ha⟩ | ⟨-, ha⟩
    · have hnext := outLeft_next lines hn
      rw [ha, stepsLeft_dataWrite (s := u.setPos k' u') (F.phase.trans p), State.setPos_bitcnt, State.setPos_ustep,
        State.setPos_len, State.setPos_idx, F.len, F.idx]
      omega
    · have hle := stepsLeft_afterData_le .write u
      rw [F.len, F.idx] at hle
      rw [ha]
      omega
  · have F := (inPrimitive_lines lines hu).1
    obtain ⟨hpos, -⟩ := inLeft_pos lines
    rw [stepsLeft_dataRead p, ht]
    rcases advance_cases (inNext s.bitcnt s.ustep) (afterData .read) u with ⟨k', u', hn, ha⟩ | ⟨-, ha⟩
    · have hnext := inLeft_next lines hn
      rw [ha, stepsLeft_dataRead (s := u.setPos k' u') (F.phase.trans p), State.setPos_bitcnt, State.setPos_ustep,
        State.setPos_len, State.setPos_idx, F.len, F.idx]
      omega
    · have hle := stepsLeft_afterData_le .read u
      rw [F.len, F.idx] at hle
      rw [ha]
      omega
  · have F := (stopPrimitive_lines (k := s.bitcnt) lines hu).1
    have hu2 : s.ustep.toNat ≤ 2 := by unfold StopLines at lines; omega
    rw [stepsLeft_stop p, ht]
    rcases advance_cases (framingNext 3 s.bitcnt s.ustep) (afterStop d) u with ⟨k', u', hn, ha⟩ | ⟨-, ha⟩
    · obtain ⟨hnext, -⟩ := framingNext_more hn (by omega)
      rw [ha, stepsLeft_stop (s := u.setPos k' u') (F.phase.trans p), State.setPos_ustep, hnext]
      omega
    · rw [ha, stepsLeft_idle rfl]
      omega

/-- No transfer has more than `54 + 47 LEN` primitives left. -/
theorem stepsLeft_le {d : Dir} {s : State} (hp : s.phase ≠ .idle) (hl : s.LegalPosition d) :
    s.stepsLeft d ≤ 54 + 47 * s.len := by
  cases p : s.phase with
  | idle => exact absurd p hp
  | start => rw [stepsLeft_start p]; omega
  | address =>
    simp only [State.LegalPosition, p] at hl
    obtain ⟨-, hle⟩ := outLeft_pos hl
    rw [stepsLeft_address p]
    omega
  | data =>
    simp only [State.LegalPosition, p] at hl
    obtain ⟨hi, hl⟩ := hl
    cases d with
    | write =>
      obtain ⟨-, hle⟩ := outLeft_pos hl
      rw [stepsLeft_dataWrite p]
      omega
    | read =>
      obtain ⟨-, hle⟩ := inLeft_pos hl
      rw [stepsLeft_dataRead p]
      omega
  | stop => rw [stepsLeft_stop p]; omega

/-- The primitives left in the command in progress: of an INIT, or of the transfer `CW` names. -/
def State.remaining (s : State) : Nat :=
  match s.initAt with
  | .sdaRel => 2
  | .sclRel => 1
  | .none =>
    match transferOf s.cw with
    | none => 0
    | some (d, _) => s.stepsLeft d

theorem remaining_transfer {s : State} {d : Dir} {a : Addr} (hi : s.initAt = .none)
    (hcw : transferOf s.cw = some (d, a)) : s.remaining = s.stepsLeft d := by
  simp [State.remaining, hi, hcw]

theorem remaining_idle {s : State} (hi : s.initAt = .none) (hp : s.phase = .idle) : s.remaining = 0 := by
  cases hcw : transferOf s.cw with
  | none => simp [State.remaining, hi, hcw]
  | some da => rw [remaining_transfer (d := da.1) (a := da.2) hi hcw, stepsLeft_idle hp]

/-- Each step of a legal busy master is nearer the end, and the one that ends the command leaves the block
initialised. -/
theorem State.Inv.remaining_sequencerStep {s : State} (I : s.Inv) (hb : s.busy = true) :
    (Machine.sequencerStep s).remaining < s.remaining ∧
    ((Machine.sequencerStep s).busy = false → (Machine.sequencerStep s).inited = true) := by
  rcases I.sequencerStep_cases hb with ⟨hi, -, ht⟩ | ⟨hi, hp, -, ht⟩ | ⟨hi, hp, hn, d, a, hcw, hl, ht⟩
  · rw [ht]
    refine ⟨by simp [State.remaining, hi], fun h => ?_⟩
    rw [State.setInitAt_busy, sdaRel_eq, hb] at h
    cases h
  · rw [ht]
    have hleft : (finishInit (sclRel s)).remaining = 0 := remaining_idle rfl hp
    refine ⟨?_, fun _ => rfl⟩
    rw [hleft, State.remaining, hi]
    exact Nat.one_pos
  · rw [ht, remaining_transfer hi hcw]
    have hlt := stepsLeft_transferStep a hp hl
    rcases transferStep_moves_or_ends a hp hl with ⟨F, -, -, -⟩ | E
    · rw [remaining_transfer (F.initAt.trans hi) (by rw [F.cw]; exact hcw)]
      exact ⟨hlt, fun _ => F.inited.trans hn⟩
    · rw [remaining_transfer (E.initAt.trans hi) (by rw [E.cw]; exact hcw)]
      exact ⟨hlt, fun _ => E.inited.trans hn⟩

theorem State.Inv.remaining_le {s : State} (I : s.Inv) (hb : s.busy = true) : s.remaining ≤ 54 + 47 * s.len := by
  rcases I.sequencerStep_cases hb with ⟨hi, -⟩ | ⟨hi, -⟩ | ⟨hi, hp, -, d, a, hcw, hl, -⟩
  · simp [State.remaining, hi]; omega
  · simp [State.remaining, hi]; omega
  · rw [remaining_transfer hi hcw]
    exact stepsLeft_le hp hl

/-- A legal busy master under a passive host is idle again after at most the primitives left. -/
theorem State.Inv.run_to_idle {n : Nat} {s : State} (I : s.Inv) (hb : s.busy = true) (hh : s.host = [])
    (hn : s.remaining ≤ n) :
    ∃ m t, m ≤ n ∧ core.run m s = .next t ∧ t.Inv ∧ t.busy = false ∧ t.inited = true := by
  induction n generalizing s with
  | zero =>
    obtain ⟨hlt, -⟩ := I.remaining_sequencerStep hb
    omega
  | succ n ih =>
    obtain ⟨hlt, hinited⟩ := I.remaining_sequencerStep hb
    have I' := I.sequencerStep hb
    cases hb' : (Machine.sequencerStep s).busy with
    | false => exact ⟨1, _, by omega, by rw [run_succ (step_busy hh hb), run_zero], I', hb', hinited hb'⟩
    | true =>
      obtain ⟨m, t, hm, hrun, hfinal⟩ := ih I' hb' ((I.hostKept hb).host.trans hh) (by omega)
      exact ⟨m + 1, t, by omega, by rw [run_succ (step_busy hh hb), hrun], hfinal⟩

end Sys2Proof.Machine

open Sys2Proof Sys2Proof.Machine

/-- Settles O44: every step is one nearer the end, from at most `54 + 47 LEN`. -/
theorem everyCommandTerminates : Obligations.EveryCommandTerminates := by
  intro s I hb hh
  obtain ⟨m, t, hm, hrun, I', hb', hinited⟩ := I.run_to_idle hb hh (I.remaining_le hb)
  exact ⟨m, t, hm, hrun, hb', (I'.not_in_progress hb').1, I'.idle hb' hinited⟩

end

section
/-! PROOF. A busy master steps through the tables of R112, R114, R130 and R131 as the byte engine and framing run
(43_public_commands.md R154). A state is written here as `x.setPos k u`, the position after the registers. -/

namespace Sys2Proof.Machine

/-- `n` steps lead from `s` to `t`. -/
def RunsTo (n : Nat) (s t : State) : Prop := core.run n s = .next t

theorem RunsTo.of_step {s t : State} (h : step s = .next t) : RunsTo 1 s t := run_succ h 0

theorem RunsTo.trans {m n : Nat} {s t u : State} (h : RunsTo m s t) (g : RunsTo n t u) : RunsTo (m + n) s u := by
  induction m generalizing s with
  | zero =>
    obtain rfl := Host.Outcome.next.inj h
    rwa [Nat.zero_add]
  | succ m ih =>
    cases hs : step s with
    | next s' =>
      have hrest : RunsTo m s' t := (run_succ hs m).symm.trans h
      rw [Nat.succ_add]
      exact (run_succ hs (m + n)).trans (ih hrest)
    | fault f => cases f
    | refused e =>
      have hstop : core.run (m + 1) s = .refused e := by
        have hcore : core.step s = .refused e := hs
        simp [Host.Core.run, hcore]
      cases hstop.symm.trans h

/-! ### The position is no register of the byte engine -/

theorem putSda_setPos (b : Bool) (x : State) (k : BitVec 4) (u : BitVec 3) :
    putSda b (x.setPos k u) = (putSda b x).setPos k u := by
  cases b <;> rfl

theorem sdaSample_setPos (x : State) (k : BitVec 4) (u : BitVec 3) :
    sdaSample (x.setPos k u) = (sdaSample x).setPos k u := by
  cases h : x.sdaO
  · rw [sdaSample_asserted h, sdaSample_asserted (s := x.setPos k u) h]; rfl
  · rw [sdaSample_released h, sdaSample_released (s := x.setPos k u) h]; rfl

theorem latchAck_setPos (x : State) (k : BitVec 4) (u : BitVec 3) :
    latchAck (x.setPos k u) = (latchAck x).setPos k u := by
  rw [latchAck, sdaSample_setPos]; rfl

theorem latchBit_setPos (x : State) (k : BitVec 4) (u : BitVec 3) :
    latchBit (x.setPos k u) = (latchBit x).setPos k u := by
  rw [latchBit, sdaSample_setPos]; rfl

theorem primFrame_setPos (x : State) (k : BitVec 4) (u : BitVec 3) : PrimFrame x (x.setPos k u) := by constructor <;> rfl
theorem primFrame_setShreg (x : State) (b : Byte) : PrimFrame x (x.setShreg b) := by constructor <;> rfl
theorem primFrame_sdaLow (x : State) : PrimFrame x (sdaLow x) := by constructor <;> rfl
theorem primFrame_sdaRel (x : State) : PrimFrame x (sdaRel x) := by constructor <;> rfl
theorem primFrame_sclLow (x : State) : PrimFrame x (sclLow x) := by constructor <;> rfl
theorem primFrame_sclRel (x : State) : PrimFrame x (sclRel x) := by constructor <;> rfl
theorem primFrame_delay (x : State) : PrimFrame x (delay x) := by constructor <;> rfl

/-! ### Stepping along a table -/

/-- From `s` and from every state that differs from it by primitives only, a step performs the primitive `prim` gives
at the position and goes where `next` says, or on to `after`. -/
def Follows (prim : BitVec 4 → BitVec 3 → State → Option State) (next : BitVec 4 → BitVec 3 → NextPos)
    (after : State → State) (s : State) : Prop :=
  ∀ x, PrimFrame s x → step x = .next (primitiveStep (prim x.bitcnt x.ustep x) (next x.bitcnt x.ustep) after x)

section
variable {prim : BitVec 4 → BitVec 3 → State → Option State} {next : BitVec 4 → BitVec 3 → NextPos}
  {after f : State → State} {s x : State} {k k' : BitVec 4} {u u' : BitVec 3}

/-- One primitive that is not the operation's last. -/
theorem Follows.hop (F : Follows prim next after s) (hx : PrimFrame s x) (hp : ∀ z, prim k u z = some (f z))
    (hn : next k u = .more k' u') (hf : f (x.setPos k u) = (f x).setPos k u := by rfl) :
    RunsTo 1 (x.setPos k u) ((f x).setPos k' u') := by
  refine .of_step ((F _ (hx.trans (primFrame_setPos x k u))).trans ?_)
  rw [State.setPos_bitcnt, State.setPos_ustep, hp, hn, hf]
  rfl

/-- The last primitive. -/
theorem Follows.last (F : Follows prim next after s) (hx : PrimFrame s x) (hp : ∀ z, prim k u z = some (f z))
    (hn : next k u = .done) (hf : f (x.setPos k u) = (f x).setPos k u := by rfl) :
    RunsTo 1 (x.setPos k u) (after ((f x).setPos k u)) := by
  refine .of_step ((F _ (hx.trans (primFrame_setPos x k u))).trans ?_)
  rw [State.setPos_bitcnt, State.setPos_ustep, hp, hn, hf]
  rfl

end

/-! ### `BYTE_OUT` -/

/-- The first primitive of a data cell: `SHREG` loaded at bit 0 and the bit placed (R112). -/
def placeBit (b : Byte) (k : BitVec 4) (x : State) : State := putSda (loadFirst b k x).shreg.msb (loadFirst b k x)

theorem placeBit_setPos (b : Byte) (k : BitVec 4) (x : State) (k' : BitVec 4) (u' : BitVec 3) :
    placeBit b k (x.setPos k' u') = (placeBit b k x).setPos k' u' := by
  have hload : loadFirst b k (x.setPos k' u') = (loadFirst b k x).setPos k' u' := by
    unfold loadFirst
    split <;> rfl
  rw [placeBit, hload, putSda_setPos]
  rfl

theorem primFrame_placeBit (b : Byte) (k : BitVec 4) (x : State) : PrimFrame x (placeBit b k x) :=
  (loadFirst_frame b k x).1.trans (primFrame_putSda _ _)

/-- The fourth: the clock falls and `SHREG` is shifted. -/
def fallAndShift (x : State) : State := (sclLow x).setShreg (shiftOut x.shreg)

theorem primFrame_fallAndShift (x : State) : PrimFrame x (fallAndShift x) :=
  (primFrame_sclLow x).trans (primFrame_setShreg _ _)

theorem primFrame_outCell (x : State) : PrimFrame x (outCell x) := by
  rw [outCell_eq]; constructor <;> rfl

section
variable {b : Byte} {after : State → State} {s x : State}

/-- Five steps are a data cell. -/
theorem Follows.outCell (F : Follows (outPrimitive b) outNext after s) (hx : PrimFrame s x) {k : BitVec 4}
    (hk : k.toNat ≤ 7) : RunsTo 5 (x.setPos k 0) ((outCell (loadFirst b k x)).setPos (k + 1) 0) := by
  have place := F.hop (k := k) (u := 0) (k' := k) (u' := 1) (f := placeBit b k) hx
    (fun _ => by simp [outPrimitive, hk, placeBit, loadFirst]) (by simp [outNext, hk]) (placeBit_setPos ..)
  have hx1 := hx.trans (primFrame_placeBit b k x)
  have rel := F.hop (k := k) (u := 1) (k' := k) (u' := 2) (f := sclRel) hx1
    (fun _ => by simp [outPrimitive, hk]) (by simp [outNext, hk])
  have hx2 := hx1.trans (primFrame_sclRel _)
  have high := F.hop (k := k) (u := 2) (k' := k) (u' := 3) (f := delay) hx2
    (fun _ => by simp [outPrimitive, hk]) (by simp [outNext, hk])
  have hx3 := hx2.trans (primFrame_delay _)
  have fall := F.hop (k := k) (u := 3) (k' := k) (u' := 4) (f := fallAndShift) hx3
    (fun _ => by simp [outPrimitive, hk, fallAndShift]) (by simp [outNext, hk])
  have hx4 := hx3.trans (primFrame_fallAndShift _)
  have low := F.hop (k := k) (u := 4) (k' := k + 1) (u' := 0) (f := delay) hx4
    (fun _ => by simp [outPrimitive, hk]) (by simp [outNext, hk])
  exact (((place.trans rel).trans high).trans fall).trans low

/-- Seven steps are the acknowledgment cell, the last of which leads on. -/
theorem Follows.outAckCell (F : Follows (outPrimitive b) outNext after s) (hx : PrimFrame s x) :
    RunsTo 7 (x.setPos 8#4 0) (after ((outAckCell x).setPos 8#4 6#3)) := by
  have release := F.hop (k := 8#4) (u := 0) (k' := 8#4) (u' := 1) (f := sdaRel) hx (fun _ => rfl) rfl
  have hx1 := hx.trans (primFrame_sdaRel _)
  have rel := F.hop (k := 8#4) (u := 1) (k' := 8#4) (u' := 2) (f := sclRel) hx1 (fun _ => rfl) rfl
  have hx2 := hx1.trans (primFrame_sclRel _)
  have high := F.hop (k := 8#4) (u := 2) (k' := 8#4) (u' := 3) (f := delay) hx2 (fun _ => rfl) rfl
  have hx3 := hx2.trans (primFrame_delay _)
  have sample := F.hop (k := 8#4) (u := 3) (k' := 8#4) (u' := 4) (f := latchAck) hx3 (fun _ => rfl) rfl
    (latchAck_setPos ..)
  have hx4 := hx3.trans (primFrame_latchAck _)
  have fall := F.hop (k := 8#4) (u := 4) (k' := 8#4) (u' := 5) (f := sclLow) hx4 (fun _ => rfl) rfl
  have hx5 := hx4.trans (primFrame_sclLow _)
  have hold := F.hop (k := 8#4) (u := 5) (k' := 8#4) (u' := 6) (f := sdaLow) hx5 (fun _ => rfl) rfl
  have hx6 := hx5.trans (primFrame_sdaLow _)
  have low := F.last (k := 8#4) (u := 6) (f := delay) hx6 (fun _ => rfl) rfl
  exact (((((release.trans rel).trans high).trans sample).trans fall).trans hold).trans low

/-- The data cells from bit `k` on, the first excepted. -/
theorem Follows.outCells (F : Follows (outPrimitive b) outNext after s) (hx : PrimFrame s x) (n : Nat) {k : BitVec 4}
    (hk : 1 ≤ k.toNat) (hn : k.toNat + n = 8) :
    PrimFrame s (repeatCell Machine.outCell n x) ∧
    RunsTo (5 * n) (x.setPos k 0) ((repeatCell Machine.outCell n x).setPos 8#4 0) := by
  induction n generalizing x k with
  | zero =>
    obtain rfl : k = 8#4 := BitVec.eq_of_toNat_eq hn
    exact ⟨hx, rfl⟩
  | succ n ih =>
    have hload : loadFirst b k x = x := if_neg (by omega)
    have cell := F.outCell hx (k := k) (by omega)
    rw [hload] at cell
    have hsucc : (k + 1).toNat = k.toNat + 1 := toNat_succ (by omega)
    obtain ⟨hframe, rest⟩ := ih (hx.trans (primFrame_outCell x)) (k := k + 1) (by omega) (by omega)
    have both := cell.trans rest
    rw [show 5 + 5 * n = 5 * (n + 1) by omega] at both
    exact ⟨hframe, both⟩

/-- 47 steps are `BYTE_OUT`. -/
theorem Follows.byteOut (F : Follows (outPrimitive b) outNext after s) (hx : PrimFrame s x)
    (hafter : ∀ y k u, after (y.setPos k u) = after y) : RunsTo 47 (x.setPos 0 0) (after (byteOut b x)) := by
  have first := F.outCell hx (k := 0) (by simp)
  have hload : loadFirst b 0 x = x.setShreg b := rfl
  rw [hload] at first
  have hx1 := hx.trans ((primFrame_setShreg x b).trans (primFrame_outCell _))
  obtain ⟨hx8, rest⟩ := F.outCells hx1 7 (k := 0 + 1) (by simp) (by simp)
  have ack := F.outAckCell hx8
  rw [hafter] at ack
  rw [Machine.byteOut, hafter]
  exact (first.trans rest).trans ack

end

/-! ### `BYTE_IN` -/

theorem primFrame_inCell (x : State) : PrimFrame x (inCell x) := by
  have h := (((primFrame_delay x).trans (primFrame_sclRel _)).trans (primFrame_latchBit _)).trans
    ((primFrame_delay _).trans (primFrame_sclLow _))
  exact h

section
variable {last : Bool} {after : State → State} {s x : State}

/-- Five steps are a data cell. -/
theorem Follows.inCell (F : Follows (inPrimitive last) inNext after s) (hx : PrimFrame s x) {k : BitVec 4}
    (hk : k.toNat ≤ 7) : RunsTo 5 (x.setPos k 0) ((inCell x).setPos (k + 1) 0) := by
  have hmark : k ≠ openingMark := by rintro rfl; simp [openingMark] at hk
  have low := F.hop (k := k) (u := 0) (k' := k) (u' := 1) (f := delay) hx
    (fun _ => by simp [inPrimitive, hk, hmark]) (by simp [inNext, hk, hmark])
  have hx1 := hx.trans (primFrame_delay _)
  have rel := F.hop (k := k) (u := 1) (k' := k) (u' := 2) (f := sclRel) hx1
    (fun _ => by simp [inPrimitive, hk, hmark]) (by simp [inNext, hk, hmark])
  have hx2 := hx1.trans (primFrame_sclRel _)
  have sample := F.hop (k := k) (u := 2) (k' := k) (u' := 3) (f := latchBit) hx2
    (fun _ => by simp [inPrimitive, hk, hmark]) (by simp [inNext, hk, hmark]) (latchBit_setPos ..)
  have hx3 := hx2.trans (primFrame_latchBit _)
  have high := F.hop (k := k) (u := 3) (k' := k) (u' := 4) (f := delay) hx3
    (fun _ => by simp [inPrimitive, hk, hmark]) (by simp [inNext, hk, hmark])
  have hx4 := hx3.trans (primFrame_delay _)
  have fall := F.hop (k := k) (u := 4) (k' := k + 1) (u' := 0) (f := sclLow) hx4
    (fun _ => by simp [inPrimitive, hk, hmark]) (by simp [inNext, hk, hmark])
  exact (((low.trans rel).trans sample).trans high).trans fall

/-- The data cells from bit `k` on. -/
theorem Follows.inCells (F : Follows (inPrimitive last) inNext after s) (hx : PrimFrame s x) (n : Nat) {k : BitVec 4}
    (hn : k.toNat + n = 8) :
    PrimFrame s (repeatCell Machine.inCell n x) ∧
    RunsTo (5 * n) (x.setPos k 0) ((repeatCell Machine.inCell n x).setPos 8#4 0) := by
  induction n generalizing x k with
  | zero =>
    obtain rfl : k = 8#4 := BitVec.eq_of_toNat_eq hn
    exact ⟨hx, rfl⟩
  | succ n ih =>
    have cell := F.inCell hx (k := k) (by omega)
    have hsucc : (k + 1).toNat = k.toNat + 1 := toNat_succ (by omega)
    obtain ⟨hframe, rest⟩ := ih (hx.trans (primFrame_inCell x)) (k := k + 1) (by omega)
    have both := cell.trans rest
    rw [show 5 + 5 * n = 5 * (n + 1) by omega] at both
    exact ⟨hframe, both⟩

/-- Six steps are the acknowledgment cell the master drives, the last of which leads on. -/
theorem Follows.inAckCell (F : Follows (inPrimitive last) inNext after s) (hx : PrimFrame s x) :
    RunsTo 6 (x.setPos 8#4 0) (after ((inAckCell last x).setPos 8#4 5#3)) := by
  have put := F.hop (k := 8#4) (u := 0) (k' := 8#4) (u' := 1) (f := putSda last) hx (fun _ => rfl) rfl
    (putSda_setPos ..)
  have hx1 := hx.trans (primFrame_putSda last _)
  have rel := F.hop (k := 8#4) (u := 1) (k' := 8#4) (u' := 2) (f := sclRel) hx1 (fun _ => rfl) rfl
  have hx2 := hx1.trans (primFrame_sclRel _)
  have high := F.hop (k := 8#4) (u := 2) (k' := 8#4) (u' := 3) (f := delay) hx2 (fun _ => rfl) rfl
  have hx3 := hx2.trans (primFrame_delay _)
  have fall := F.hop (k := 8#4) (u := 3) (k' := 8#4) (u' := 4) (f := sclLow) hx3 (fun _ => rfl) rfl
  have hx4 := hx3.trans (primFrame_sclLow _)
  have hold := F.hop (k := 8#4) (u := 4) (k' := 8#4) (u' := 5) (f := sdaLow) hx4 (fun _ => rfl) rfl
  have hx5 := hx4.trans (primFrame_sdaLow _)
  have low := F.last (k := 8#4) (u := 5) (f := delay) hx5 (fun _ => rfl) rfl
  exact ((((put.trans rel).trans high).trans fall).trans hold).trans low

/-- 47 steps are `BYTE_IN`. -/
theorem Follows.byteIn (F : Follows (inPrimitive last) inNext after s) (hx : PrimFrame s x)
    (hafter : ∀ y k u, after (y.setPos k u) = after y) :
    RunsTo 47 (x.setPos openingMark 0) (after (byteIn last x)) := by
  have opening := F.hop (k := openingMark) (u := 0) (k' := 0) (u' := 0) (f := fun z => (sdaRel z).setShreg 0) hx
    (fun _ => rfl) rfl
  have hx1 := hx.trans ((primFrame_sdaRel x).trans (primFrame_setShreg _ 0))
  obtain ⟨hx8, cells⟩ := F.inCells hx1 8 (k := 0) rfl
  have ack := F.inAckCell hx8
  rw [hafter] at ack
  rw [Machine.byteIn, hafter]
  exact (opening.trans cells).trans ack

end

/-! ### START and STOP -/

section
variable {after : State → State} {s x : State}

/-- Four steps are the start condition. -/
theorem Follows.startCond {k : BitVec 4} (F : Follows (fun _ => startPrimitive) (framingNext 4) after s)
    (hx : PrimFrame s x) : RunsTo 4 (x.setPos k 0) (after ((startCond x).setPos k 3#3)) := by
  have fall := F.hop (k := k) (u := 0) (k' := k) (u' := 1) (f := sdaLow) hx (fun _ => rfl) rfl
  have hx1 := hx.trans (primFrame_sdaLow _)
  have hold := F.hop (k := k) (u := 1) (k' := k) (u' := 2) (f := delay) hx1 (fun _ => rfl) rfl
  have hx2 := hx1.trans (primFrame_delay _)
  have clock := F.hop (k := k) (u := 2) (k' := k) (u' := 3) (f := sclLow) hx2 (fun _ => rfl) rfl
  have hx3 := hx2.trans (primFrame_sclLow _)
  have low := F.last (k := k) (u := 3) (f := delay) hx3 (fun _ => rfl) rfl
  exact ((fall.trans hold).trans clock).trans low

/-- Three steps are the stop condition. -/
theorem Follows.stopCond {k : BitVec 4} (F : Follows (fun _ => stopPrimitive) (framingNext 3) after s)
    (hx : PrimFrame s x) : RunsTo 3 (x.setPos k 0) (after ((stopCond x).setPos k 2#3)) := by
  have rise := F.hop (k := k) (u := 0) (k' := k) (u' := 1) (f := sclRel) hx (fun _ => rfl) rfl
  have hx1 := hx.trans (primFrame_sclRel _)
  have hold := F.hop (k := k) (u := 1) (k' := k) (u' := 2) (f := delay) hx1 (fun _ => rfl) rfl
  have hx2 := hx1.trans (primFrame_delay _)
  have release := F.last (k := k) (u := 2) (f := sdaRel) hx2 (fun _ => rfl) rfl
  exact (rise.trans hold).trans release

end

end Sys2Proof.Machine
end

section
/-! PROOF. The phases of a transfer stepped one primitive at a time (43_public_commands.md R153, R154). `inPhase` writes
a transfer in progress over the state its one-step form goes through. -/

namespace Sys2Proof.Machine

/-- The state of the one-step form, as it stands in phase `p` of a transfer in progress. -/
def State.inPhase (s : State) (p : Phase) : State := { s with phase := p, busy := true }

/-- A transfer that runs under a passive host. -/
structure Running (d : Dir) (a : Addr) (s : State) : Prop where
  host : s.host = []
  initAt : s.initAt = .none
  cw : transferOf s.cw = some (d, a)

theorem Running.of_writeFrame {d : Dir} {a : Addr} {s t : State} (R : Running d a s) (F : WriteFrame s t) : Running d a t :=
  ⟨F.host.trans R.host, F.initAt.trans R.initAt, by rw [F.cw]; exact R.cw⟩

theorem Running.step {d : Dir} {a : Addr} {s x : State} {p : Phase} (R : Running d a s)
    (hx : PrimFrame (s.inPhase p) x) : Machine.step x = .next (transferStep d a x) := by
  rw [step_busy (hx.host.trans R.host) hx.busy]
  rw [sequencerStep_transfer (hx.initAt.trans R.initAt) (by rw [hx.cw]; exact R.cw)]

section
variable {d : Dir} {a : Addr} {s : State}

theorem Running.follows_start (R : Running d a s) :
    Follows (fun _ => startPrimitive) (framingNext 4) (enterPhase .address) (s.inPhase .start) :=
  fun _ hx => by rw [R.step hx, transferStep_start hx.phase]

theorem Running.follows_address (R : Running d a s) :
    Follows (outPrimitive (addressByte a d)) outNext (afterAddress d) (s.inPhase .address) :=
  fun _ hx => by rw [R.step hx, transferStep_address hx.phase]

theorem Running.follows_dataWrite (R : Running .write a s) (hi : s.idx < s.len) :
    Follows (outPrimitive s.bufByte) outNext (afterData .write) (s.inPhase .data) := by
  intro x hx
  have hbyte : x.bufByte = s.bufByte := by
    unfold State.bufByte
    rw [hx.buf, hx.idx]
    rfl
  have hxi : x.idx < x.len := by rw [hx.idx, hx.len]; exact hi
  rw [R.step hx, transferStep_dataWrite hx.phase hxi, hbyte]

theorem Running.follows_dataRead (R : Running .read a s) (hi : s.idx < s.len) :
    Follows (inPrimitive s.isLast) inNext (afterData .read) (s.inPhase .data) := by
  intro x hx
  have hlast : x.isLast = s.isLast := hx.isLast
  have hxi : x.idx < x.len := by rw [hx.idx, hx.len]; exact hi
  rw [R.step hx, transferStep_dataRead hx.phase hxi, hlast]

theorem Running.follows_stop (R : Running d a s) :
    Follows (fun _ => stopPrimitive) (framingNext 3) (afterStop d) (s.inPhase .stop) :=
  fun _ hx => by rw [R.step hx, transferStep_stop hx.phase]

end

/-! ### What follows an operation does not look at the position -/

theorem enterData_setPos (d : Dir) (x : State) (k : BitVec 4) (u : BitVec 3) : enterData d (x.setPos k u) = enterData d x := by
  cases d <;> rfl

theorem nextByte_setPos (d : Dir) (x : State) (k : BitVec 4) (u : BitVec 3) : nextByte d (x.setPos k u) = nextByte d x := by
  by_cases h : x.idx + 1 < x.len
  · rw [nextByte_more d h, nextByte_more (s := x.setPos k u) d h]
    exact enterData_setPos d (x.setIdx (x.idx + 1)) k u
  · rw [nextByte_consumed d h, nextByte_consumed (s := x.setPos k u) d h]
    rfl

theorem afterAddress_nack {d : Dir} {x : State} (h : x.ackl = .nack) : afterAddress d x = enterStop x := by
  simp [afterAddress, h]

theorem afterAddress_ack {d : Dir} {x : State} (h : x.ackl = .ack) (hlen : 0 < x.len) :
    afterAddress d x = enterData d (x.setIdx 0) := by
  simp [afterAddress, h, hlen]

theorem afterAddress_empty {d : Dir} {x : State} (h : x.ackl = .ack) (hlen : x.len = 0) :
    afterAddress d x = enterStop (x.setIdx 0) := by
  simp [afterAddress, h, hlen]

theorem afterAddress_setPos (d : Dir) (x : State) (k : BitVec 4) (u : BitVec 3) :
    afterAddress d (x.setPos k u) = afterAddress d x := by
  cases h : x.ackl with
  | nack => rw [afterAddress_nack h, afterAddress_nack (x := x.setPos k u) h]; rfl
  | ack =>
    rcases Nat.eq_zero_or_pos x.len with hlen | hlen
    · rw [afterAddress_empty h hlen, afterAddress_empty (x := x.setPos k u) h hlen]; rfl
    · rw [afterAddress_ack h hlen, afterAddress_ack (x := x.setPos k u) h hlen]
      exact enterData_setPos d (x.setIdx 0) k u

theorem afterData_setPos (d : Dir) (x : State) (k : BitVec 4) (u : BitVec 3) :
    afterData d (x.setPos k u) = afterData d x := by
  cases d with
  | write =>
    cases h : x.ackl with
    | ack => rw [afterData_write_ack h, afterData_write_ack (s := x.setPos k u) h, nextByte_setPos]
    | nack => rw [afterData_write_nack h, afterData_write_nack (s := x.setPos k u) h]; rfl
  | read => exact nextByte_setPos .read x.storeByte k u

/-! ### The operations do not look at `PHASE` or `BUSY` -/

theorem byteOut_inPhase (b : Byte) (s : State) (p : Phase) : byteOut b (s.inPhase p) = (byteOut b s).inPhase p := by
  rw [byteOut_eq, byteOut_eq]; rfl

theorem byteAnswers_inPhase (s : State) (p : Phase) : byteAnswers (s.inPhase p) = byteAnswers s := by
  have h (n : Nat) : ∀ x : State, x.sdaO = .rel → inAnswers n (x.inPhase p) = inAnswers n x := by
    induction n with
    | zero => exact fun _ _ => rfl
    | succ n ih =>
      intro x hx
      have hrel : (inCell x).sdaO = .rel := by rw [inCell_eq hx]; exact hx
      have hcell : inCell (x.inPhase p) = (inCell x).inPhase p := by
        rw [inCell_eq hx, inCell_eq (s := x.inPhase p) hx]; rfl
      rw [inAnswers, inAnswers, hcell, ih _ hrel]
      rfl
  exact h 8 ((sdaRel s).setShreg 0) rfl

theorem byteIn_inPhase (last : Bool) (s : State) (p : Phase) : byteIn last (s.inPhase p) = (byteIn last s).inPhase p := by
  rw [byteIn_eq, byteIn_eq, byteAnswers_inPhase]; rfl

/-- The first position of a data byte, over the state of the one-step form. -/
def firstPos (d : Dir) (s : State) : State :=
  match d with
  | .write => (s.inPhase .data).setPos 0 0
  | .read => (s.inPhase .data).setPos openingMark 0

theorem enterData_inPhase (d : Dir) (s : State) (p : Phase) : enterData d (s.inPhase p) = firstPos d s := by
  cases d <;> rfl

/-! ### The phases in turn -/

section
variable {d : Dir} {a : Addr} {s : State}

/-- START and ADDRESS: the 51 primitives of `BEGIN`. -/
theorem Running.beginTx (R : Running d a s) (k : BitVec 4) :
    RunsTo 51 ((s.inPhase .start).setPos k 0) (afterAddress d ((beginTx a d s).inPhase .address)) := by
  have start := R.follows_start.startCond (k := k) (x := s.inPhase .start) (by constructor <;> rfl)
  have R' : Running d a (startCond s) := by rw [startCond_eq]; exact ⟨R.host, R.initAt, R.cw⟩
  have address := R'.follows_address.byteOut (x := (startCond s).inPhase .address) (by constructor <;> rfl)
    (afterAddress_setPos d)
  rw [byteOut_inPhase] at address
  exact start.trans address

/-- STOP: the three primitives of `END`, and the registers of the end. -/
theorem Running.stop (R : Running d a s) :
    RunsTo 3 ((s.inPhase .stop).setPos 0 0) (finishTransfer (statusOf d s) (endTx s)) := by
  have stop := R.follows_stop.stopCond (k := 0) (x := s.inPhase .stop) (by constructor <;> rfl)
  have hend : afterStop d ((stopCond (s.inPhase .stop)).setPos 0 2#3) = finishTransfer (statusOf d s) (endTx s) := by
    cases d <;> rfl
  rwa [hend] at stop

end

/-! ### DATA -/

section
variable {a : Addr} {s : State}

/-- A byte of a WRITE that is not acknowledged leads to STOP. -/
theorem Running.writeByte_nack (R : Running .write a s) (hi : s.idx < s.len) (h : outAnswer s.bufByte s = .high) :
    RunsTo 47 (firstPos .write s) (((byteOut s.bufByte s).inPhase .stop).setPos 0 0) := by
  have byte := (R.follows_dataWrite hi).byteOut (x := s.inPhase .data) (by constructor <;> rfl) (afterData_setPos .write)
  have hackl : ((byteOut s.bufByte s).inPhase .data).ackl = .nack := by rw [byteOut_eq, h]; rfl
  rw [byteOut_inPhase, afterData_write_nack hackl] at byte
  exact byte

/-- One that is acknowledged leads to the next byte. -/
theorem Running.writeByte_ack (R : Running .write a s) (hi : s.idx < s.len) (h : outAnswer s.bufByte s = .low) :
    RunsTo 47 (firstPos .write s) (nextByte .write ((byteOut s.bufByte s).inPhase .data)) := by
  have byte := (R.follows_dataWrite hi).byteOut (x := s.inPhase .data) (by constructor <;> rfl) (afterData_setPos .write)
  have hackl : ((byteOut s.bufByte s).inPhase .data).ackl = .ack := by rw [byteOut_eq, h]; rfl
  rw [byteOut_inPhase, afterData_write_ack hackl] at byte
  exact byte

/-- A byte of a READ leads to the next byte once stored. -/
theorem Running.readByte (R : Running .read a s) (hi : s.idx < s.len) :
    RunsTo 47 (firstPos .read s) (nextByte .read ((byteIn s.isLast s).storeByte.inPhase .data)) := by
  have byte := (R.follows_dataRead hi).byteIn (x := s.inPhase .data) (by constructor <;> rfl) (afterData_setPos .read)
  rw [byteIn_inPhase, afterData_read] at byte
  exact byte

/-- The next byte, or STOP, over the state of the one-step form. -/
theorem nextByte_inPhase_more (d : Dir) {x : State} (h : x.idx + 1 < x.len) :
    nextByte d (x.inPhase .data) = firstPos d (x.setIdx (x.idx + 1)) := by
  rw [nextByte_more (s := x.inPhase .data) d h]
  exact enterData_inPhase d (x.setIdx (x.idx + 1)) .data

theorem nextByte_inPhase_consumed (d : Dir) {x : State} (h : ¬ x.idx + 1 < x.len) :
    nextByte d (x.inPhase .data) = ((x.setIdx (x.idx + 1)).inPhase .stop).setPos 0 0 := by
  rw [nextByte_consumed (s := x.inPhase .data) d h]
  rfl

theorem sentByte_eq_setIdx (s : State) :
    sentByte s = (byteOut s.bufByte s).setIdx ((byteOut s.bufByte s).idx + 1) := by
  rw [sentByte, congrArg State.idx (byteOut_eq s.bufByte s)]

theorem writeFrame_sentByte (s : State) : WriteFrame s (sentByte s) :=
  (writeFrame_byteOut _ s).trans (writeFrame_setIdx _ _)

/-- DATA of a WRITE with `n + 1` bytes left: the loop of the one-step form, to the first position of STOP. -/
theorem Running.writeLoop (n acked : Nat) (R : Running .write a s) (hn : s.idx + (n + 1) = s.len) :
    ∃ m, RunsTo m (firstPos .write s) (((writeLoop (n + 1) acked s).2.inPhase .stop).setPos 0 0) ∧
      TraceGrows m s (writeLoop (n + 1) acked s).2 := by
  induction n generalizing acked s with
  | zero =>
    have hgrow := traceGrows_byteOut s.bufByte s
    rw [writeLoop_succ]
    cases h : outAnswer s.bufByte s with
    | high => exact ⟨47, R.writeByte_nack (by omega) h, hgrow⟩
    | low =>
      have byte := R.writeByte_ack (by omega) h
      rw [nextByte_inPhase_consumed, ← sentByte_eq_setIdx] at byte
      · exact ⟨47, byte, hgrow⟩
      · rw [byteOut_eq]
        show ¬ s.idx + 1 < s.len
        omega
  | succ n ih =>
    have hgrow := traceGrows_byteOut s.bufByte s
    rw [writeLoop_succ]
    cases h : outAnswer s.bufByte s with
    | high => exact ⟨47, R.writeByte_nack (by omega) h, hgrow⟩
    | low =>
      have byte := R.writeByte_ack (by omega) h
      rw [nextByte_inPhase_more, ← sentByte_eq_setIdx] at byte
      · have hidx : (sentByte s).idx = s.idx + 1 := rfl
        have hlen := (writeFrame_sentByte s).len
        obtain ⟨m, rest, hrest⟩ := ih (acked + 1) (R.of_writeFrame (writeFrame_sentByte s)) (by omega)
        exact ⟨47 + m, byte.trans rest, hgrow.trans hrest.of_setIdx⟩
      · rw [byteOut_eq]
        show s.idx + 1 < s.len
        omega

/-- What the loop of a READ leaves alone of a running transfer. -/
theorem Running.of_readByte (R : Running .read a s) : Running .read a (Machine.readByte s) := by
  rw [readByte_eq]
  exact ⟨R.host, R.initAt, R.cw⟩

/-- DATA of a READ with `n + 1` bytes left. -/
theorem Running.readLoop (n : Nat) (R : Running .read a s) (hn : s.idx + (n + 1) = s.len) :
    RunsTo (47 * (n + 1)) (firstPos .read s) (((repeatCell Machine.readByte (n + 1) s).inPhase .stop).setPos 0 0) := by
  have byte := R.readByte (by omega)
  have hidx : (byteIn s.isLast s).storeByte.idx = s.idx := by rw [byteIn_eq]; rfl
  have hlen : (byteIn s.isLast s).storeByte.len = s.len := by rw [byteIn_eq]; rfl
  induction n generalizing s with
  | zero =>
    rw [nextByte_inPhase_consumed .read (by omega)] at byte
    exact byte
  | succ n ih =>
    rw [nextByte_inPhase_more .read (by omega)] at byte
    have hidx' : (Machine.readByte s).idx = s.idx + 1 := by rw [readByte_eq]
    have hlen' : (Machine.readByte s).len = s.len := by rw [readByte_eq]
    have R' := R.of_readByte
    have rest := ih R' (by omega) (R'.readByte (by omega)) (by rw [byteIn_eq]; rfl) (by rw [byteIn_eq]; rfl)
    have both := byte.trans rest
    rwa [show 47 + 47 * (n + 1) = 47 * (n + 1 + 1) by omega] at both

end

/-! ### A whole transfer -/

section
variable {a : Addr} {s : State}

/-- From the end of ADDRESS to the first position of STOP: the data part of the one-step form. -/
theorem Running.writeData (R : Running .write a s) :
    ∃ m, RunsTo m (afterAddress .write (s.inPhase .address)) (((writeData s).2.inPhase .stop).setPos 0 0) ∧
      TraceGrows m s (writeData s).2 := by
  rw [Machine.writeData]
  cases h : s.ackl with
  | nack =>
    rw [afterAddress_nack (x := s.inPhase .address) h]
    exact ⟨0, rfl, .refl s⟩
  | ack =>
    rcases Nat.eq_zero_or_pos s.len with hlen | hlen
    · rw [afterAddress_empty (x := s.inPhase .address) h hlen, hlen]
      exact ⟨0, rfl, .refl s⟩
    · rw [afterAddress_ack (x := s.inPhase .address) h hlen]
      obtain ⟨n, hn⟩ : ∃ n, s.len = n + 1 := ⟨s.len - 1, by omega⟩
      obtain ⟨m, loop, hgrow⟩ := Running.writeLoop (s := s.setIdx 0) n 0 ⟨R.host, R.initAt, R.cw⟩
        (by rw [State.setIdx_idx, State.setIdx_len]; omega)
      rw [hn]
      exact ⟨m, loop, hgrow.of_setIdx⟩

theorem Running.readData (R : Running .read a s) :
    ∃ m, RunsTo m (afterAddress .read (s.inPhase .address)) (((readData s).inPhase .stop).setPos 0 0) ∧
      TraceGrows m s (readData s) := by
  rw [Machine.readData]
  cases h : s.ackl with
  | nack =>
    rw [afterAddress_nack (x := s.inPhase .address) h]
    exact ⟨0, rfl, .refl s⟩
  | ack =>
    rcases Nat.eq_zero_or_pos s.len with hlen | hlen
    · rw [afterAddress_empty (x := s.inPhase .address) h hlen, hlen]
      exact ⟨0, rfl, .refl s⟩
    · rw [afterAddress_ack (x := s.inPhase .address) h hlen]
      obtain ⟨n, hn⟩ : ∃ n, s.len = n + 1 := ⟨s.len - 1, by omega⟩
      have loop := Running.readLoop (s := s.setIdx 0) n ⟨R.host, R.initAt, R.cw⟩
        (by rw [State.setIdx_idx, State.setIdx_len]; omega)
      rw [hn]
      exact ⟨47 * (n + 1), loop, (traceGrows_repeat_readByte _ (s.setIdx 0)).of_setIdx⟩

/-- `BEGIN`, a data part, `END`: from the act of acceptance to the end, in as many steps as events. -/
theorem Running.transfer {d : Dir} {m : Nat} {u : State} (R : Running d a s) (Ru : Running d a u) (k : BitVec 4)
    (hdata : RunsTo m (afterAddress d ((Machine.beginTx a d s).inPhase .address)) ((u.inPhase .stop).setPos 0 0))
    (hgrow : TraceGrows m (Machine.beginTx a d s) u) :
    RunsTo (54 + m) ((s.inPhase .start).setPos k 0) (finishTransfer (statusOf d u) (endTx u)) ∧
      TraceGrows (54 + m) s (finishTransfer (statusOf d u) (endTx u)) := by
  have whole := ((R.beginTx k).trans hdata).trans Ru.stop
  rw [show 51 + m + 3 = 54 + m by omega] at whole
  exact ⟨whole, traceGrows_transfer hgrow⟩

end

/-- Every byte of a non-empty buffer is acknowledged iff the last level sampled is an ACK. -/
theorem write_all_acked_iff_last (a : Addr) (s : State) :
    (beginAnswer a .write s = .low ∧ 0 < s.len ∧ writeDataAnswers a s = List.replicate s.len .low) ↔
      0 < s.len ∧ (writeDataAnswers a s).getLastD (beginAnswer a .write s) = .low := by
  cases h : beginAnswer a .write s with
  | high => simp [writeDataAnswers_nack h]
  | low =>
    rcases writeAcks_writeDataAnswers h with hv | ⟨j, hj, hv⟩
    · cases hlen : s.len <;> simp [hv, hlen, List.getLastD_eq_getLast?, List.getLast?_replicate]
    · simp [hv, acks_nack_ne_acks, List.getLastD_eq_getLast?]

/-- The status the sequencer takes from `ACKL` and `LEN` is the one counted (log 20). -/
theorem write_status_of_registers (a : Addr) (s : State) :
    (writeTransfer a s).status = statusOf .write (writeTransfer a s) := by
  have hackl : (writeTransfer a s).ackl = ackOf ((writeDataAnswers a s).getLastD (beginAnswer a .write s)) := by
    rw [writeTransfer_eq]
  have hlen : (writeTransfer a s).len = s.len := by rw [writeTransfer_eq]
  have hregs : statusOf .write (writeTransfer a s) = .success ↔
      0 < s.len ∧ (writeDataAnswers a s).getLastD (beginAnswer a .write s) = .low := by
    rw [statusOf, hackl, hlen]
    by_cases hpos : 0 < s.len
    · rw [if_pos hpos, readStatus_success_iff]; simp [hpos]
    · simp [hpos]
  have hiff := (write_success_iff a s).trans ((write_all_acked_iff_last a s).trans hregs.symm)
  cases h : statusOf .write (writeTransfer a s) with
  | success => exact hiff.2 h
  | failure => exact status_failure_of_not_success fun hs => by rw [hiff.1 hs] at h; cases h

end Sys2Proof.Machine
end

section
/-! PROOF. The two forms of a public command, and of the host, agree (43_public_commands.md R154; 60_exceptions.md R183):
O42 and O43. -/

namespace Sys2Proof.Machine

/-- INIT: two steps are its two primitives. -/
theorem runsTo_init {s : State} (hh : s.host = []) : RunsTo 2 (accept .init s) (init s) := by
  have first : RunsTo 1 (accept .init s) ((sdaRel (accept .init s)).setInitAt .sclRel) := by
    refine .of_step ?_
    rw [step_busy (s := accept .init s) hh rfl, sequencerStep_initSda (s := accept .init s) rfl]
  have second : RunsTo 1 ((sdaRel (accept .init s)).setInitAt .sclRel) (init s) := by
    refine .of_step ?_
    rw [step_busy (s := (sdaRel (accept .init s)).setInitAt .sclRel) hh rfl,
      sequencerStep_initScl (s := (sdaRel (accept .init s)).setInitAt .sclRel) rfl, init_eq]
    simp [finishInit, accept_init, sdaRel_eq, sclRel_eq, State.setInitAt, State.setInited, State.setBusy]
  exact first.trans second

/-- WRITE: as many steps as events. -/
theorem runsTo_write {a : Addr} {s : State} (hh : s.host = []) (hi : s.initAt = .none)
    (hcw : transferOf s.cw = some (.write, a)) :
    ∃ n, RunsTo n (accept (.write a) s) (writeTransfer a s) ∧ TraceGrows n s (writeTransfer a s) := by
  have R : Running .write a s := ⟨hh, hi, hcw⟩
  have Rb := R.of_writeFrame (writeFrame_beginTx a .write s)
  obtain ⟨m, hdata, hgrow⟩ := Rb.writeData
  have Ru := Rb.of_writeFrame (writeData_frame (afterByte_beginTx a .write s)).1
  have hwhole := R.transfer Ru s.bitcnt hdata hgrow
  have hstatus : statusOf .write (writeData (beginTx a .write s)).2 =
      writeStatus s.len (writeData (beginTx a .write s)).1 := (write_status_of_registers a s).symm
  rw [hstatus] at hwhole
  exact ⟨54 + m, hwhole⟩

/-- The data part of a READ keeps the address's acknowledgment and the transfer running. -/
theorem readData_kept {a : Addr} {s : State} (R : Running .read a s) :
    (readData s).ackl = s.ackl ∧ Running .read a (readData s) := by
  rw [readData]
  cases h : s.ackl with
  | nack => exact ⟨h, R⟩
  | ack =>
    refine repeatCell_induct (P := fun t => t.ackl = .ack ∧ Running .read a t) (fun t ⟨hack, Rt⟩ => ⟨?_, Rt.of_readByte⟩)
      s.len (s := s.setIdx 0) ⟨h, R.host, R.initAt, R.cw⟩
    rw [readByte_eq]
    exact hack

/-- READ: as many steps as events. -/
theorem runsTo_read {a : Addr} {s : State} (hh : s.host = []) (hi : s.initAt = .none)
    (hcw : transferOf s.cw = some (.read, a)) :
    ∃ n, RunsTo n (accept (.read a) s) (readTransfer a s) ∧ TraceGrows n s (readTransfer a s) := by
  have R : Running .read a s := ⟨hh, hi, hcw⟩
  have Rb := R.of_writeFrame (writeFrame_beginTx a .read s)
  obtain ⟨m, hdata, hgrow⟩ := Rb.readData
  obtain ⟨hackl, Ru⟩ := readData_kept Rb
  have hwhole := R.transfer Ru s.bitcnt hdata hgrow
  rw [statusOf, hackl] at hwhole
  exact ⟨54 + m, hwhole⟩

theorem TraceGrows.length_sub {n : Nat} {s t : State} (h : TraceGrows n s t) : t.trace.length - s.trace.length = n := by
  obtain ⟨es, hes, rfl⟩ := h
  simp [hes]

/-- A public command accepted and stepped ends in the state its one-step meaning gives, after as many steps as it has
events. -/
theorem runsTo_of_exec {i : Instr} {s t : State} (hpub : hostIssuable i = true) (hword : decode s.cw = .ok i)
    (hh : s.host = []) (hi : s.initAt = .none) (h : exec i s = .next t) :
    RunsTo (t.trace.length - s.trace.length) (accept i s) t := by
  rcases hostIssuable_cases hpub with rfl | ⟨a, rfl⟩ | ⟨a, rfl⟩
  · obtain rfl := Host.Outcome.next.inj ((exec_init s).symm.trans h)
    have hgrow : TraceGrows 2 s (init s) := ⟨_, by rw [init_eq], rfl⟩
    rw [hgrow.length_sub]
    exact runsTo_init hh
  · obtain rfl := Host.Outcome.next.inj ((exec_write a s).symm.trans h)
    obtain ⟨n, hrun, hgrow⟩ := runsTo_write hh hi (transferOf_write hword)
    rwa [hgrow.length_sub]
  · obtain rfl := Host.Outcome.next.inj ((exec_read a s).symm.trans h)
    obtain ⟨n, hrun, hgrow⟩ := runsTo_read hh hi (transferOf_read hword)
    rwa [hgrow.length_sub]

/-- The interface lets in the same words of a host that polls as of a host that calls. -/
theorem screenWord_poll (w : CmdWord) (q : Bool) : screenWord .poll w q = screenWord .call w q := rfl

/-- The word and its bytes are presented alike by both. -/
theorem present_poll (w : CmdWord) (bs : List Byte) (q : Bool) (i : Instr) (s : State) :
    present ⟨.poll, w, bs, q⟩ i s = present ⟨.call, w, bs, q⟩ i s := by
  cases i <;> rfl

end Sys2Proof.Machine

open Sys2Proof Sys2Proof.Machine

/-- Settles O42, for INIT by its two primitives and for a transfer phase by phase. -/
theorem smallStepsAddUpToTheCommand : Obligations.SmallStepsAddUpToTheCommand := by
  intro i s hpub hword hh _ hi
  obtain ⟨t, ht⟩ := exec_total i s
  exact ⟨t, ht, runsTo_of_exec hpub hword hh hi ht⟩

/-- Settles O43: the polled word is accepted on the state the called word runs on. -/
theorem pollingAndCallingGiveTheSameResult : Obligations.PollingAndCallingGiveTheSameResult := by
  intro s t w bs q hb hi h
  rw [step_offered hb] at h
  rcases issue_cases ⟨.call, w, bs, q⟩ { s with host := [] } with ⟨e, -, hrefused⟩ | ⟨i, -, hword, -⟩
  · cases hrefused.symm.trans h
  · have hexec := (issue_exec hword Presenter.noConfusion).symm.trans h
    have haccept := (step_offered hb ⟨.poll, w, bs, q⟩ []).trans
      (issue_accept (s := { s with host := [] }) ((screenWord_poll w s.inited).trans hword) rfl)
    rw [present_poll] at haccept
    obtain ⟨hpub, -⟩ := host_screenWord (p := .call) Presenter.noConfusion hword
    obtain ⟨F, hcw⟩ := presentFrame ⟨.call, w, bs, q⟩ i { s with host := [] }
    have hrun := runsTo_of_exec hpub (by rw [hcw]; exact decode_of_screenWord hword) F.host (F.initAt.trans hi) hexec
    rw [F.trace] at hrun
    exact (RunsTo.of_step haccept).trans hrun

end
